-- ==== Sys2Proof/Word.lean ====
section
/-!
DEFINITION. The words of the strip/presence block: a byte of the frame (R22), the fields of the command word (R73), the
response word (R72), and the eight selectors of `RDSTAT` by name (R81, R153).
-/

namespace Sys2Proof

/-- One 8-bit intensity channel, one byte of the frame (R22). -/
abbrev Byte := BitVec 8

/-- The field `idx` of the command word (R73). -/
abbrev LedIndex := BitVec 16

/-- A command word `cmd[47:0]` (R73). -/
abbrev CmdWord := BitVec 48

/-- A response word `rsp[23:0]` (R72). -/
abbrev RspWord := BitVec 24

/-- The field `sel` of `RDSTAT`, by the names R81 and R153 give its eight values. -/
inductive Selector
  | state
  | subtick
  | seconds
  | minutes
  | grace
  | pflag
  | csel
  | latched
  deriving DecidableEq, Repr

end Sys2Proof
end

