-- ==== Sys2Proof/Syntax.lean ====
section
/-!
DEFINITION. The ten commands of `CUN-CMD-1` (R78), one constructor per row of spec/opcode_table.json, with the operands
R77 takes from the word.
-/

namespace Sys2Proof

/-- A command of the block (R78). Operands are the fields of R73 and R74, taken from the word unchanged (R77). -/
inductive Instr
  /-- `NOP` (R91). -/
  | nop
  /-- `SET idx, r, g, b` (R93). -/
  | set (idx : LedIndex) (r g b : Byte)
  /-- `SETALL r, g, b` (R94). -/
  | setall (r g b : Byte)
  /-- `CLR idx` (R95). -/
  | clr (idx : LedIndex)
  /-- `CLRALL` (R96). -/
  | clrall
  /-- `FLUSH` (R110). -/
  | flush
  /-- `GET idx` (R97). -/
  | get (idx : LedIndex)
  /-- `SETPRES v` (R151): `v = true` is present. -/
  | setpres (v : Bool)
  /-- `RDSTAT sel` (R153). -/
  | rdstat (sel : Selector)
  /-- `CNEXT` (R170). -/
  | cnext
  deriving DecidableEq, Repr

end Sys2Proof
end

