-- ==== Sys2Proof/Decode.lean ====
section
/-!
DEFINITION. Decoding a command word (R76, R77), total on all 2^48 words, and the encoder (R73 to R75, R78). Decoding never
depends on state (R76).
-/

namespace Sys2Proof

/-- Why a word is illegal (R79). -/
inductive IllegalWord
  /-- `op` is not one of the ten opcodes of R78. -/
  | unknownOpcode
  /-- A reserved bit of the opcode's format (R74) is 1. -/
  | reservedBit
  deriving DecidableEq, Repr

/-- `cmd[47:40]` (R73). -/
def opField (w : CmdWord) : BitVec 8 := w.extractLsb' 40 8

/-- `cmd[39:24]` (R73). -/
def idxField (w : CmdWord) : LedIndex := w.extractLsb' 24 16

/-- `cmd[23:16]` (R73). -/
def redField (w : CmdWord) : Byte := w.extractLsb' 16 8

/-- `cmd[15:8]` (R73). -/
def greenField (w : CmdWord) : Byte := w.extractLsb' 8 8

/-- `cmd[7:0]` (R73). -/
def blueField (w : CmdWord) : Byte := w.extractLsb' 0 8

/-- The word `{op, idx, r, g, b}` (R73). -/
def layout (op : BitVec 8) (idx : LedIndex) (r g b : Byte) : CmdWord := op ++ idx ++ r ++ g ++ b

/-- The value of `sel` a selector has (R81, R153). -/
def selectorBits : Selector → BitVec 3
  | .state => 0
  | .subtick => 1
  | .seconds => 2
  | .minutes => 3
  | .grace => 4
  | .pflag => 5
  | .csel => 6
  | .latched => 7

/-- The selector of a value of `sel = cmd[2:0]`: all eight are legal (R80, R153). -/
def selectorOf (sel : BitVec 3) : Selector :=
  match sel.toNat with
  | 0 => .state
  | 1 => .subtick
  | 2 => .seconds
  | 3 => .minutes
  | 4 => .grace
  | 5 => .pflag
  | 6 => .csel
  | _ => .latched

/-- Reserved bits (R74): a format's word is legal only where every bit of `mask` is 0. -/
def withoutReserved (w mask : CmdWord) (i : Instr) : Except IllegalWord Instr :=
  if w &&& mask = 0 then .ok i else .error .reservedBit

/-- The decoding procedure of R76 with the formats of R74 and the operands of R77. The mask of an arm is that of its
format's reserved bits: `Z` `cmd[39:0]`, `I` `cmd[23:0]`, `C` `cmd[39:24]`, `IC` none, `V1` `cmd[39:1]`, `V3` `cmd[39:3]`. -/
def decode (w : CmdWord) : Except IllegalWord Instr :=
  match (opField w).toNat with
  | 0x00 => withoutReserved w 0x00FFFFFFFFFF .nop
  | 0x01 => withoutReserved w 0x000000000000 (.set (idxField w) (redField w) (greenField w) (blueField w))
  | 0x02 => withoutReserved w 0x00FFFF000000 (.setall (redField w) (greenField w) (blueField w))
  | 0x03 => withoutReserved w 0x000000FFFFFF (.clr (idxField w))
  | 0x04 => withoutReserved w 0x00FFFFFFFFFF .clrall
  | 0x05 => withoutReserved w 0x00FFFFFFFFFF .flush
  | 0x06 => withoutReserved w 0x000000FFFFFF (.get (idxField w))
  | 0x07 => withoutReserved w 0x00FFFFFFFFFE (.setpres (w.getLsbD 0))
  | 0x08 => withoutReserved w 0x00FFFFFFFFF8 (.rdstat (selectorOf (w.extractLsb' 0 3)))
  | 0x09 => withoutReserved w 0x00FFFFFFFFFF .cnext
  | _ => .error .unknownOpcode

/-- The word of a command (R75, R78). -/
def encode : Instr → CmdWord
  | .nop => layout 0x00 0 0 0 0
  | .set idx r g b => layout 0x01 idx r g b
  | .setall r g b => layout 0x02 0 r g b
  | .clr idx => layout 0x03 idx 0 0 0
  | .clrall => layout 0x04 0 0 0 0
  | .flush => layout 0x05 0 0 0 0
  | .get idx => layout 0x06 idx 0 0 0
  | .setpres v => layout 0x07 0 0 0 (if v then 1 else 0)
  | .rdstat sel => layout 0x08 0 0 0 ((selectorBits sel).zeroExtend 8)
  | .cnext => layout 0x09 0 0 0 0

/-- A row of spec/opcode_table.json: a word `w` spells the row's command exactly when `w AND mask = pattern` (R74). -/
structure OpcodeRow where
  pattern : CmdWord
  mask : CmdWord
  deriving DecidableEq, Repr

/-- The row of each command, transcribed from spec/opcode_table.json. -/
def opcodeRow : Instr → OpcodeRow
  | .nop => ⟨0x000000000000, 0xFFFFFFFFFFFF⟩
  | .set _ _ _ _ => ⟨0x010000000000, 0xFF0000000000⟩
  | .setall _ _ _ => ⟨0x020000000000, 0xFFFFFF000000⟩
  | .clr _ => ⟨0x030000000000, 0xFF0000FFFFFF⟩
  | .clrall => ⟨0x040000000000, 0xFFFFFFFFFFFF⟩
  | .flush => ⟨0x050000000000, 0xFFFFFFFFFFFF⟩
  | .get _ => ⟨0x060000000000, 0xFF0000FFFFFF⟩
  | .setpres _ => ⟨0x070000000000, 0xFFFFFFFFFFFE⟩
  | .rdstat _ => ⟨0x080000000000, 0xFFFFFFFFFFF8⟩
  | .cnext => ⟨0x090000000000, 0xFFFFFFFFFFFF⟩

/-- The word is legal: some command has it as a word. -/
def isLegal (w : CmdWord) : Bool := (decode w).toBool

/-- The instruction the decoder reads from a word of the opcode table. A command is one parallel word of 48 bits, so the
table's bit numbering is the word's own (R56, R73). -/
def decodeTableWord (nbits w : Nat) : Option Instr :=
  if nbits ≤ 48 ∧ w < 2 ^ nbits then (decode (BitVec.ofNat 48 w)).toOption else none

end Sys2Proof
end

