-- ==== Sys2Proof/Config.lean ====
section
/-!
DEFINITION. The parameter set of the block (R5, R6, R7): what an instance fixes and no step changes. A `Params` value
stands in State, so a statement about every state is a statement about every parameter set (log 1).
-/

namespace Sys2Proof

/-- A colour channel name of `WIRE_ORDER` (R5). -/
inductive Channel
  | red
  | green
  | blue
  deriving DecidableEq, Repr

/-- `WIRE_ORDER`: the six permutations of (R, G, B) that R52 tabulates. A triple that is no permutation (R8) cannot be
written (log 17). -/
inductive WireOrder
  | grb
  | rgb
  | rbg
  | gbr
  | brg
  | bgr
  deriving DecidableEq, Repr

/-- The parameters of R5 (strip), R6 (presence) and R7 (colour cursor). Durations in real time are in picoseconds
(log 22); no step reads them (R8). -/
structure Params where
  /-- `N`, the number of LEDs. -/
  n : Nat
  /-- `WIRE_ORDER`. -/
  wireOrder : WireOrder
  /-- `T0H_CYC`. -/
  t0h : Nat
  /-- `T0L_CYC`. -/
  t0l : Nat
  /-- `T1H_CYC`. -/
  t1h : Nat
  /-- `T1L_CYC`. -/
  t1l : Nat
  /-- `RESET_CYC`. -/
  resetCyc : Nat
  /-- `TPS`. -/
  tps : Nat
  /-- `GRACE_TICKS`. -/
  graceTicks : Nat
  /-- `K`. -/
  k : Nat
  /-- `COLOR_DEFAULT`. -/
  colorDefault : Nat
  /-- `T_CLK` in picoseconds. -/
  tClk : Nat
  /-- `T_TICK` in picoseconds. -/
  tTick : Nat
  deriving DecidableEq, Repr

/-- The instance `State.reset` uses. `TPS`, `GRACE_TICKS` and `WIRE_ORDER` are the spec's defaults (R5, R6); `T_TICK` is
the document's example of 100 ms (R6); the OPEN ones are the values of the spec's test vectors (95_test_vectors.md sections
2.2, 2.4, 2.7) and, for `T_CLK`, the 50 ns of R225. DESIGN CHOICE, log 2: unsafe for a statement about `State.reset` alone. -/
def Params.standard : Params where
  n := 4
  wireOrder := .grb
  t0h := 1
  t0l := 2
  t1h := 2
  t1l := 1
  resetCyc := 4
  tps := 10
  graceTicks := 10
  k := 5
  colorDefault := 0
  tClk := 50000
  tTick := 100000000000

/-- The window a strip's data sheet gives for one duration, in picoseconds (R8). DESIGN CHOICE, log 27: a window may have no
upper end (a latch gap "of more than" a time, R225), and its ends belong to it. -/
structure Window where
  least : Nat
  /-- The upper end; `none` where the window has none. -/
  most : Option Nat
  deriving DecidableEq, Repr

/-- The five windows of a strip (R8). -/
structure StripSheet where
  t0h : Window
  t0l : Window
  t1h : Window
  t1l : Window
  gap : Window
  deriving DecidableEq, Repr

end Sys2Proof
end

