-- ==== Sys2Proof/WellFormed.lean ====
section
/-!
DEFINITION. What must hold of a parameter set (R8), of a parameter set for a strip (R8) and of a command for the host to
keep its contract (R92, R222). The operand checks of the assembler (R81) stand beside the assembler, in Machine/Script.lean.
-/

namespace Sys2Proof

/-- The constraints of R8 (and `0 <= COLOR_DEFAULT < K` of R7) that every parameter set must meet. -/
abbrev Params.ok (p : Params) : Prop :=
  (1 ≤ p.n ∧ p.n ≤ 65535) ∧ (1 ≤ p.t0h ∧ p.t0h < p.t1h) ∧ 1 ≤ p.t0l ∧ 1 ≤ p.t1l ∧ 1 ≤ p.resetCyc ∧
    (2 ≤ p.tps ∧ p.tps ≤ 255) ∧ (1 ≤ p.graceTicks ∧ p.graceTicks ≤ 255) ∧ (1 ≤ p.k ∧ p.k ≤ 256) ∧ p.colorDefault < p.k

/-- A duration of `cyc` clock cycles lies inside a window (R8). DESIGN CHOICE, log 27: a duration equal to an end of the window
lies inside it. -/
abbrev Params.fits (p : Params) (cyc : Nat) (w : Window) : Prop :=
  w.least ≤ cyc * p.tClk ∧ ∀ m ∈ w.most, cyc * p.tClk ≤ m

/-- The parameter set is *in tolerance for a strip* (R8). The block cannot check it (R123); no step depends on it. -/
abbrev Params.inTolerance (p : Params) (d : StripSheet) : Prop :=
  p.fits p.t0h d.t0h ∧ p.fits p.t0l d.t0l ∧ p.fits p.t1h d.t1h ∧ p.fits p.t1l d.t1l ∧ p.fits p.resetCyc d.gap

/-- `SECONDS` counts seconds of wall time (R163, R214 (3)): `TPS * T_TICK` is one second. -/
abbrev Params.secondsAreReal (p : Params) : Prop := p.tps * p.tTick = 1000000000000

/-- The host keeps the index precondition (R92 "Precondition: `index < N`", R222). Every `Instr` is well formed as a word
(its operands have the widths of their fields); an index at or above `N` decodes and faults when executed (R80). -/
abbrev Instr.WellFormed (p : Params) : Instr → Prop
  | .set idx _ _ _ => idx.toNat < p.n
  | .clr idx => idx.toNat < p.n
  | .get idx => idx.toNat < p.n
  | .nop => True
  | .setall _ _ _ => True
  | .clrall => True
  | .flush => True
  | .setpres _ => True
  | .rdstat _ => True
  | .cnext => True

end Sys2Proof
end

