-- ==== Sys2Proof/Machine/State.lean ====
section
/-!
DEFINITION. The state of the block (R20) as plain data, its reset value (R49), and the reasons a step can stop.
-/

namespace Sys2Proof.Machine

/-- A symbol of `TRACE` (R12): `S` a short pulse, `L` a long pulse, `RST` the line low for at least the latch interval. -/
inductive Symbol
  | S
  | L
  | RST
  deriving DecidableEq, Repr

/-- `SER_PHASE` (R31). The value 3 is never reached and is not representable (log 13). -/
inductive SerPhase
  | idle
  | high
  | low
  deriving DecidableEq, Repr

/-- `STATE` (R34). The value 3 has no meaning and is not representable (U7, log 13). -/
inductive PresenceMode
  | absent
  | present
  | grace
  deriving DecidableEq, Repr

/-- The contents of `FAULT` (R46, R180): codes 3 to 7 are never written and are not representable (log 13). -/
inductive FaultCause
  | clear
  | illegalCmd
  | indexRange
  deriving DecidableEq, Repr

/-- The frame: a sparse list of (byte offset, byte), offsets strictly rising, no byte 0x00 listed. An unlisted offset reads
0x00, the reset content of R22 and R49 (log 10). -/
abbrev Memory := List Host.Cell

/-- The serializer's registers (R31, R32, R33, R47). -/
structure Serializer where
  /-- `SER_PHASE`. -/
  phase : SerPhase
  /-- `BYTE_PTR`. -/
  bytePtr : BitVec 18
  /-- `BIT_PTR`. -/
  bitPtr : BitVec 3
  /-- `CYC`, below 2^`CYCW` (log 11). -/
  cyc : Nat
  /-- `GAPCNT`, below 2^`GAPW` (log 11). -/
  gapcnt : Nat
  /-- `DOUT`. -/
  dout : Bool
  deriving DecidableEq, Repr

/-- The registers of the presence unit that only the tick writes (R34 to R38, R195). -/
structure Presence where
  /-- `STATE`. -/
  mode : PresenceMode
  /-- `SUBTICK`. -/
  subtick : BitVec 8
  /-- `SECONDS`. -/
  seconds : BitVec 6
  /-- `MINUTES`. -/
  minutes : BitVec 6
  /-- `GRACE`. -/
  grace : BitVec 8
  deriving DecidableEq, Repr

/-- The levels on the input pins in one clock cycle (R70). -/
structure Pins where
  rst : Bool
  cmdValid : Bool
  cmd : CmdWord
  tick : Bool
  deriving DecidableEq, Repr

/-- The state of the block: the fields of R20 (`LATCHED` is the wire `GAPCNT >= RESET_CYC`, log 14), and the model's own
fields `params` (R11, log 1) and `inputs` (log 4). -/
structure State where
  /-- The parameter set (R5 to R7); no step changes it. -/
  params : Params
  /-- `FRAME`. -/
  frame : Memory
  /-- The serializer. -/
  ser : Serializer
  /-- `STATE`, `SUBTICK`, `SECONDS`, `MINUTES`, `GRACE`. -/
  pres : Presence
  /-- `PFLAG`. -/
  pflag : Bool
  /-- `CSEL`. -/
  csel : BitVec 8
  /-- `FAULT`. -/
  fault : FaultCause
  /-- `FINFO`. -/
  finfo : CmdWord
  /-- `RSP`. -/
  rsp : RspWord
  /-- `RSP_VALID`. -/
  rspValid : Bool
  /-- The ghost `TRACE`, oldest symbol first. -/
  trace : List Symbol
  /-- The pins of the coming clock cycles, the next one first: the outside world, not a queue of the block (R71). -/
  inputs : List Pins
  deriving DecidableEq, Repr

/-- Why the machine stops. -/
inductive Fault
  /-- A frame byte at an offset `3*N` or above is asked for, which R14 forbids ("both require `0 <= a < 3*N`"). Raised by
  `FLUSH` and the serializer only, in states no run from reset reaches (R48 I8, R8). Safe: the hardware has no such run. -/
  | frameOffsetOutOfRange
  deriving DecidableEq, Repr

/-- Why the model gives no next state. -/
inductive Refusal
  /-- Raised by an arm of `exec` that has no meaning yet. Safe. -/
  | notModelled (mnemonic : String)
  /-- Raised by the event-level step `LATCH` where R121 does not enable it (`LATCHED = 1`, or a flush in progress, which the
  event level does not have). Safe: "at the event level such a step does not exist" (R15). -/
  | latchNotEnabled
  /-- Raised by an event-level command where `cmd_ready = 0` (R71: "a command can be issued in any state with `FAULT = 0`").
  Safe: "at the event level such a step does not exist" (R15). A clock edge is not refused for it (R71, log 7). -/
  | commandNotReady
  deriving DecidableEq, Repr

/-- The serializer after reset (R49). -/
def Serializer.reset : Serializer where
  phase := .idle
  bytePtr := 0
  bitPtr := 0
  cyc := 0
  gapcnt := 0
  dout := false

/-- The presence unit after reset (R49): "`ABSENT`", all counters zero. -/
def Presence.reset : Presence where
  mode := .absent
  subtick := 0
  seconds := 0
  minutes := 0
  grace := 0

/-- The reset table (R49), for a parameter set. -/
def State.resetWith (p : Params) : State where
  params := p
  frame := []
  ser := .reset
  pres := .reset
  pflag := false
  csel := BitVec.ofNat 8 p.colorDefault
  fault := .clear
  finfo := 0
  rsp := 0
  rspValid := false
  trace := []
  inputs := []

/-- The block right after reset (R49, R212), for the instance of log 2. -/
def State.reset : State := .resetWith .standard

/-- No pin active: an idle clock cycle. -/
def Pins.idle : Pins where
  rst := false
  cmdValid := false
  cmd := 0
  tick := false

/-- A cycle in which the host presents the word `w`. -/
def Pins.present (w : CmdWord) : Pins := { Pins.idle with cmdValid := true, cmd := w }

end Sys2Proof.Machine
end

