-- ==== Sys2Proof/Machine/Operands.lean ====
section
/-!
DEFINITION. The operand forms of the commands: the LED index and its effective address (R51, R53), the channel order inside
a triple (R52), and the response words (R72).
-/

namespace Sys2Proof.Machine

/-- `(w0, w1, w2)` of `WIRE_ORDER` (R5, R52). -/
def wireChannels : WireOrder → Channel × Channel × Channel
  | .grb => (.green, .red, .blue)
  | .rgb => (.red, .green, .blue)
  | .rbg => (.red, .blue, .green)
  | .gbr => (.green, .blue, .red)
  | .brg => (.blue, .red, .green)
  | .bgr => (.blue, .green, .red)

/-- `ch(R) = r`, `ch(G) = g`, `ch(B) = b` (R52). -/
def channelValue (r g b : Byte) : Channel → Byte
  | .red => r
  | .green => g
  | .blue => b

/-- `perm(r, g, b) = (ch(w0), ch(w1), ch(w2))` (R52). -/
def perm (o : WireOrder) (r g b : Byte) : Byte × Byte × Byte :=
  (channelValue r g b (wireChannels o).1, channelValue r g b (wireChannels o).2.1,
    channelValue r g b (wireChannels o).2.2)

/-- The byte of a stored triple that holds channel `c`: byte `k` where `wk = c` (R5). -/
def channelOfTriple (o : WireOrder) (b0 b1 b2 : Byte) (c : Channel) : Byte :=
  if (wireChannels o).1 = c then b0 else if (wireChannels o).2.1 = c then b1 else b2

/-- `unperm`, the inverse of `perm` (R52): `(r, g, b)` of a stored triple. -/
def unperm (o : WireOrder) (b0 b1 b2 : Byte) : Byte × Byte × Byte :=
  (channelOfTriple o b0 b1 b2 .red, channelOfTriple o b0 b1 b2 .green, channelOfTriple o b0 b1 b2 .blue)

/-- The effective address `EA(idx) = 3 * idx` (R53), the offset of the LED's first byte (R51). -/
def ledOffset (led : Nat) : Nat := 3 * led

/-- The response `{r, g, b}` of `GET` (R72): red in `rsp[23:16]`, green in `rsp[15:8]`, blue in `rsp[7:0]`. -/
def colourWord (r g b : Byte) : RspWord := r ++ g ++ b

/-- The value of one bit as a number, for `zext_24` (R14). -/
def bitValue (b : Bool) : BitVec 1 := if b then 1 else 0

end Sys2Proof.Machine
end

