-- ==== Sys2Proof/Machine/Flags.lean ====
section
/-!
DEFINITION. The status indications (R40 to R43, R33), the encodings of the enumerated registers (R31, R34, R46), the
register `RDSTAT` selects (R153) and the output pins (R70). The block has no condition codes (R40).
-/

namespace Sys2Proof.Machine

/-- `SER_PHASE` as two bits (R31). -/
def serPhaseCode : SerPhase → BitVec 2
  | .idle => 0
  | .high => 1
  | .low => 2

/-- `STATE` as two bits (R34). -/
def presenceCode : PresenceMode → BitVec 2
  | .absent => 0
  | .present => 1
  | .grace => 2

/-- `FAULT` as three bits (R46, R180). -/
def faultCode : FaultCause → BitVec 3
  | .clear => 0
  | .illegalCmd => 1
  | .indexRange => 2

/-- `busy`: `SER_PHASE != IDLE` (R41). -/
def State.busy (s : State) : Bool := s.ser.phase != .idle

/-- `LATCHED`: 1 exactly when `GAPCNT >= RESET_CYC` (R33). -/
def State.latched (s : State) : Bool := decide (s.params.resetCyc ≤ s.ser.gapcnt)

/-- `cmd_ready = 1` exactly when `FAULT = 0` and `SER_PHASE = IDLE` (R41). -/
def State.cmdReady (s : State) : Bool := s.fault == .clear && s.ser.phase == .idle

/-- The register `sel` of `RDSTAT` selects, zero-extended to 24 bits (R153, R72). -/
def statusWord (s : State) : Selector → RspWord
  | .state => (presenceCode s.pres.mode).zeroExtend 24
  | .subtick => s.pres.subtick.zeroExtend 24
  | .seconds => s.pres.seconds.zeroExtend 24
  | .minutes => s.pres.minutes.zeroExtend 24
  | .grace => s.pres.grace.zeroExtend 24
  | .pflag => (bitValue s.pflag).zeroExtend 24
  | .csel => s.csel.zeroExtend 24
  | .latched => (bitValue s.latched).zeroExtend 24

/-- The output pins (R70). -/
structure Outputs where
  cmdReady : Bool
  rspValid : Bool
  rsp : RspWord
  dout : Bool
  busy : Bool
  latched : Bool
  fault : Bool
  faultCode : BitVec 3
  deriving DecidableEq, Repr

/-- What the block drives on its output pins in a cycle whose state is `s` (R41 to R43, R47, R70). -/
def State.outputs (s : State) : Outputs where
  cmdReady := s.cmdReady
  rspValid := s.rspValid
  rsp := s.rsp
  dout := s.ser.dout
  busy := s.busy
  latched := s.latched
  fault := s.fault != .clear
  faultCode := Machine.faultCode s.fault

/-- The least width that holds `v` (R20). -/
def leastWidth (v : Nat) : Nat := if v = 0 then 0 else Nat.log2 v + 1

/-- The longest phase of a pulse, in cycles (R20). -/
def longestPhase (p : Params) : Nat := max (max p.t0h p.t0l) (max p.t1h p.t1l)

/-- `CYCW` (R20). -/
def cycWidth (p : Params) : Nat := leastWidth (longestPhase p - 1)

/-- `GAPW` (R20). -/
def gapWidth (p : Params) : Nat := leastWidth p.resetCyc

end Sys2Proof.Machine
end

