-- ==== Sys2Proof/Machine/Ops.lean ====
section
/-!
DEFINITION. The named operations over the frame and the registers: the canonical memory, `LoadLED` and `StoreLED` (R53),
the serializer's byte read (R50), `emit`, `respond` and `raise` (R14), taking the fault (R190), accepting a command (R71) and
the return from a fault, which is reset (R192, R210).
-/

namespace Sys2Proof.Machine

/-! ### The frame as a canonical list -/

/-- The byte at an offset; 0x00 where none is listed (R22). -/
def Memory.read : Memory → Nat → Byte
  | [], _ => 0
  | (k, v) :: m, a => if k = a then v else Memory.read m a

/-- A byte stored at an offset; the list stays sorted and lists no 0x00. -/
def Memory.write : Memory → Nat → Byte → Memory
  | [], a, b => if b = 0 then [] else [(a, b)]
  | (k, v) :: m, a, b =>
    if a < k then (if b = 0 then (k, v) :: m else (a, b) :: (k, v) :: m)
    else if a = k then (if b = 0 then m else (a, b) :: m)
    else (k, v) :: Memory.write m a b

/-- The canonical form: offsets strictly rising, no 0x00 listed. -/
def Memory.wf : Memory → Bool
  | [] => true
  | (k, v) :: m => v != 0 && m.all (fun c => decide (k < c.1)) && Memory.wf m

/-! ### Outcomes -/

/-- What a step answers. -/
abbrev Result := Host.Outcome State Fault Refusal

/-- Continue from a next state; a stop stays a stop. -/
def andThen (o : Result) (f : State → Result) : Result :=
  match o with
  | .next s => f s
  | .fault r => .fault r
  | .refused r => .refused r

/-- The next state, where there is one. -/
def nextState? (o : Result) : Option State :=
  match o with
  | .next s => some s
  | .fault _ => none
  | .refused _ => none

/-! ### Frame access -/

/-- `StoreLED` (R53): `MemWrite(EA(led), 3, (b0, b1, b2))` of a triple already in wire order. -/
def storeTriple (led : Nat) (t : Byte × Byte × Byte) (m : Memory) : Memory :=
  Memory.write (Memory.write (Memory.write m (ledOffset led) t.1) (ledOffset led + 1) t.2.1) (ledOffset led + 2) t.2.2

/-- The first `count` triples, in ascending order (R94). -/
def storeTriples (t : Byte × Byte × Byte) (m : Memory) : Nat → Memory
  | 0 => m
  | count + 1 => storeTriple count t (storeTriples t m count)

/-- `StoreLED(led, r, g, b)` (R53). -/
def storeLED (led : Nat) (r g b : Byte) (s : State) : State :=
  { s with frame := storeTriple led (perm s.params.wireOrder r g b) s.frame }

/-- Every triple of the frame (R94). -/
def storeAllLEDs (r g b : Byte) (s : State) : State :=
  { s with frame := storeTriples (perm s.params.wireOrder r g b) s.frame s.params.n }

/-- `LoadLED(led)` (R53): `(r, g, b)`. -/
def loadLED (led : Nat) (s : State) : Byte × Byte × Byte :=
  unperm s.params.wireOrder (s.frame.read (ledOffset led)) (s.frame.read (ledOffset led + 1))
    (s.frame.read (ledOffset led + 2))

/-- `FRAME[a]` where `a < 3*N`, as R14 requires; nothing outside. -/
def frameByte? (s : State) (a : Nat) : Option Byte :=
  if a < 3 * s.params.n then some (s.frame.read a) else none

/-- `FRAME[a][j]` where `a < 3*N`. -/
def frameBit? (s : State) (a j : Nat) : Option Bool := (frameByte? s a).map (fun v => v.getLsbD j)

/-! ### Registers -/

/-- `emit(y)` (R14). -/
def emit (y : Symbol) (s : State) : State := { s with trace := s.trace ++ [y] }

/-- `respond(v)` (R14, R42): the response register and its strobe. -/
def respond (v : RspWord) (s : State) : State := { s with rsp := v, rspValid := true }

/-- The strobe at an edge that answers nothing: `RSP_VALID <- 0`, `RSP` keeps its value (R42). -/
def clearStrobe (s : State) : State := { s with rspValid := false }

/-- The state after fault entry (R190): `FAULT <- code(F)`, `FINFO <- cmd`, nothing else. -/
def enterFault (c : FaultCause) (w : CmdWord) (s : State) : State := { s with fault := c, finfo := w }

/-- Taking the fault, `raise F(cmd)` (R190). Control goes nowhere: the fault is in the next state (log 6). -/
def raise (c : FaultCause) (w : CmdWord) (s : State) : Result := .next (enterFault c w s)

/-- Acceptance (R71, R41): a command presented while `cmd_ready = 0` is not accepted and has no effect (log 7). -/
def accept (s : State) (body : State → Result) : Result := if s.cmdReady then body s else .next s

/-- The bound check (R92): `idx >= N` raises `INDEX_RANGE` and nothing else happens. `FINFO` takes the command's word,
which the encoder gives (log 8). -/
def boundChecked (i : Instr) (idx : LedIndex) (s : State) (body : State → Result) : Result :=
  if idx.toNat < s.params.n then body s else raise .indexRange (encode i) s

/-- A reset edge (R210): every piece of state takes its value of R49. It is also the only return from a fault (R192). The
parameters are the instance's, and the pins of the coming cycles are the outside world's. -/
def resetEdge (s : State) : State := { State.resetWith s.params with inputs := s.inputs }

end Sys2Proof.Machine
end

