-- ==== Sys2Proof/Machine/Colour.lean ====
section
/-!
DEFINITION. The colour cursor (R44) and `CNEXT` (R170).
-/

namespace Sys2Proof.Machine

/-- The cursor advanced by one request, wrapping at `K` by the explicit test of R170. -/
def nextColour (k : Nat) (c : BitVec 8) : BitVec 8 := if c.toNat = k - 1 then 0 else c + 1

/-- `CNEXT` (R170). -/
def execCnext (s : State) : Result := accept s fun s => .next { s with csel := nextColour s.params.k s.csel }

end Sys2Proof.Machine
end

