-- ==== Sys2Proof/Machine/Flush.lean ====
section
/-!
DEFINITION. `FLUSH` and the serializer at the cycle level (R111 to R120), and the symbols, bits and levels of a whole frame
in closed form (R54, R55, R110, R113, R115).
-/

namespace Sys2Proof.Machine

/-! ### The pulse code -/

/-- `sym(1) = L`, `sym(0) = S` (R111). -/
def sym (b : Bool) : Symbol := if b then .L else .S

/-- `H(b)`, the cycles of the high phase (R112). -/
def highCycles (p : Params) (b : Bool) : Nat := if b then p.t1h else p.t0h

/-- `Lo(b)`, the cycles of the low phase (R112). -/
def lowCycles (p : Params) (b : Bool) : Nat := if b then p.t1l else p.t0l

/-- `slot(b) = H(b) + Lo(b)` (R112). -/
def slot (p : Params) (b : Bool) : Nat := highCycles p b + lowCycles p b

/-- The bits of a byte on the line, bit 7 first (R55). -/
def byteBits (v : Byte) : List Bool := [7, 6, 5, 4, 3, 2, 1, 0].map fun j => v.getLsbD j

/-- The bit sequence `b_0 .. b_(24N-1)` of the frame: bytes in ascending offset (R54), bit 7 first (R55). -/
def frameBits (s : State) : List Bool := (List.range (3 * s.params.n)).flatMap fun a => byteBits (s.frame.read a)

/-- What a whole flush of the frame emits (R110). -/
def flushSymbols (s : State) : List Symbol := (frameBits s).map sym

/-- The levels of one pulse on `dout`, cycle by cycle (R112). -/
def pulseLevels (p : Params) (b : Bool) : List Bool :=
  List.replicate (highCycles p b) true ++ List.replicate (lowCycles p b) false

/-- The waveform of a whole flush in closed form (R115): the pulses of the frame's bits, adjacent. -/
def flushLevels (s : State) : List Bool := (frameBits s).flatMap (pulseLevels s.params)

/-- `O_end`, the cycles of a whole flush (R115, R118). -/
def flushCycles (s : State) : Nat := ((frameBits s).map (slot s.params)).sum

/-- The duration of a flush, `O_end * T_CLK`, in picoseconds (R126). No step depends on it. -/
def flushTime (s : State) : Nat := flushCycles s * s.params.tClk

/-! ### The serializer's edges -/

/-- The high phase of the pulse of the bit `(a, j)`, whose value is `b`, begins (R116, R117). -/
def startPulse (a : BitVec 18) (j : BitVec 3) (gap : Nat) (b : Bool) (s : State) : State :=
  emit (sym b) { s with ser :=
    { phase := .high, bytePtr := a, bitPtr := j, cyc := highCycles s.params b - 1, gapcnt := gap, dout := true } }

/-- Send the bit `(a, j)` next; a bit of no frame byte is the model's stop (R14, log 9). -/
def sendBit (a : BitVec 18) (j : BitVec 3) (gap : Nat) (s : State) : Result :=
  match frameBit? s a.toNat j.toNat with
  | some b => .next (startPulse a j gap b s)
  | none => .fault .frameOffsetOutOfRange

/-- `FLUSH` at the edge that accepts it (R116): the first pulse begins, and the serializer sends the rest (R117). The whole
of it as one step is `flushWhole` in Machine/Event.lean (R110). -/
def execFlush (s : State) : Result := accept s fun s => sendBit 0 7 0 s

/-- The edge in `IDLE` at which no `FLUSH` is accepted (R117): the gap count and, where it reaches `RESET_CYC`, `RST`. -/
def idleEdge (s : State) : State :=
  let s1 := { s with ser := { s.ser with dout := false } }
  if s.ser.gapcnt < s.params.resetCyc then
    let s2 := { s1 with ser := { s1.ser with gapcnt := s.ser.gapcnt + 1 } }
    if s.ser.gapcnt + 1 = s.params.resetCyc then emit .RST s2 else s2
  else s1

/-- One more cycle of the present phase has gone by (R117). -/
def countCycle (s : State) : State := { s with ser := { s.ser with cyc := s.ser.cyc - 1 } }

/-- The low phase of the present pulse, whose bit is `b`, begins (R117). -/
def startLow (b : Bool) (s : State) : State :=
  { s with ser := { s.ser with phase := .low, cyc := lowCycles s.params b - 1, dout := false } }

/-- The flush is over: the last pulse's low phase has ended (R117, R120). -/
def endFlush (s : State) : State :=
  { s with ser := { s.ser with phase := .idle, dout := false, gapcnt := 0 } }

/-- The edge in `HIGH` (R117). -/
def highEdge (s : State) : Result :=
  if s.ser.cyc ≠ 0 then .next (countCycle s)
  else match frameBit? s s.ser.bytePtr.toNat s.ser.bitPtr.toNat with
    | some b => .next (startLow b s)
    | none => .fault .frameOffsetOutOfRange

/-- The present bit is the last one of the frame (R117). -/
def atLastBit (s : State) : Bool := decide (s.ser.bytePtr.toNat = 3 * s.params.n - 1) && s.ser.bitPtr == 0

/-- The edge in `LOW` (R117). -/
def lowEdge (s : State) : Result :=
  if s.ser.cyc ≠ 0 then .next (countCycle s)
  else if atLastBit s then .next (endFlush s)
  else if s.ser.bitPtr = 0 then sendBit (s.ser.bytePtr + 1) 7 s.ser.gapcnt s
  else sendBit s.ser.bytePtr (s.ser.bitPtr - 1) s.ser.gapcnt s

/-- The serializer's update at an edge (R117). `before` is `SER_PHASE` before the edge; in `IDLE` a state that is no longer
idle is one in which this edge's command was a legal `FLUSH`, and R116 has been done. -/
def serializerEdge (before : SerPhase) (s : State) : Result :=
  match before with
  | .idle => .next (if s.ser.phase = .idle then idleEdge s else s)
  | .high => highEdge s
  | .low => lowEdge s

end Sys2Proof.Machine
end

