-- ==== Sys2Proof/Machine/Presence.lean ====
section
/-!
DEFINITION. The presence timer state machine (R140 to R148) and the host's two commands to it, `SETPRES` (R151) and
`RDSTAT` (R153).
-/

namespace Sys2Proof.Machine

/-- `SEC_MOD`: seconds per minute (R6). -/
def secMod : Nat := 60

/-- `MIN_MOD`: the modulus of the minutes counter (R6). -/
def minMod : Nat := 60

/-- The carry into `MINUTES`, wrapping at 60 (R141, R37). -/
def nextMinute (m : BitVec 6) : BitVec 6 := if m.toNat = minMod - 1 then 0 else m + 1

/-- The carry into `SECONDS` (R141, R36). -/
def nextSecond (q : Presence) : Presence :=
  if q.seconds.toNat = secMod - 1 then { q with seconds := 0, minutes := nextMinute q.minutes }
  else { q with seconds := q.seconds + 1 }

/-- The counted-tick update of `SUBTICK`, `SECONDS`, `MINUTES` (R142). -/
def countTick (p : Params) (q : Presence) : Presence :=
  if q.subtick.toNat = p.tps - 1 then nextSecond { q with subtick := 0 } else { q with subtick := q.subtick + 1 }

/-- A tick with `PFLAG = 1` (R141). -/
def presentTick (p : Params) (q : Presence) : Presence := countTick p { q with mode := .present, grace := 0 }

/-- A tick with `PFLAG = 0` while a session is in progress (R141, R144, R145). -/
def graceTick (p : Params) (q : Presence) : Presence :=
  if p.graceTicks ≤ q.grace.toNat + 1 then .reset else { q with mode := .grace, grace := q.grace + 1 }

/-- The transition function `Tick` (R141). It is total on the states of R48; on others a counter that has passed its top
value goes on by one in its register's width (log 12). -/
def tickPresence (p : Params) (pflag : Bool) (q : Presence) : Presence :=
  if pflag then presentTick p q
  else match q.mode with
    | .absent => q
    | .present => graceTick p q
    | .grace => graceTick p q

/-- `SETPRES v` (R151): `PFLAG <- v`. -/
def execSetpres (v : Bool) (s : State) : Result := accept s fun s => .next { s with pflag := v }

/-- `RDSTAT sel` (R153). -/
def execRdstat (sel : Selector) (s : State) : Result := accept s fun s => .next (respond (statusWord s sel) s)

end Sys2Proof.Machine
end

