-- ==== Sys2Proof/Machine/Strip.lean ====
section
/-!
DEFINITION. The frame commands `NOP`, `SET`, `SETALL`, `CLR`, `CLRALL`, `GET` (R90 to R97). Each is the effect of the
command when it is accepted; with `cmd_ready = 0` nothing happens (R71).
-/

namespace Sys2Proof.Machine

/-- `NOP` (R91): nothing, no state changes. -/
def execNop (s : State) : Result := accept s fun s => .next s

/-- `SET idx, r, g, b` (R93). -/
def execSet (idx : LedIndex) (r g b : Byte) (s : State) : Result :=
  accept s fun s => boundChecked (.set idx r g b) idx s fun s => .next (storeLED idx.toNat r g b s)

/-- `SETALL r, g, b` (R94). -/
def execSetall (r g b : Byte) (s : State) : Result := accept s fun s => .next (storeAllLEDs r g b s)

/-- `CLR idx` (R95): that of `SET idx, 0, 0, 0`, with the `CLR` word in `FINFO` on a fault. -/
def execClr (idx : LedIndex) (s : State) : Result :=
  accept s fun s => boundChecked (.clr idx) idx s fun s => .next (storeLED idx.toNat 0 0 0 s)

/-- `CLRALL` (R96): that of `SETALL 0, 0, 0`. -/
def execClrall (s : State) : Result := accept s fun s => .next (storeAllLEDs 0 0 0 s)

/-- `GET idx` (R97). -/
def execGet (idx : LedIndex) (s : State) : Result :=
  accept s fun s => boundChecked (.get idx) idx s fun s =>
    .next (respond (colourWord (loadLED idx.toNat s).1 (loadLED idx.toNat s).2.1 (loadLED idx.toNat s).2.2) s)

end Sys2Proof.Machine
end

