-- ==== Sys2Proof/Machine/Dispatch.lean ====
section
/-! DEFINITION. One arm per command: its effect at the edge that accepts it (R90). -/

namespace Sys2Proof.Machine

def exec (i : Instr) (s : State) : Host.Outcome State Fault Refusal :=
  match i with
  | .nop => Sys2Proof.Machine.execNop s
  | .set idx r g b => Sys2Proof.Machine.execSet idx r g b s
  | .setall r g b => Sys2Proof.Machine.execSetall r g b s
  | .clr idx => Sys2Proof.Machine.execClr idx s
  | .clrall => Sys2Proof.Machine.execClrall s
  | .flush => Sys2Proof.Machine.execFlush s
  | .get idx => Sys2Proof.Machine.execGet idx s
  | .setpres v => Sys2Proof.Machine.execSetpres v s
  | .rdstat sel => Sys2Proof.Machine.execRdstat sel s
  | .cnext => Sys2Proof.Machine.execCnext s

end Sys2Proof.Machine
end

