-- ==== Sys2Proof/Machine/Edge.lean ====
section
/-!
DEFINITION. One rising clock edge (R70, R71, R188): reset first, else the accepted command, the serializer and the tick
together, each reading the state from before the edge.
-/

namespace Sys2Proof.Machine

/-- An accepted word executes (R90): decode, `ILLEGAL_CMD` for an illegal word (R79, R181), else the command. -/
def executeWord (w : CmdWord) (s : State) : Result :=
  match decode w with
  | .ok i => exec i s
  | .error _ => raise .illegalCmd w s

/-- The command port (R71): a word is presented, and is accepted where `cmd_ready = 1`. -/
def presentWord (w : CmdWord) (s : State) : Result := accept s (executeWord w)

/-- The tick of an edge (R140, R188): it reads the presence registers and `PFLAG` of the state `before` the edge, and writes
the presence registers, which no command and no serializer edge writes (R195). -/
def tickAt (before : State) (s : State) : State :=
  { s with pres := tickPresence before.params before.pflag before.pres }

/-- One rising edge of `clk` with the pin levels `p` (R188). -/
def clockEdge (p : Pins) (s : State) : Result :=
  if p.rst then .next (resetEdge s)
  else
    andThen (if p.cmdValid then presentWord p.cmd (clearStrobe s) else .next (clearStrobe s)) fun s1 =>
    andThen (serializerEdge s.ser.phase s1) fun s2 =>
    .next (if p.tick then tickAt s s2 else s2)

/-- The clock edges of a list of cycles, the first one first, stopping at a stop. -/
def clockEdges : List Pins → State → Result
  | [], s => .next s
  | p :: ps, s => andThen (clockEdge p s) (clockEdges ps)

/-- The pins of the next cycle: the first of `inputs`, idle levels where nothing is listed (log 4). -/
def nextPins (s : State) : Pins :=
  match s.inputs with
  | [] => .idle
  | p :: _ => p

/-- The outside world has moved on to the cycle after. -/
def dropPins (s : State) : State := { s with inputs := s.inputs.tail }

/-- One clock edge with the pins the outside world drives. -/
def clock (s : State) : Result := clockEdge (nextPins s) (dropPins s)

/-- The word `w` on the command port in the next cycle, no reset and no tick there (log 5). -/
def presentNext (w : CmdWord) (s : State) : State := { s with inputs := Pins.present w :: s.inputs }

end Sys2Proof.Machine
end

