-- ==== Sys2Proof/Machine/Step.lean ====
section
/-!
DEFINITION. The step of the machine: one rising edge of the block's clock.
-/

namespace Sys2Proof.Machine

/-- One step: one rising clock edge with the pins `State.inputs` gives for this cycle (R70, R117, R188). -/
def step (s : State) : Host.Outcome State Fault Refusal := clock s

/-- The command word `w` presented on the port in the next cycle, so that the next step accepts and runs it where
`cmd_ready = 1`. Commands come from outside the block and are not stored in it (R66, log 5). -/
def State.withFetchWord (s : State) (_nbits w : Nat) : State := presentNext (BitVec.ofNat 48 w) s

end Sys2Proof.Machine
end

