-- ==== Sys2Proof/Machine/Event.lean ====
section
/-!
DEFINITION. The event level (R9, R83): each command, each tick, the step `LATCH` and a reset is one atomic step of the same
State. An event-level state has no flush in progress; after a whole `FLUSH` the serializer's registers are those a finished
flush leaves (log 14). `eventView` and `eventsOfEdge` relate the two levels as R124 does.
-/

namespace Sys2Proof.Machine

/-- The steps of the event level (R10, R83). -/
inductive Event
  /-- The host issues the command word (R71, R90). -/
  | cmd (w : CmdWord)
  /-- A tick (R140). -/
  | tick
  /-- The line has stayed low for the latch interval (R121). -/
  | latch
  /-- A reset (R210). -/
  | reset
  deriving DecidableEq, Repr

/-- `FLUSH` as one step (R110): the whole frame is emitted, `LATCHED <- 0`, the frame is unchanged. -/
def flushWhole (s : State) : State :=
  { s with
    trace := s.trace ++ flushSymbols s
    ser := { phase := .idle, bytePtr := BitVec.ofNat 18 (3 * s.params.n - 1), bitPtr := 0, cyc := 0, gapcnt := 0,
             dout := false } }

/-- An accepted word at the event level: `FLUSH` is one step (R110), every other word is as at an edge (R90). -/
def executeWordWhole (w : CmdWord) (s : State) : Result :=
  if decode w = .ok .flush then .next (flushWhole s) else executeWord w s

/-- `LATCH` (R121): `LATCHED <- 1; emit(RST)`, nothing else. -/
def latchStep (s : State) : State := emit .RST { s with ser := { s.ser with gapcnt := s.params.resetCyc } }

/-- `LATCH` is enabled in a state with `LATCHED = 0` (R121) and, as the event level has no other, no flush in progress. -/
def latchEnabled (s : State) : Bool := !s.latched && s.ser.phase == .idle

/-- One event-level step. A command is no step where `cmd_ready = 0`, that is after a fault (R15, R71, log 7). After a
command's step `RSP_VALID` says whether it answered; `RSP` holds the answer (log 21). -/
def eventStep (e : Event) (s : State) : Result :=
  match e with
  | .cmd w => if s.cmdReady then executeWordWhole w (clearStrobe s) else .refused .commandNotReady
  | .tick => .next (tickAt s s)
  | .latch => if latchEnabled s then .next (latchStep s) else .refused .latchNotEnabled
  | .reset => .next (resetEdge s)

/-- A script of event-level steps, in order (R83). -/
def eventSteps : List Event → State → Result
  | [], s => .next s
  | e :: es, s => andThen (eventStep e s) (eventSteps es)

/-! ### The agreement of the two levels (R124) -/

/-- The index, in the frame's bit sequence, of the bit the serializer is sending (R113). -/
def bitIndex (s : State) : Nat := 8 * s.ser.bytePtr.toNat + (7 - s.ser.bitPtr.toNat)

/-- The symbols a flush in progress has still to emit. -/
def unsentSymbols (s : State) : List Symbol := if s.busy then (flushSymbols s).drop (bitIndex s + 1) else []

/-- What the event level sees of a state (R124): a flush in progress counts as done. -/
structure EventView where
  params : Params
  frame : Memory
  pres : Presence
  pflag : Bool
  csel : BitVec 8
  fault : FaultCause
  finfo : CmdWord
  rsp : RspWord
  latched : Bool
  trace : List Symbol
  deriving DecidableEq, Repr

/-- The event-level view of a state (R124). -/
def eventView (s : State) : EventView where
  params := s.params
  frame := s.frame
  pres := s.pres
  pflag := s.pflag
  csel := s.csel
  fault := s.fault
  finfo := s.finfo
  rsp := s.rsp
  latched := s.latched
  trace := s.trace ++ unsentSymbols s

/-- The word is a legal `RDSTAT`. -/
def isRdstat (w : CmdWord) : Bool :=
  match decode w with
  | .ok (.rdstat _) => true
  | _ => false

/-- A command is accepted at the edge (R71). -/
def accepts (p : Pins) (s : State) : Bool := p.cmdValid && s.cmdReady && !p.rst

/-- A legal `FLUSH` is accepted at the edge (R116). -/
def startsFlush (p : Pins) (s : State) : Bool := accepts p s && decide (decode p.cmd = .ok .flush)

/-- `GAPCNT` reaches `RESET_CYC` at the edge, which is the event-level step `LATCH` (R121). -/
def reachesGap (p : Pins) (s : State) : Bool :=
  s.ser.phase == .idle && !startsFlush p s && s.ser.gapcnt + 1 == s.params.resetCyc

/-- The event-level steps an edge stands for (R124), in the order of R188 (3): a tick before the command, but after an
`RDSTAT`; then `LATCH`. -/
def eventsOfEdge (p : Pins) (s : State) : List Event :=
  if p.rst then [.reset]
  else
    let c := if accepts p s then [.cmd p.cmd] else []
    let t := if p.tick then [.tick] else []
    (if isRdstat p.cmd then c ++ t else t ++ c) ++ (if reachesGap p s then [.latch] else [])

/-- The event-level steps of the edges of a list of cycles. -/
def eventsOfEdges : List Pins → State → List Event
  | [], _ => []
  | p :: ps, s =>
    eventsOfEdge p s ++
      (match nextState? (clockEdge p s) with
        | some t => eventsOfEdges ps t
        | none => [])

end Sys2Proof.Machine
end

