-- ==== Sys2Proof/Machine/Script.lean ====
section
/-!
DEFINITION. The assembler of R81 and R82 and the scripts of R83: lines of text, the commands and pseudo-instructions they
spell, the refusal of an operand that does not fit its field, and a script item as event-level steps or as clock cycles.
-/

namespace Sys2Proof.Machine

/-- Why the assembler refuses a line (R81). -/
inductive AsmError
  /-- The first word is no mnemonic, pseudo-instruction or event. -/
  | unknownMnemonic
  /-- The mnemonic takes another number of operands. -/
  | operandCount
  /-- An operand is no number (or selector name). -/
  | notANumber
  /-- An operand does not fit its field. -/
  | doesNotFit
  /-- `WAIT` in an event-level script (R83: "cycle level only"). -/
  | cycleLevelOnly
  deriving DecidableEq, Repr

/-- A command line (R81) or pseudo-instruction (R82), its operands still plain numbers. -/
inductive AsmCommand
  | nop
  | set (idx r g b : Nat)
  | setall (r g b : Nat)
  | clr (idx : Nat)
  | clrall
  | flush
  | get (idx : Nat)
  | setpres (v : Nat)
  | rdstat (sel : Nat)
  | cnext
  /-- `PRESENT` is `SETPRES 1` (R82). -/
  | present
  /-- `ABSENT` is `SETPRES 0` (R82). -/
  | absent
  /-- `SETRGB idx, 0xRRGGBB` is `SET idx, 0xRR, 0xGG, 0xBB` (R82). -/
  | setrgb (idx rgb : Nat)
  deriving DecidableEq, Repr

/-- A script item (R83): a command or an environment event. -/
inductive ScriptItem
  | command (c : AsmCommand)
  /-- `TICK n`. -/
  | tick (n : Nat)
  | latch
  | reset
  /-- `WAIT c`, cycle level only. -/
  | wait (c : Nat)
  deriving DecidableEq, Repr

/-- Every operand fits its field (R81). -/
def AsmCommand.fits : AsmCommand → Bool
  | .nop => true
  | .set idx r g b => decide (idx < 65536 ∧ r < 256 ∧ g < 256 ∧ b < 256)
  | .setall r g b => decide (r < 256 ∧ g < 256 ∧ b < 256)
  | .clr idx => decide (idx < 65536)
  | .clrall => true
  | .flush => true
  | .get idx => decide (idx < 65536)
  | .setpres v => decide (v < 2)
  | .rdstat sel => decide (sel < 8)
  | .cnext => true
  | .present => true
  | .absent => true
  | .setrgb idx rgb => decide (idx < 65536 ∧ rgb < 16777216)

/-- The command an assembler line spells, its operands taken as they are (R81, R82). -/
def AsmCommand.expand : AsmCommand → Instr
  | .nop => .nop
  | .set idx r g b => .set (BitVec.ofNat 16 idx) (BitVec.ofNat 8 r) (BitVec.ofNat 8 g) (BitVec.ofNat 8 b)
  | .setall r g b => .setall (BitVec.ofNat 8 r) (BitVec.ofNat 8 g) (BitVec.ofNat 8 b)
  | .clr idx => .clr (BitVec.ofNat 16 idx)
  | .clrall => .clrall
  | .flush => .flush
  | .get idx => .get (BitVec.ofNat 16 idx)
  | .setpres v => .setpres (v == 1)
  | .rdstat sel => .rdstat (selectorOf (BitVec.ofNat 3 sel))
  | .cnext => .cnext
  | .present => .setpres true
  | .absent => .setpres false
  | .setrgb idx rgb =>
    .set (BitVec.ofNat 16 idx) (BitVec.ofNat 8 (rgb / 65536)) (BitVec.ofNat 8 (rgb / 256 % 256)) (BitVec.ofNat 8 (rgb % 256))

/-- The assembler refuses, and does not truncate, an operand that does not fit its field (R81). -/
def assemble (c : AsmCommand) : Except AsmError Instr := if c.fits then .ok c.expand else .error .doesNotFit

/-- A script item as event-level steps (R83). -/
def ScriptItem.events : ScriptItem → Except AsmError (List Event)
  | .command c => (assemble c).map fun i => [.cmd (encode i)]
  | .tick n => .ok (List.replicate n .tick)
  | .latch => .ok [.latch]
  | .reset => .ok [.reset]
  | .wait _ => .error .cycleLevelOnly

/-- The cycles a flush in progress still takes (R112, R118): the rest of the present pulse, then the pulses of the bits not
yet sent; none where the serializer is idle. -/
def busyCycles (s : State) : Nat :=
  let later := (((frameBits s).drop (bitIndex s + 1)).map (slot s.params)).sum
  match s.ser.phase with
  | .idle => 0
  | .high =>
    s.ser.cyc + 1 + lowCycles s.params ((s.frame.read s.ser.bytePtr.toNat).getLsbD s.ser.bitPtr.toNat) + later
  | .low => s.ser.cyc + 1 + later

/-- A script item as clock cycles from a state (R83). The host holds a command's word on the port through a flush in progress,
until it is accepted (R71). DESIGN CHOICE, log 28, where R83 leaves the cycles open: a faulted block, which never accepts the
word, is shown it for one cycle, and then the host withdraws it; the ticks of `TICK n` stand in `n` consecutive cycles; `LATCH`
is exactly `RESET_CYC` idle cycles after the flush in progress, if there is one. -/
def ScriptItem.cycles (s : State) : ScriptItem → Except AsmError (List Pins)
  | .command c => (assemble c).map fun i => List.replicate (busyCycles s + 1) (.present (encode i))
  | .tick n => .ok (List.replicate n { Pins.idle with tick := true })
  | .latch => .ok (List.replicate (busyCycles s + s.params.resetCyc) .idle)
  | .reset => .ok [{ Pins.idle with rst := true }]
  | .wait c => .ok (List.replicate c .idle)

/-- A script at the cycle level, one item after another. -/
def scriptEdges : List ScriptItem → State → Except AsmError Result
  | [], s => .ok (.next s)
  | x :: xs, s =>
    match x.cycles s with
    | .error e => .error e
    | .ok ps =>
      match clockEdges ps s with
      | .next t => scriptEdges xs t
      | .fault r => .ok (.fault r)
      | .refused r => .ok (.refused r)

/-- A script at the event level, as the steps it stands for. -/
def scriptEvents : List ScriptItem → Except AsmError (List Event)
  | [] => .ok []
  | x :: xs =>
    match x.events, scriptEvents xs with
    | .error e, _ => .error e
    | .ok _, .error e => .error e
    | .ok es, .ok rest => .ok (es ++ rest)

/-! ### Lines of text (R81) -/

/-- A `;` starts a comment to the end of the line. -/
def withoutComment (line : List Char) : List Char := line.takeWhile (· != ';')

/-- Blanks at both ends removed (log 24). -/
def trimBlanks (cs : List Char) : List Char := ((cs.dropWhile (· == ' ')).reverse.dropWhile (· == ' ')).reverse

/-- A digit of a number, decimal or hexadecimal. -/
def digitValue (c : Char) : Option Nat :=
  if '0'.toNat ≤ c.toNat ∧ c.toNat ≤ '9'.toNat then some (c.toNat - '0'.toNat)
  else if 'A'.toNat ≤ c.toNat ∧ c.toNat ≤ 'F'.toNat then some (c.toNat - 'A'.toNat + 10)
  else if 'a'.toNat ≤ c.toNat ∧ c.toNat ≤ 'f'.toNat then some (c.toNat - 'a'.toNat + 10)
  else none

/-- The digits after those that gave `acc`, in a base. -/
def digitsValue (base : Nat) : List Char → Nat → Option Nat
  | [], acc => some acc
  | c :: cs, acc =>
    match digitValue c with
    | some d => if d < base then digitsValue base cs (base * acc + d) else none
    | none => none

/-- A number: decimal, or hexadecimal with the prefix `0x` (R81). -/
def parseNumber (cs : List Char) : Except AsmError Nat :=
  let v := match cs with
    | [] => none
    | ['0', 'x'] => none
    | '0' :: 'x' :: hex => digitsValue 16 hex 0
    | dec => digitsValue 10 dec 0
  match v with
  | some n => .ok n
  | none => .error .notANumber

/-- The names of the selectors (R81). -/
def selectorNames : List (List Char) :=
  ["STATE", "SUBTICK", "SECONDS", "MINUTES", "GRACE", "PFLAG", "CSEL", "LATCHED"].map String.toList

/-- The operand of `RDSTAT`: a number or a name (R81). -/
def parseSelector (cs : List Char) : Except AsmError Nat :=
  if selectorNames.contains cs then .ok (selectorNames.idxOf cs) else parseNumber cs

/-- The operands, separated by commas; none where the rest of the line is blank. -/
def splitOperands (rest : List Char) : List (List Char) :=
  if trimBlanks rest = [] then [] else (rest.splitOn ',').map trimBlanks

/-- The item a mnemonic and its operands spell (R81 to R83). -/
def parseItem (mnemonic : String) (ops : List (List Char)) : Except AsmError ScriptItem :=
  match mnemonic, ops with
  | "NOP", [] => .ok (.command .nop)
  | "SET", [i, r, g, b] => do
    return .command (.set (← parseNumber i) (← parseNumber r) (← parseNumber g) (← parseNumber b))
  | "SETALL", [r, g, b] => do return .command (.setall (← parseNumber r) (← parseNumber g) (← parseNumber b))
  | "CLR", [i] => do return .command (.clr (← parseNumber i))
  | "CLRALL", [] => .ok (.command .clrall)
  | "FLUSH", [] => .ok (.command .flush)
  | "GET", [i] => do return .command (.get (← parseNumber i))
  | "SETPRES", [v] => do return .command (.setpres (← parseNumber v))
  | "RDSTAT", [x] => do return .command (.rdstat (← parseSelector x))
  | "CNEXT", [] => .ok (.command .cnext)
  | "PRESENT", [] => .ok (.command .present)
  | "ABSENT", [] => .ok (.command .absent)
  | "SETRGB", [i, c] => do return .command (.setrgb (← parseNumber i) (← parseNumber c))
  | "TICK", [] => .ok (.tick 1)
  | "TICK", [n] => do return .tick (← parseNumber n)
  | "LATCH", [] => .ok .latch
  | "RESET", [] => .ok .reset
  | "WAIT", [c] => do return .wait (← parseNumber c)
  | m, _ =>
    if ["NOP", "SET", "SETALL", "CLR", "CLRALL", "FLUSH", "GET", "SETPRES", "RDSTAT", "CNEXT", "PRESENT", "ABSENT", "SETRGB",
        "TICK", "LATCH", "RESET", "WAIT"].contains m then .error .operandCount
    else .error .unknownMnemonic

/-- One line of a script (R81): nothing for a blank or comment line. -/
def parseLine (line : String) : Except AsmError (Option ScriptItem) :=
  match trimBlanks (withoutComment line.toList) with
  | [] => .ok none
  | text => do
    let m := text.takeWhile (· != ' ')
    return some (← parseItem (String.ofList m) (splitOperands (text.drop m.length)))

end Sys2Proof.Machine
end

