-- ==== Sys2Proof/Safety.lean ====
section
/-!
DEFINITION. What a legal state of the block is (R48), what its trace satisfies (R114, R121, R217), when a claim about what
the strip shows may be made (93_implementation_defined.md U2), and what a run without a fault is (R191).
-/

namespace Sys2Proof.Machine

/-! ### The invariant (R48) -/

/-- I10 and the canonical form: the frame lists only offsets below `3*N`. -/
abbrev FrameOk (p : Params) (m : Memory) : Prop := m.wf = true ∧ ∀ c ∈ m, c.1 < 3 * p.n

/-- I2 to I5. -/
abbrev PresenceOk (p : Params) (q : Presence) : Prop :=
  (q.mode = .absent → q = .reset) ∧ (q.mode = .present → q.grace = 0) ∧ (q.mode = .grace → 1 ≤ q.grace.toNat) ∧
    q.subtick.toNat < p.tps ∧ q.seconds.toNat < 60 ∧ q.minutes.toNat < 60 ∧ q.grace.toNat < p.graceTicks

/-- I7 and I8, with R47 (`DOUT` is 1 exactly in a high phase), R32 (`CYC`) and R33 (`GAPCNT`: saturates at `RESET_CYC`,
0 during a flush). -/
abbrev SerializerOk (p : Params) (x : Serializer) : Prop :=
  (x.dout = true ↔ x.phase = .high) ∧ (x.phase ≠ .idle → x.bytePtr.toNat < 3 * p.n ∧ x.gapcnt = 0) ∧
    x.cyc < longestPhase p ∧ x.gapcnt ≤ p.resetCyc

/-- I9, with R46 and R190: `FINFO` is written with `FAULT` only, and a fault is raised only with the serializer idle. -/
abbrev FaultOk (s : State) : Prop :=
  (s.fault = .clear → s.finfo = 0) ∧ (s.fault ≠ .clear → s.ser.phase = .idle)

/-- The invariant of R48, with the constraints of R8 on the parameters. I6 is its fifth clause. -/
abbrev State.Inv (s : State) : Prop :=
  s.params.ok ∧ FrameOk s.params s.frame ∧ PresenceOk s.params s.pres ∧ SerializerOk s.params s.ser ∧
    s.csel.toNat < s.params.k ∧ FaultOk s

/-! ### The trace -/

/-- No two `RST` next to each other: "At most one `RST` is emitted between two flushes" (R121). -/
def noTwoRst : List Symbol → Bool
  | [] => true
  | y :: t => !(y == .RST && t.head? == some .RST) && noTwoRst t

/-- The trace ends in `RST` exactly where `LATCHED = 1` (R33, R121), and never has two in a row. -/
abbrev State.TraceOk (s : State) : Prop :=
  noTwoRst s.trace = true ∧ (s.trace.getLast? = some .RST ↔ s.latched = true)

/-- The number of pulses in a trace. -/
def pulseCount (t : List Symbol) : Nat := t.countP (· != .RST)

/-- R114: whole frames of `24*N` pulses when idle; while a flush runs, the pulses sent so far are those up to its bit. -/
abbrev State.PulsesOk (s : State) : Prop :=
  if s.ser.phase = .idle then pulseCount s.trace % (24 * s.params.n) = 0
  else pulseCount s.trace % (24 * s.params.n) = (bitIndex s + 1) % (24 * s.params.n)

/-- Each pulse that begins a frame of `len` pulses comes right after an `RST` (R217). `sent` pulses went before, and `gap`
says that the symbol before was `RST`. -/
def framesAfterGap (len : Nat) : Nat → Bool → List Symbol → Bool
  | _, _, [] => true
  | sent, gap, y :: t =>
    if y = .RST then framesAfterGap len sent true t
    else (gap || sent % len != 0) && framesAfterGap len (sent + 1) false t

/-- The trace has an `RST` between any two frames and before the first (R217). -/
abbrev State.GapsKept (s : State) : Prop := framesAfterGap (24 * s.params.n) 0 false s.trace = true

/-- The host's duty at an edge (R217): a `FLUSH` is issued only when `LATCHED = 1`. -/
abbrev KeepsGap (p : Pins) (s : State) : Prop := startsFlush p s = true → s.latched = true

/-- U2: a claim about what the strip displays after the frame `f` may be made only where the trace has an `RST` right before
its first symbol and an `RST` after its last with no symbol in between (log 19). -/
abbrev DisplayClaimAllowed (t f : List Symbol) : Prop :=
  Symbol.RST ∉ f ∧ ∃ before after, t = before ++ .RST :: (f ++ .RST :: after)

/-! ### Safe runs -/

/-- R191: a state a claim may be about. -/
abbrev State.Unfaulted (s : State) : Prop := s.fault = .clear

/-- The machine runs on from a state: the step answers a next state, no stop of the model's. -/
abbrev State.RunsOn (s : State) : Prop := ∃ t, clock s = .next t

end Sys2Proof.Machine
end

