-- ==== Sys2Proof/Certificates/Slice0/Obligations.lean ====
section
/-!
DEFINITION. The statements for the provers. "Spec decision D<n>" marks what a rule rests on in spec/92_eei_decisions.md, and
"spec inference" a rule the spec marks as derived; "log <n>" is a row of notes/assumptions.
-/

namespace Sys2Proof.Machine

/-! ### Words the statements use -/

/-- The commands of a list, one after another. -/
def execAll : List Instr → State → Result
  | [], s => .next s
  | i :: is, s => andThen (exec i s) (execAll is)

/-- The three bytes of an LED (R51). -/
abbrev tripleAt (m : Memory) (led : Nat) : Byte × Byte × Byte :=
  (m.read (3 * led), m.read (3 * led + 1), m.read (3 * led + 2))

/-- The word a command writes over the frame (R93 to R96), LED by LED: the colour the last write that covers it gives. -/
def lastColour (led : Nat) : List Instr → Option (Byte × Byte × Byte)
  | [] => none
  | i :: is =>
    match lastColour led is with
    | some c => some c
    | none =>
      match i with
      | .set idx r g b => if idx.toNat = led then some (r, g, b) else none
      | .setall r g b => some (r, g, b)
      | .clr idx => if idx.toNat = led then some (0, 0, 0) else none
      | .clrall => some (0, 0, 0)
      | .nop => none
      | .flush => none
      | .get _ => none
      | .setpres _ => none
      | .rdstat _ => none
      | .cnext => none

/-- The command writes the frame (R22). -/
abbrev WritesFrame (i : Instr) : Prop :=
  (∃ idx r g b, i = .set idx r g b) ∨ (∃ r g b, i = .setall r g b) ∨ (∃ idx, i = .clr idx) ∨ i = .clrall

/-- The command has an index `idx` to check (R92). -/
abbrev HasIndex (i : Instr) (idx : LedIndex) : Prop := (∃ r g b, i = .set idx r g b) ∨ i = .clr idx ∨ i = .get idx

/-- The edge accepts a word that spells the command `i` (R71, R76). -/
abbrev AcceptsCommand (p : Pins) (s : State) (i : Instr) : Prop := accepts p s = true ∧ decode p.cmd = .ok i

/-- `O_j`, the cycles of the first `j` pulses of a flush (R115). -/
abbrev pulseOffset (s : State) (j : Nat) : Nat := (((frameBits s).take j).map (slot s.params)).sum

/-- A session in the document's words (R150, R161, R162): the counted ticks since it began, the consecutive absent ticks
since the last of them, and whether it is on. -/
structure Session where
  counted : Nat
  missed : Nat
  on : Bool
  deriving DecidableEq, Repr

/-- One tick of a session: a counted tick, an absent tick it survives, or the absent tick that ends it (R150, R162). -/
def sessionTick (threshold : Nat) (x : Session) (flag : Bool) : Session :=
  if flag then ⟨x.counted + 1, 0, true⟩
  else if x.on ∧ x.missed + 1 < threshold then ⟨x.counted, x.missed + 1, true⟩
  else ⟨0, 0, false⟩

/-- The script in which the host writes the flag and one tick follows, for each flag of a list. -/
def flagScript (flags : List Bool) : List Event := flags.flatMap fun f => [.cmd (encode (.setpres f)), .tick]

/-- An event-level run has time at the cycle level, one edge for each tick and command (R117, R124). `gap` is `GAPCNT`, and
`sending` the cycles in which a flush is still on the line: ticks right after it fall inside it and take no idle edge. Any
other tick or command takes an idle edge, which must not end the latch gap unless `LATCH` is the next step (R121). -/
def hasTime : List Event → (gap sending : Nat) → State → Bool
  | [], _, _, _ => true
  | e :: es, gap, sending, s =>
    let after := (nextState? (eventStep e s)).getD s
    let idles := (gap + 1 != s.params.resetCyc || es.head? == some .latch) &&
      hasTime es (min (gap + 1) s.params.resetCyc) 0 after
    match e with
    | .reset => hasTime es 0 0 after
    | .latch => hasTime es s.params.resetCyc 0 after
    | .tick => if sending = 0 then idles else hasTime es gap (sending - 1) after
    | .cmd w => if decode w = .ok .flush then hasTime es 0 (flushCycles s) after else idles

/-- `n` ticks of the presence unit with the flag held at `f`. -/
def holdFlag (p : Params) (f : Bool) : Nat → Presence → Presence
  | 0, q => q
  | k + 1, q => holdFlag p f k (tickPresence p f q)

/-- The presence registers after the ticks of a list of cycles, the flag held (R191). -/
def ticksOf (p : Params) (f : Bool) : List Pins → Presence → Presence
  | [], q => q
  | x :: xs, q => ticksOf p f xs (if x.tick then tickPresence p f q else q)

end Sys2Proof.Machine

open Sys2Proof Sys2Proof.Machine

/-! ### Encoding -/

/-- Words of 95_test_vectors.md section 2.1, written out bit by bit from the patterns of R75: each decodes to its command. -/
def Obligations.WordsDecodeAsWrittenOut : Prop :=
  decode 0b000000000000000000000000000000000000000000000000 = .ok .nop ∧
  decode 0b000000010000000000000001000100100011010001010110 = .ok (.set 1 0x12 0x34 0x56) ∧
  decode 0b000000100000000000000000111111110000000010000000 = .ok (.setall 0xFF 0 0x80) ∧
  decode 0b000000110000000000000010000000000000000000000000 = .ok (.clr 2) ∧
  decode 0b000001000000000000000000000000000000000000000000 = .ok .clrall ∧
  decode 0b000001010000000000000000000000000000000000000000 = .ok .flush ∧
  decode 0b000001100000000000000001000000000000000000000000 = .ok (.get 1) ∧
  decode 0b000001110000000000000000000000000000000000000001 = .ok (.setpres true) ∧
  decode 0b000010000000000000000000000000000000000000000010 = .ok (.rdstat .seconds) ∧
  decode 0b000010010000000000000000000000000000000000000000 = .ok .cnext

/-- No bit of an encoding is dropped: the word of every command, at every value of every operand, decodes to that command
(R75 to R78; spec decisions D4, D5). -/
def Obligations.DecodeEncodeGivesEveryInstr : Prop := ∀ i : Instr, decode (encode i) = .ok i

/-- Each word has one meaning: a legal word is the word of the command it decodes to (R74, R77; spec decision D4). -/
def Obligations.EncodeDecodeGivesTheWord : Prop := ∀ (w : CmdWord) (i : Instr), decode w = .ok i → encode i = w

/-- R74 (spec decisions D4, D6): a word decodes to a command exactly when `(w AND mask) = match` for that command's row of
the opcode table, and no word matches two rows. -/
def Obligations.LegalWordsMatchOneTableRow : Prop :=
  (∀ (w : CmdWord), (∃ i, decode w = .ok i) ↔ ∃ i, w &&& (opcodeRow i).mask = (opcodeRow i).pattern) ∧
  (∀ (w : CmdWord) (i j : Instr), decode w = .ok i → w &&& (opcodeRow j).mask = (opcodeRow j).pattern →
    opcodeRow i = opcodeRow j)

/-- R79 (spec decision D6): a word is illegal exactly when its `op` is in 0x0A .. 0xFF or a reserved bit of its format (R74)
is 1; the rule's six examples are illegal; an accepted illegal word raises `ILLEGAL_CMD` and changes nothing else. -/
def Obligations.IllegalWordsAreThoseOfR79 : Prop :=
  (∀ w : CmdWord, (∃ e, decode w = .error e) ↔
    (0x0A ≤ (w.extractLsb' 40 8).toNat ∨
      ((w.extractLsb' 40 8).toNat ∈ [0x00, 0x04, 0x05, 0x09] ∧ w.extractLsb' 0 40 ≠ 0) ∨
      ((w.extractLsb' 40 8).toNat ∈ [0x03, 0x06] ∧ w.extractLsb' 0 24 ≠ 0) ∨
      ((w.extractLsb' 40 8).toNat = 0x02 ∧ w.extractLsb' 24 16 ≠ 0) ∨
      ((w.extractLsb' 40 8).toNat = 0x07 ∧ w.extractLsb' 1 39 ≠ 0) ∨
      ((w.extractLsb' 40 8).toNat = 0x08 ∧ w.extractLsb' 3 37 ≠ 0))) ∧
  (∀ w ∈ [(0x0A0000000000 : CmdWord), 0x050000000001, 0x030002000001, 0x020001000000, 0x070000000002, 0x080000000008],
    ∃ e, decode w = .error e) ∧
  (∀ (s : State) (w : CmdWord) (e : IllegalWord), s.cmdReady = true → decode w = .error e →
    presentWord w s = .next { s with fault := .illegalCmd, finfo := w })

/-- R81, R82 (spec decision D28): of every command with operands, what the assembler accepts is not truncated and what does not
fit its field is refused (`idx` 16 bits, a colour 8, `v` 1, `sel` 3, `0xRRGGBB` 24); the commands without operands are always
accepted; the pseudo-instructions are the spellings R82 gives. -/
def Obligations.AssemblerNeverTruncates : Prop :=
  (∀ (idx r g b : Nat) (i : Instr), assemble (.set idx r g b) = .ok i →
    ∃ (x : LedIndex) (r' g' b' : Byte), i = .set x r' g' b' ∧ x.toNat = idx ∧ r'.toNat = r ∧ g'.toNat = g ∧
      b'.toNat = b) ∧
  (∀ idx r g b : Nat, 65536 ≤ idx ∨ 256 ≤ r ∨ 256 ≤ g ∨ 256 ≤ b → assemble (.set idx r g b) = .error .doesNotFit) ∧
  (∀ (r g b : Nat) (i : Instr), assemble (.setall r g b) = .ok i →
    ∃ r' g' b' : Byte, i = .setall r' g' b' ∧ r'.toNat = r ∧ g'.toNat = g ∧ b'.toNat = b) ∧
  (∀ r g b : Nat, 256 ≤ r ∨ 256 ≤ g ∨ 256 ≤ b → assemble (.setall r g b) = .error .doesNotFit) ∧
  (∀ (idx : Nat) (i : Instr), assemble (.clr idx) = .ok i → ∃ x : LedIndex, i = .clr x ∧ x.toNat = idx) ∧
  (∀ idx : Nat, 65536 ≤ idx → assemble (.clr idx) = .error .doesNotFit) ∧
  (∀ (idx : Nat) (i : Instr), assemble (.get idx) = .ok i → ∃ x : LedIndex, i = .get x ∧ x.toNat = idx) ∧
  (∀ idx : Nat, 65536 ≤ idx → assemble (.get idx) = .error .doesNotFit) ∧
  (∀ (v : Nat) (i : Instr), assemble (.setpres v) = .ok i → ∃ f : Bool, i = .setpres f ∧ f.toNat = v) ∧
  (∀ v : Nat, 2 ≤ v → assemble (.setpres v) = .error .doesNotFit) ∧
  (∀ (sel : Nat) (i : Instr), assemble (.rdstat sel) = .ok i →
    ∃ x : Selector, i = .rdstat x ∧ (selectorBits x).toNat = sel) ∧
  (∀ sel : Nat, 8 ≤ sel → assemble (.rdstat sel) = .error .doesNotFit) ∧
  (∀ (idx rgb : Nat) (i : Instr), assemble (.setrgb idx rgb) = .ok i →
    ∃ (x : LedIndex) (r' g' b' : Byte), i = .set x r' g' b' ∧ x.toNat = idx ∧
      65536 * r'.toNat + 256 * g'.toNat + b'.toNat = rgb) ∧
  (∀ idx rgb : Nat, 65536 ≤ idx ∨ 16777216 ≤ rgb → assemble (.setrgb idx rgb) = .error .doesNotFit) ∧
  (assemble .nop = .ok .nop ∧ assemble .clrall = .ok .clrall ∧ assemble .flush = .ok .flush ∧
    assemble .cnext = .ok .cnext) ∧
  (∀ idx r g b : Nat, r < 256 → g < 256 → b < 256 →
    assemble (.setrgb idx (65536 * r + 256 * g + b)) = assemble (.set idx r g b)) ∧
  assemble .present = assemble (.setpres 1) ∧ assemble .absent = assemble (.setpres 0)

/-! ### The step and the command port -/

/-- R71, R42, R117, R188 (spec decisions D1, D3, D29, D30): a step is one clock edge that runs the decoded command: where
the pins of this cycle present a word that spells `i`, no reset is at the pins and `cmd_ready = 1`, the step is `exec i`
(after `RSP_VALID <- 0`, R42), then the idle update of the serializer where no flush began (R117), then the tick of this
cycle on the pre-edge registers (R188). A word put on the port by `withFetchWord` is the one the next step runs (log 5). -/
def Obligations.StepRunsTheDecodedCommand : Prop :=
  (∀ (s : State) (p : Pins) (rest : List Pins) (i : Instr), s.inputs = p :: rest → p.rst = false → p.cmdValid = true →
    s.cmdReady = true → decode p.cmd = .ok i →
    step s = andThen (exec i (clearStrobe { s with inputs := rest })) fun t =>
      let u := if t.ser.phase = .idle then idleEdge t else t
      .next (if p.tick then { u with pres := tickPresence s.params s.pflag s.pres } else u)) ∧
  (∀ (s : State) (nbits w : Nat) (i : Instr), s.cmdReady = true → decode (BitVec.ofNat 48 w) = .ok i →
    step (s.withFetchWord nbits w) = andThen (exec i (clearStrobe s)) fun t =>
      .next (if t.ser.phase = .idle then idleEdge t else t))

/-- R71, R15 (spec decision D3, spec inference; log 7): a command presented while `cmd_ready = 0` is not accepted and has no
effect, neither at the port nor on the rest of the edge; at the event level such a step does not exist. -/
def Obligations.CommandNotReadyHasNoEffect : Prop :=
  ∀ s : State, s.cmdReady = false →
    (∀ i, exec i s = .next s) ∧ (∀ w, presentWord w s = .next s) ∧
    (∀ p : Pins, p.rst = false → clockEdge p s = clockEdge { p with cmdValid := false } s) ∧
    (∀ w, eventStep (.cmd w) s = .refused .commandNotReady)

/-- R42, R72 (spec decision D29): after an edge `RSP_VALID` is 1 exactly when the edge accepted an `RDSTAT` or a `GET` in
range; at every other edge without reset `RSP` keeps its value. -/
def Obligations.ResponseStrobeLastsOneCycle : Prop :=
  ∀ (s t : State) (p : Pins), p.rst = false → clockEdge p s = .next t →
    (t.rspValid = true ↔ (∃ x, AcceptsCommand p s (.rdstat x)) ∨
      (∃ idx : LedIndex, AcceptsCommand p s (.get idx) ∧ idx.toNat < s.params.n)) ∧
    (t.rspValid = false → t.rsp = s.rsp)

/-! ### The commands -/

/-- R91 (spec decision D34): `NOP` leaves every state as it is, ready or not; its word is all zeros. -/
def Obligations.NopLeavesTheState : Prop := (∀ s : State, exec .nop s = .next s) ∧ encode .nop = 0

/-- R93: the encoding of `SET`, its operation on an index in range with its frame, its corner cases, its fault and its
example. -/
def Obligations.SetWritesOneTriple : Prop :=
  (∀ w : CmdWord, w.extractLsb' 40 8 = 0x01 → decode w =
    .ok (.set (w.extractLsb' 24 16) (w.extractLsb' 16 8) (w.extractLsb' 8 8) (w.extractLsb' 0 8))) ∧
  (∀ (s : State) (idx : LedIndex) (r g b : Byte), s.cmdReady = true → s.frame.wf = true → idx.toNat < s.params.n →
    ∃ t, exec (.set idx r g b) s = .next t ∧ t = { s with frame := t.frame } ∧
      tripleAt t.frame idx.toNat = perm s.params.wireOrder r g b ∧
      (∀ a, a / 3 ≠ idx.toNat → t.frame.read a = s.frame.read a) ∧
      (tripleAt s.frame idx.toNat = perm s.params.wireOrder r g b → t = s) ∧
      (r = 0 → g = 0 → b = 0 → exec (.clr idx) s = .next t)) ∧
  (∀ (s : State) (idx : LedIndex) (r g b : Byte), s.cmdReady = true → s.params.n ≤ idx.toNat →
    exec (.set idx r g b) s =
      .next { s with fault := .indexRange, finfo := (0x01 : BitVec 8) ++ idx ++ r ++ g ++ b }) ∧
  exec (.set 1 0x12 0x34 0x56) (State.resetWith { Params.standard with n := 4, wireOrder := .grb }) =
    .next { State.resetWith { Params.standard with n := 4, wireOrder := .grb } with
      frame := [(3, 0x34), (4, 0x12), (5, 0x56)] }

/-- R94: the encoding of `SETALL`, its operation on every LED with its frame, its equality with the N commands `SET` in
ascending order, the reads that follow, its only fault and its example. -/
def Obligations.SetallWritesEveryTriple : Prop :=
  (∀ w : CmdWord, w.extractLsb' 40 8 = 0x02 → decode w =
    if w.extractLsb' 24 16 = 0 then .ok (.setall (w.extractLsb' 16 8) (w.extractLsb' 8 8) (w.extractLsb' 0 8))
    else .error .reservedBit) ∧
  (∀ (s : State) (w : CmdWord), s.cmdReady = true → w.extractLsb' 40 8 = 0x02 → w.extractLsb' 24 16 ≠ 0 →
    presentWord w s = .next { s with fault := .illegalCmd, finfo := w }) ∧
  (∀ (s : State) (r g b : Byte), s.Inv → s.cmdReady = true →
    ∃ t, exec (.setall r g b) s = .next t ∧ t = { s with frame := t.frame } ∧
      (∀ led, led < s.params.n → tripleAt t.frame led = perm s.params.wireOrder r g b) ∧
      (∀ a, 3 * s.params.n ≤ a → t.frame.read a = s.frame.read a) ∧
      execAll ((List.range s.params.n).map fun led => .set (BitVec.ofNat 16 led) r g b) s = .next t ∧
      (∀ idx : LedIndex, idx.toNat < s.params.n →
        ∃ u, exec (.get idx) t = .next u ∧ u.rspValid = true ∧ u.rsp = r ++ g ++ b)) ∧
  exec (.setall 0xFF 0x00 0x80) (State.resetWith { Params.standard with n := 2, wireOrder := .grb }) =
    .next { State.resetWith { Params.standard with n := 2, wireOrder := .grb } with
      frame := [(1, 0xFF), (2, 0x80), (4, 0xFF), (5, 0x80)] }

/-- R95: the encoding of `CLR`; its operation is exactly that of `SET idx, 0, 0, 0`, bound check included, with the `CLR` word
in `FINFO` on a fault; a reserved bit is `ILLEGAL_CMD` also where the index is out of range; its example. -/
def Obligations.ClrIsSetOfZero : Prop :=
  (∀ w : CmdWord, w.extractLsb' 40 8 = 0x03 → decode w =
    if w.extractLsb' 0 24 = 0 then .ok (.clr (w.extractLsb' 24 16)) else .error .reservedBit) ∧
  (∀ (s : State) (idx : LedIndex), s.cmdReady = true → s.frame.wf = true → idx.toNat < s.params.n →
    ∃ t, exec (.clr idx) s = .next t ∧ exec (.set idx 0 0 0) s = .next t ∧ t = { s with frame := t.frame } ∧
      tripleAt t.frame idx.toNat = (0, 0, 0) ∧ (∀ a, a / 3 ≠ idx.toNat → t.frame.read a = s.frame.read a)) ∧
  (∀ (s : State) (idx : LedIndex), s.cmdReady = true → s.params.n ≤ idx.toNat →
    exec (.clr idx) s = .next { s with fault := .indexRange, finfo := (0x03 : BitVec 8) ++ idx ++ (0 : BitVec 24) }) ∧
  (∀ (s : State) (w : CmdWord), s.cmdReady = true → w.extractLsb' 40 8 = 0x03 → w.extractLsb' 0 24 ≠ 0 →
    presentWord w s = .next { s with fault := .illegalCmd, finfo := w }) ∧
  exec (.clr 2) { State.resetWith { Params.standard with n := 4 } with frame := [(6, 1), (7, 2), (8, 3), (9, 4)] } =
    .next { State.resetWith { Params.standard with n := 4 } with frame := [(9, 4)] }

/-- R96: the encoding of `CLRALL`; its operation is exactly that of `SETALL 0, 0, 0`; every frame byte becomes 0x00 and
nothing else changes; a reserved bit is `ILLEGAL_CMD`. -/
def Obligations.ClrallClearsTheFrameOnly : Prop :=
  (∀ w : CmdWord, w.extractLsb' 40 8 = 0x04 → decode w =
    if w.extractLsb' 0 40 = 0 then .ok .clrall else .error .reservedBit) ∧
  (∀ (s : State) (w : CmdWord), s.cmdReady = true → w.extractLsb' 40 8 = 0x04 → w.extractLsb' 0 40 ≠ 0 →
    presentWord w s = .next { s with fault := .illegalCmd, finfo := w }) ∧
  (∀ s : State, exec .clrall s = exec (.setall 0 0 0) s) ∧
  (∀ s : State, s.Inv → s.cmdReady = true → exec .clrall s = .next { s with frame := [] }) ∧
  (∀ a, Memory.read [] a = 0)

/-- R97 (spec decision D26): `GET idx` in range responds the triple's (r, g, b), found through the wire order (R52), and
changes nothing else; after reset every LED responds (0, 0, 0). -/
def Obligations.GetRespondsTheTriple : Prop :=
  (∀ (s : State) (idx : LedIndex) (r g b : Byte), s.cmdReady = true → idx.toNat < s.params.n →
    tripleAt s.frame idx.toNat = perm s.params.wireOrder r g b →
    exec (.get idx) s = .next { s with rsp := r ++ g ++ b, rspValid := true }) ∧
  (∀ (s : State) (idx : LedIndex), s.cmdReady = true → idx.toNat < s.params.n →
    ∃ r g b, tripleAt s.frame idx.toNat = perm s.params.wireOrder r g b) ∧
  (∀ (p : Params) (idx : LedIndex), idx.toNat < p.n →
    exec (.get idx) (State.resetWith p) = .next { State.resetWith p with rsp := 0, rspValid := true })

/-- R98 (a) (spec inference from R93 and R97): after `SET i` a `GET i` responds the colour set, and a `GET j` of another LED
responds what it responded before. -/
def Obligations.SetThenGetReadsBack : Prop :=
  ∀ (s : State) (i j : LedIndex) (r g b : Byte), s.cmdReady = true → s.frame.wf = true → i.toNat < s.params.n →
    j.toNat < s.params.n →
    ∃ t u v w, exec (.set i r g b) s = .next t ∧ exec (.get i) t = .next u ∧ u.rsp = r ++ g ++ b ∧
      exec (.get j) s = .next v ∧ exec (.get j) t = .next w ∧ (j ≠ i → w.rsp = v.rsp)

/-- R98 (e) (spec inference): the frame after a sequence of commands depends only on, for each LED, the last write that
covered it. -/
def Obligations.LastWriteToALedWins : Prop :=
  ∀ (is : List Instr) (s : State), s.Inv → s.cmdReady = true →
    (∀ i ∈ is, Instr.WellFormed s.params i ∧ i ≠ .flush) →
    ∃ t, execAll is s = .next t ∧ t.cmdReady = true ∧ ∀ led, led < s.params.n →
      loadLED led t = (lastColour led is).getD (loadLED led s)

/-- R92, R182, R184 (spec decision D7): an index at or above N faults: `FAULT` = 2, `FINFO` = the command's word, and nothing
else changes; `SETALL` and `CLRALL` cannot fail the check. -/
def Obligations.IndexOutOfRangeFaults : Prop :=
  (∀ (s : State) (i : Instr) (idx : LedIndex), HasIndex i idx → s.cmdReady = true → s.params.n ≤ idx.toNat →
    exec i s = .next { s with fault := .indexRange, finfo := encode i }) ∧
  (∀ (s t : State) (r g b : Byte), exec (.setall r g b) s = .next t ∨ exec .clrall s = .next t → t.fault = s.fault) ∧
  faultCode .indexRange = 2 ∧ faultCode .illegalCmd = 1

/-- R151 (spec decision D23): `SETPRES v` writes `PFLAG` and nothing else; of several, the last counts. -/
def Obligations.SetpresWritesTheFlag : Prop :=
  ∀ (s : State) (u v : Bool), s.cmdReady = true →
    exec (.setpres v) s = .next { s with pflag := v } ∧
    execAll [.setpres u, .setpres v] s = exec (.setpres v) s

/-- R153 (spec decision D24): `RDSTAT sel` responds the selected register, zero-extended, and changes nothing but `RSP` and
`RSP_VALID`. -/
def Obligations.RdstatRespondsTheRegister : Prop :=
  ∀ (s : State) (x : Selector), s.cmdReady = true →
    ∃ t, exec (.rdstat x) s = .next t ∧ t = { s with rsp := t.rsp, rspValid := true } ∧
      t.rsp.toNat = match x with
        | .state => (match s.pres.mode with | .absent => 0 | .present => 1 | .grace => 2)
        | .subtick => s.pres.subtick.toNat
        | .seconds => s.pres.seconds.toNat
        | .minutes => s.pres.minutes.toNat
        | .grace => s.pres.grace.toNat
        | .pflag => s.pflag.toNat
        | .csel => s.csel.toNat
        | .latched => if s.params.resetCyc ≤ s.ser.gapcnt then 1 else 0

/-- R170 (spec decision D25): `CNEXT` advances the cursor by one modulo K and changes nothing else. -/
def Obligations.CnextAdvancesModuloK : Prop :=
  ∀ s : State, s.Inv → s.cmdReady = true →
    ∃ t, exec .cnext s = .next t ∧ t = { s with csel := t.csel } ∧
      t.csel.toNat = (s.csel.toNat + 1) % s.params.k

/-- R171 (spec inference from R170): after reset and n commands `CNEXT` the cursor is `(COLOR_DEFAULT + n) mod K`; the frame,
the presence unit and the trace are as after reset. -/
def Obligations.CnextCountsFromTheDefault : Prop :=
  ∀ (p : Params) (n : Nat), p.ok →
    ∃ t, execAll (List.replicate n .cnext) (State.resetWith p) = .next t ∧
      t.csel.toNat = (p.colorDefault + n) % p.k ∧ t = { State.resetWith p with csel := t.csel }

/-- The frame of every command (R90, R195, R98 (d)): what each leaves unchanged when it answers a next state. Registers it
names as changed are those of its rule; fault entry (R190) changes `FAULT` and `FINFO` only, and only of a command with an
index. -/
def Obligations.CommandsChangeOnlyTheirState : Prop :=
  ∀ (s t : State) (i : Instr), exec i s = .next t →
    t.params = s.params ∧ t.pres = s.pres ∧ t.inputs = s.inputs ∧
    (¬ WritesFrame i → ∀ a, t.frame.read a = s.frame.read a) ∧
    (i ≠ .flush → t.ser = s.ser ∧ t.trace = s.trace) ∧
    ((∀ v, i ≠ .setpres v) → t.pflag = s.pflag) ∧
    (i ≠ .cnext → t.csel = s.csel) ∧
    ((∀ idx, i ≠ .get idx) → (∀ x, i ≠ .rdstat x) → t.rsp = s.rsp ∧ t.rspValid = s.rspValid) ∧
    ((∀ idx, ¬ HasIndex i idx) → t.fault = s.fault ∧ t.finfo = s.finfo) ∧
    (t.fault ≠ s.fault → t = { s with fault := .indexRange, finfo := encode i })

/-! ### FLUSH and the serializer -/

/-- R116 (spec decision D1): an accepted `FLUSH` starts the first pulse, that of bit 7 of byte 0, and emits its symbol; it
changes nothing else. -/
def Obligations.FlushStartsTheFirstPulse : Prop :=
  ∀ s : State, s.Inv → s.cmdReady = true →
    exec .flush s = .next { s with
      ser := { phase := .high, bytePtr := 0, bitPtr := 7, gapcnt := 0, dout := true,
               cyc := (if (s.frame.read 0).getLsbD 7 then s.params.t1h else s.params.t0h) - 1 }
      trace := s.trace ++ [if (s.frame.read 0).getLsbD 7 then Symbol.L else Symbol.S] }

/-- R110: `FLUSH` as one step of the event level: its encoding and its only fault, a 1 the longer high, the emission loop, the
count, `LATCHED <- 0`, the frame and all else unchanged, whatever `LATCHED` was; an all-zero frame; two flushes in a row; not
while a flush is in progress; the pulse it starts at the cycle level; its example. -/
def Obligations.FlushEmitsTheWholeFrame : Prop :=
  (∀ w : CmdWord, w.extractLsb' 40 8 = 0x05 → decode w =
    if w.extractLsb' 0 40 = 0 then .ok .flush else .error .reservedBit) ∧
  (∀ (s : State) (w : CmdWord), s.cmdReady = true → w.extractLsb' 40 8 = 0x05 → w.extractLsb' 0 40 ≠ 0 →
    presentWord w s = .next { s with fault := .illegalCmd, finfo := w }) ∧
  (∀ p : Params, p.ok → highCycles p false < highCycles p true) ∧
  (∀ s : State, s.Inv → s.cmdReady = true →
    ∃ t, eventStep (.cmd 0x050000000000) s = .next t ∧
      t.trace = s.trace ++ ((List.range (3 * s.params.n)).flatMap fun a =>
        [7, 6, 5, 4, 3, 2, 1, 0].map fun j => if (s.frame.read a).getLsbD j then Symbol.L else Symbol.S) ∧
      t.trace.length = s.trace.length + 24 * s.params.n ∧ t.latched = false ∧
      t = { s with ser := t.ser, trace := t.trace, rspValid := t.rspValid } ∧
      (s.frame = [] → t.trace = s.trace ++ List.replicate (24 * s.params.n) .S) ∧
      (∃ u, eventStep (.cmd 0x050000000000) t = .next u ∧
        u.trace = t.trace ++ t.trace.drop s.trace.length) ∧
      (∃ v, exec .flush s = .next v ∧ v.ser.phase = .high ∧ v.cmdReady = false)) ∧
  (∀ s : State, s.busy = true → exec .flush s = .next s) ∧
  (∃ t, eventStep (.cmd 0x050000000000) { State.resetWith { Params.standard with n := 1 } with
      frame := [(0, 0x34), (1, 0x12), (2, 0x56)] } = .next t ∧
    t.trace = [.S, .S, .L, .L, .S, .L, .S, .S, .S, .S, .S, .L, .S, .S, .L, .S, .S, .L, .S, .L, .S, .L, .L, .S])

/-- R55 and R113: the `k`-th symbol of a flush is that of `FRAME[k div 8][7 - (k mod 8)]`, that is bit `8*a + j` is
`FRAME[a][7 - j]`: bytes ascend, bits descend from 7, and after bit 0 of the last byte there is none. The serializer walks
the same sequence edge by edge: it stays at its bit, goes to the next, or ends after the last. -/
def Obligations.FlushSendsBytesUpBitsDown : Prop :=
  (∀ s : State, s.cmdReady = true →
    ∃ t, eventStep (.cmd 0x050000000000) s = .next t ∧
      (∀ k, k < 24 * s.params.n →
        t.trace[s.trace.length + k]? = some (sym ((s.frame.read (k / 8)).getLsbD (7 - k % 8)))) ∧
      t.trace[s.trace.length + 24 * s.params.n]? = none ∧
      (∀ a j, a < 3 * s.params.n → j ≤ 7 →
        (frameBits s)[8 * a + j]? = some ((s.frame.read a).getLsbD (7 - j)) ∧
        t.trace[s.trace.length + (8 * a + j)]? = some (sym ((s.frame.read a).getLsbD (7 - j))))) ∧
  (∀ (s t : State) (p : Pins), s.Inv → s.busy = true → p.rst = false → clockEdge p s = .next t →
    (t.busy = true → (t.trace = s.trace ∧ bitIndex t = bitIndex s) ∨
      (t.trace = s.trace ++ [sym ((t.frame.read t.ser.bytePtr.toNat).getLsbD t.ser.bitPtr.toNat)] ∧
        bitIndex t = bitIndex s + 1)) ∧
    (t.busy = false → t.trace = s.trace ∧ s.ser.bytePtr.toNat = 3 * s.params.n - 1 ∧ s.ser.bitPtr = 0))

/-- R111: the symbol of a bit and the eight symbols of a byte, most significant bit first, with the rule's examples. -/
def Obligations.ByteSymbolsMostSignificantFirst : Prop :=
  sym true = .L ∧ sym false = .S ∧
  (∀ v : Byte, (byteBits v).map sym = [sym (v.getLsbD 7), sym (v.getLsbD 6), sym (v.getLsbD 5), sym (v.getLsbD 4),
    sym (v.getLsbD 3), sym (v.getLsbD 2), sym (v.getLsbD 1), sym (v.getLsbD 0)]) ∧
  (byteBits 0x00).map sym = [.S, .S, .S, .S, .S, .S, .S, .S] ∧
  (byteBits 0xFF).map sym = [.L, .L, .L, .L, .L, .L, .L, .L] ∧
  (byteBits 0x80).map sym = [.L, .S, .S, .S, .S, .S, .S, .S] ∧
  (byteBits 0x01).map sym = [.S, .S, .S, .S, .S, .S, .S, .L] ∧
  (byteBits 0xA5).map sym = [.L, .S, .L, .S, .S, .L, .S, .L]

/-- R115, R118 (spec decisions D1, D12, D15, and spec inference from R116, R117): the waveform and the busy time of a flush.
After the accepting edge and `k < O_end` more edges, whatever commands and ticks they bring but no reset, the block is busy
and `dout` is 1 exactly when some `O_j <= k < O_j + H(b_j)`; after `O_end` it is idle and low, the whole frame is in the
trace and the gap count is 0. `O_end` lies between `24*N` of the shorter slot and of the longer. -/
def Obligations.FlushWaveformInClosedForm : Prop :=
  ∀ (s : State) (p : Pins) (ps : List Pins), s.Inv → AcceptsCommand p s .flush →
    (∀ x ∈ ps, x.rst = false) → ps.length ≤ flushCycles s →
    (∃ t, clockEdges (p :: ps) s = .next t ∧ t.frame = s.frame ∧
      (ps.length < flushCycles s → t.busy = true ∧ t.cmdReady = false ∧
        (t.ser.dout = true ↔ ∃ j b, (frameBits s)[j]? = some b ∧ pulseOffset s j ≤ ps.length ∧
          ps.length < pulseOffset s j + highCycles s.params b)) ∧
      (ps.length = flushCycles s → t.busy = false ∧ t.cmdReady = true ∧ t.ser.dout = false ∧ t.ser.gapcnt = 0 ∧
        t.trace = s.trace ++ flushSymbols s)) ∧
    24 * s.params.n * min (slot s.params false) (slot s.params true) ≤ flushCycles s ∧
    flushCycles s ≤ 24 * s.params.n * max (slot s.params false) (slot s.params true)

/-- R124 for one `FLUSH` (spec inference): the accepting edge and `O_end` idle edges leave exactly the state of the whole
flush as one step. That the serializer's registers are equal too rests on the model's choice of them at the event level
(log 14). -/
def Obligations.FlushRunIsTheWholeFlush : Prop :=
  ∀ s : State, s.Inv → s.cmdReady = true →
    clockEdges (Pins.present (encode .flush) :: List.replicate (flushCycles s) Pins.idle) s =
      .next (flushWhole (clearStrobe s))

/-- R119 (spec inference): a flush always ends: from every legal busy state, whatever the pins bring but a reset, the
serializer is idle within `24*N` pulses of two longest phases each. -/
def Obligations.EveryFlushEnds : Prop :=
  ∀ s : State, s.Inv → s.busy = true →
    ∃ k, 1 ≤ k ∧ k ≤ 24 * s.params.n * (2 * longestPhase s.params) ∧
      ∀ ps : List Pins, ps.length = k → (∀ x ∈ ps, x.rst = false) →
        ∃ t, clockEdges ps s = .next t ∧ t.busy = false

/-- R33, R120 (spec decisions D13, D14): outside a flush the line is low, and `d` idle cycles advance `GAPCNT` to
`min (GAPCNT + d) RESET_CYC`; `RST` is emitted once, when it gets there, and `LATCHED` says that it has. -/
def Obligations.IdleCyclesMeasureTheGap : Prop :=
  ∀ (s : State) (ps : List Pins), s.Inv → s.busy = false → (∀ x ∈ ps, x.rst = false ∧ x.cmdValid = false) →
    ∃ t, clockEdges ps s = .next t ∧ t.ser.dout = false ∧ t.busy = false ∧
      t.ser.gapcnt = min (s.ser.gapcnt + ps.length) s.params.resetCyc ∧
      (t.latched = true ↔ s.params.resetCyc ≤ s.ser.gapcnt + ps.length) ∧
      t.trace = s.trace ++ (if s.latched = false ∧ t.latched = true then [.RST] else [])

/-- R121 (spec decisions D14, D33; with no flush in progress, log 15): `LATCH` is enabled exactly where `LATCHED = 0`; it sets
`LATCHED`, emits `RST` and changes nothing else; a second one is not enabled. -/
def Obligations.LatchStepEmitsRstOnce : Prop :=
  ∀ s : State, s.busy = false →
    (s.latched = false → ∃ t, eventStep .latch s = .next t ∧ t.latched = true ∧ t.trace = s.trace ++ [.RST] ∧
      t = { s with ser := { s.ser with gapcnt := t.ser.gapcnt }, trace := t.trace } ∧
      eventStep .latch t = .refused .latchNotEnabled) ∧
    (s.latched = true → eventStep .latch s = .refused .latchNotEnabled)

/-! ### The presence unit -/

/-- R148 (spec inference from R141): the transition table, every pair of state and input. -/
def Obligations.PresenceTransitionTable : Prop :=
  ∀ (p : Params) (q : Presence), p.ok → PresenceOk p q →
    (q.mode = .absent → tickPresence p false q = q) ∧
    (q.mode = .absent → tickPresence p true q =
      { mode := .present, subtick := 1, seconds := 0, minutes := 0, grace := 0 }) ∧
    (q.mode = .present → (tickPresence p true q).mode = .present ∧ (tickPresence p true q).grace = 0 ∧
      tickPresence p true q = countTick p q) ∧
    (q.mode = .present → 1 < p.graceTicks → tickPresence p false q = { q with mode := .grace, grace := 1 }) ∧
    (q.mode = .present → p.graceTicks = 1 → tickPresence p false q = .reset) ∧
    (q.mode = .grace → tickPresence p true q = countTick p { q with mode := .present, grace := 0 }) ∧
    (q.mode = .grace → q.grace.toNat + 1 < p.graceTicks → tickPresence p false q = { q with grace := q.grace + 1 }) ∧
    (q.mode = .grace → q.grace.toNat + 1 = p.graceTicks → tickPresence p false q = .reset)

/-- R142: the counted tick from `PRESENT`: the grace counter is 0, the sub-tick counter advances, and on the tick on which it
is `TPS - 1` it returns to 0 and `SECONDS` increments, carrying into `MINUTES` at 60, which wraps at 60. -/
def Obligations.CountedTickCarries : Prop :=
  ∀ (p : Params) (q : Presence), p.ok → PresenceOk p q → q.mode = .present →
    (tickPresence p true q).mode = .present ∧ (tickPresence p true q).grace = 0 ∧
    (tickPresence p true q).subtick.toNat = (q.subtick.toNat + 1) % p.tps ∧
    (tickPresence p true q).seconds.toNat =
      (if q.subtick.toNat = p.tps - 1 then (q.seconds.toNat + 1) % 60 else q.seconds.toNat) ∧
    (tickPresence p true q).minutes.toNat =
      (if q.subtick.toNat = p.tps - 1 ∧ q.seconds.toNat = 59 then (q.minutes.toNat + 1) % 60 else q.minutes.toNat)

/-- R147: in `ABSENT` an absent tick changes nothing, so the grace counter does not count there, however long the absence. -/
def Obligations.AbsentTicksAreNoOps : Prop :=
  ∀ (p : Params) (q : Presence) (n : Nat), q.mode = .absent → holdFlag p false n q = q

/-- R161, R162 (spec inference from R141; spec decisions D20, D21): the presence registers after any sequence of flags, one
tick each, from reset are those of the session in the document's words: `SUBTICK = C mod TPS`, `SECONDS = (C div TPS) mod 60`,
`MINUTES = (C div (60*TPS)) mod 60` of the counted ticks C, `GRACE` the consecutive absent ticks. -/
def Obligations.PresenceRefinesTheSession : Prop :=
  ∀ (p : Params) (flags : List Bool), p.ok →
    ∃ t, eventSteps (flagScript flags) (State.resetWith p) = .next t ∧
      let x := flags.foldl (sessionTick p.graceTicks) ⟨0, 0, false⟩
      t.pres.mode = (if x.on = false then .absent else if x.missed = 0 then .present else .grace) ∧
      t.pres.grace.toNat = x.missed ∧ t.pres.subtick.toNat = x.counted % p.tps ∧
      t.pres.seconds.toNat = (x.counted / p.tps) % 60 ∧ t.pres.minutes.toNat = (x.counted / (60 * p.tps)) % 60

/-- R150 (c), R162 (spec inference): the debounce: fewer than `GRACE_TICKS` absent ticks in a row leave the session counters
as they were and a counted tick then goes on from them; the `GRACE_TICKS`-th ends the session. -/
def Obligations.GraceWindowAbsorbsShortAbsences : Prop :=
  ∀ (p : Params) (q : Presence) (n : Nat), p.ok → PresenceOk p q → q.mode = .present →
    (1 ≤ n → n < p.graceTicks →
      holdFlag p false n q = { q with mode := .grace, grace := BitVec.ofNat 8 n } ∧
      tickPresence p true (holdFlag p false n q) = countTick p q) ∧
    (p.graceTicks ≤ n → holdFlag p false n q = .reset)

/-! ### Whole-machine rules -/

/-- R195 (the writes of its table, and what the tick reads): who may touch what. At an edge without reset: only an accepted
write command changes `FRAME`; the presence registers are the tick's alone, and a tick reads only them and `PFLAG`; only
`SETPRES` changes `PFLAG`, only `CNEXT` changes `CSEL`; a command other than `FLUSH` leaves the serializer and the trace as an
edge without a command would; `FAULT` and `FINFO` change only by an accepted command; and a tick changes nothing but the
presence registers. -/
def Obligations.EachUnitKeepsToItsState : Prop :=
  ∀ (s t : State) (p : Pins), p.rst = false → clockEdge p s = .next t →
    (t.frame ≠ s.frame → ∃ i, AcceptsCommand p s i ∧ WritesFrame i) ∧
    t.pres = (if p.tick then tickPresence s.params s.pflag s.pres else s.pres) ∧
    (t.pflag ≠ s.pflag → ∃ v, AcceptsCommand p s (.setpres v) ∧ t.pflag = v) ∧
    (t.csel ≠ s.csel → AcceptsCommand p s .cnext) ∧
    (¬ AcceptsCommand p s .flush →
      ∃ u, clockEdge { p with cmdValid := false } s = .next u ∧ t.ser = u.ser ∧ t.trace = u.trace) ∧
    (t.fault ≠ s.fault ∨ t.finfo ≠ s.finfo → accepts p s = true) ∧
    (∀ b, ∃ u, clockEdge { p with tick := b } s = .next u ∧ { t with pres := u.pres } = u)

/-- R125 (spec decision D17): ticks never disturb the strip unit: two runs from one state whose pins differ only in `tick`
end with the same waveform registers, trace, frame, flag, cursor and fault. -/
def Obligations.TicksNeverDisturbTheLine : Prop :=
  ∀ (s : State) (ps qs : List Pins), s.Inv →
    List.Forall₂ (fun p q : Pins => { p with tick := q.tick } = q) ps qs →
    ∃ t u, clockEdges ps s = .next t ∧ clockEdges qs s = .next u ∧ t.ser = u.ser ∧ t.trace = u.trace ∧
      t.frame = u.frame ∧ t.pflag = u.pflag ∧ t.csel = u.csel ∧ t.fault = u.fault ∧ t.finfo = u.finfo ∧
      t.outputs.dout = u.outputs.dout ∧ t.outputs.cmdReady = u.outputs.cmdReady

/-- R188 (spec decision D30): a tick at the edge that accepts a command. `SETPRES v`: the tick uses the old flag. `RDSTAT`: the
response is the value before the tick. Every other command that is accepted: the two orders of the event level agree. -/
def Obligations.TickAndCommandAtOneEdge : Prop :=
  ∀ (s : State) (p : Pins), s.Inv → accepts p s = true → p.tick = true →
    (∀ v, decode p.cmd = .ok (.setpres v) → ∃ t, clockEdge p s = .next t ∧ t.pflag = v ∧
      t.pres = tickPresence s.params s.pflag s.pres) ∧
    (∀ x, decode p.cmd = .ok (.rdstat x) → ∃ t, clockEdge p s = .next t ∧ t.rsp = statusWord s x ∧
      t.pres = tickPresence s.params s.pflag s.pres) ∧
    ((∀ v, decode p.cmd ≠ .ok (.setpres v)) → (∀ x, decode p.cmd ≠ .ok (.rdstat x)) →
      ∃ t u, eventSteps [.tick, .cmd p.cmd] s = .next u ∧ eventSteps [.cmd p.cmd, .tick] s = .next u ∧
        clockEdge p s = .next t ∧ t.pres = u.pres ∧ t.frame = u.frame ∧ t.pflag = u.pflag ∧ t.csel = u.csel ∧
        t.fault = u.fault ∧ t.finfo = u.finfo ∧ t.rsp = u.rsp)

/-! ### Faults -/

/-- R190, R184 (spec decision D8; a next state, log 6): fault entry at an edge: `FAULT` takes the cause, `FINFO` the whole
word, and everything else is as if no command had been accepted. -/
def Obligations.FaultEntryIsPrecise : Prop :=
  ∀ (s : State) (p : Pins), s.Inv → accepts p s = true →
    (∀ e, decode p.cmd = .error e → ∃ u, clockEdge { p with cmdValid := false } s = .next u ∧
      clockEdge p s = .next { u with fault := .illegalCmd, finfo := p.cmd }) ∧
    (∀ i idx, decode p.cmd = .ok i → HasIndex i idx → s.params.n ≤ idx.toNat →
      ∃ u, clockEdge { p with cmdValid := false } s = .next u ∧
        clockEdge p s = .next { u with fault := .indexRange, finfo := p.cmd })

/-- R191, R192 (spec decision D8): after a fault, and until a reset, no command is accepted: frame, flag, cursor and the fault
itself are frozen, the line stays low, `GAPCNT` goes on counting, and every tick still applies with the frozen flag. -/
def Obligations.FaultFreezesTheCommandPort : Prop :=
  ∀ (s : State) (ps : List Pins), s.Inv → s.fault ≠ .clear → (∀ x ∈ ps, x.rst = false) →
    ∃ t, clockEdges ps s = .next t ∧ t.cmdReady = false ∧ t.frame = s.frame ∧ t.pflag = s.pflag ∧ t.csel = s.csel ∧
      t.fault = s.fault ∧ t.finfo = s.finfo ∧ t.busy = false ∧ t.ser.dout = false ∧
      t.ser.gapcnt = min (s.ser.gapcnt + ps.length) s.params.resetCyc ∧
      t.pres = ticksOf s.params s.pflag ps s.pres

/-- R189 (spec decisions D8, D30): a `CLR` or `GET` word with a reserved bit set and an index out of range reports
`ILLEGAL_CMD`, also with a tick at the same edge, which is applied normally. -/
def Obligations.IllegalBeatsIndexRange : Prop :=
  ∀ (s : State) (p : Pins), s.Inv → accepts p s = true →
    p.cmd.extractLsb' 40 8 = 0x03 ∨ p.cmd.extractLsb' 40 8 = 0x06 → p.cmd.extractLsb' 0 24 ≠ 0 →
    s.params.n ≤ (p.cmd.extractLsb' 24 16).toNat →
    ∃ t, clockEdge p s = .next t ∧ t.fault = .illegalCmd ∧ t.finfo = p.cmd ∧
      t.pres = (if p.tick then tickPresence s.params s.pflag s.pres else s.pres)

/-- R180 (spec decisions D6, D7, D8): nothing but an accepted command raises a fault: an edge that changes `FAULT` and is no
reset accepted an illegal word or a `SET`, `CLR` or `GET` with `idx >= N`, with the code and the word recorded. -/
def Obligations.OnlyCommandsRaiseFaults : Prop :=
  ∀ (s t : State) (p : Pins), p.rst = false → clockEdge p s = .next t → t.fault ≠ s.fault →
    accepts p s = true ∧ s.fault = .clear ∧ t.finfo = p.cmd ∧
      (((∃ e, decode p.cmd = .error e) ∧ t.fault = .illegalCmd) ∨
        ((∃ i idx, decode p.cmd = .ok i ∧ HasIndex i idx ∧ s.params.n ≤ idx.toNat) ∧ t.fault = .indexRange))

/-! ### Reset -/

/-- R210, R211, R192, R188 (1) (spec decision D2): an edge with `rst = 1` gives the reset table whatever the state was,
mid-flush or faulted, and whatever else is at the pins. -/
def Obligations.ResetWinsOverEverything : Prop :=
  ∀ (s : State) (p : Pins), p.rst = true → clockEdge p s = .next { State.resetWith s.params with inputs := s.inputs }

/-- R49, R212, R70, R43 (spec decisions D2, D11, D23): the reset table, register by register, and the output pins after reset:
ready, nothing answered, the line low, not busy, not latched, no fault. The last clause is the model's choice (log 2): the
parameters of `State.reset` are those of `Params.standard`. -/
def Obligations.ResetTableHolds : Prop :=
  (∀ (p : Params) (a : Nat), p.ok →
    (State.resetWith p).frame.read a = 0 ∧ (State.resetWith p).ser.phase = .idle ∧
    (State.resetWith p).ser.bytePtr = 0 ∧ (State.resetWith p).ser.bitPtr = 0 ∧ (State.resetWith p).ser.cyc = 0 ∧
    (State.resetWith p).ser.gapcnt = 0 ∧ (State.resetWith p).latched = false ∧ (State.resetWith p).ser.dout = false ∧
    (State.resetWith p).pres.mode = .absent ∧ (State.resetWith p).pres.subtick = 0 ∧
    (State.resetWith p).pres.seconds = 0 ∧ (State.resetWith p).pres.minutes = 0 ∧
    (State.resetWith p).pres.grace = 0 ∧ (State.resetWith p).pflag = false ∧
    (State.resetWith p).csel.toNat = p.colorDefault ∧ (State.resetWith p).fault = .clear ∧
    (State.resetWith p).finfo = 0 ∧ (State.resetWith p).rsp = 0 ∧ (State.resetWith p).rspValid = false ∧
    (State.resetWith p).trace = [] ∧
    (State.resetWith p).outputs =
      { cmdReady := true, rspValid := false, rsp := 0, dout := false, busy := false, latched := false, fault := false,
        faultCode := 0 }) ∧
  State.reset = State.resetWith .standard

/-! ### Invariants -/

/-- R48: the invariant and the trace's invariants hold after reset, for every parameter set that meets R8. -/
def Obligations.ResetMeetsTheInvariant : Prop :=
  (∀ p : Params, p.ok → (State.resetWith p).Inv ∧ (State.resetWith p).TraceOk ∧ (State.resetWith p).PulsesOk ∧
    (State.resetWith p).GapsKept) ∧ State.reset.Inv

/-- R48 (spec inference): every step keeps the invariant, whatever the pins bring, and the parameters. -/
def Obligations.StepKeepsTheInvariant : Prop :=
  ∀ s t : State, s.Inv → step s = .next t → t.Inv ∧ t.params = s.params

/-- R180, R221, R71: from every legal state the machine runs on: no pins make it stop, nor does a command's effect; at the event
level a tick is a step in every legal state, and a command, whatever its word, in every legal state with `FAULT = 0` and no
flush in progress. -/
def Obligations.LegalStatesAlwaysRunOn : Prop :=
  (∀ s : State, s.Inv → ∃ t, step s = .next t) ∧
  (∀ (s : State) (i : Instr), s.Inv → ∃ t, exec i s = .next t) ∧
  (∀ s : State, s.Inv → ∃ t, eventStep .tick s = .next t) ∧
  (∀ (s : State) (w : CmdWord), s.Inv → s.fault = .clear → s.busy = false → ∃ t, eventStep (.cmd w) s = .next t)

/-- R121, R33 (spec decisions D14, D33): every step keeps: the trace ends in `RST` exactly where `LATCHED = 1`, and never
has two `RST` in a row ("At most one `RST` is emitted between two flushes"). -/
def Obligations.StepKeepsTraceAndLatchTogether : Prop :=
  ∀ s t : State, s.Inv → s.TraceOk → step s = .next t → t.TraceOk

/-- R114 as an invariant: every step keeps: the pulses emitted are whole frames of `24*N` when idle, and up to the bit on the
line while a flush runs. -/
def Obligations.StepKeepsPulsesWhole : Prop :=
  ∀ s t : State, s.Inv → s.PulsesOk → step s = .next t → t.PulsesOk

/-- R217: where the host issues `FLUSH` only when `LATCHED = 1`, the trace keeps an `RST` between any two frames and before
the first. -/
def Obligations.HostThatWaitsKeepsGaps : Prop :=
  ∀ s t : State, s.Inv → s.TraceOk → s.PulsesOk → s.GapsKept → KeepsGap (nextPins s) (dropPins s) →
    step s = .next t → t.GapsKept

/-- R217, 93_implementation_defined.md U2 (log 19): a `FLUSH` with `LATCHED = 1`, then `LATCH`, brackets the frame, so that a
claim about the display may be made of it. -/
def Obligations.WaitedFlushIsBracketed : Prop :=
  ∀ s : State, s.Inv → s.TraceOk → s.cmdReady = true → s.latched = true →
    ∃ t, eventSteps [.cmd 0x050000000000, .latch] s = .next t ∧ DisplayClaimAllowed t.trace (flushSymbols s)

/-- R20, R160 (spec decision D22; log 11): in every legal state `CYC` and `GAPCNT`, which the model holds as numbers, fit the
widths `CYCW` and `GAPW`, and `SUBTICK`, `SECONDS`, `MINUTES` and `GRACE` are below their registers' top values, so that
adding one does not wrap. -/
def Obligations.CountersFitTheirRegisters : Prop :=
  ∀ s : State, s.Inv →
    s.ser.cyc < 2 ^ cycWidth s.params ∧ s.ser.gapcnt < 2 ^ gapWidth s.params ∧
    (s.pres.subtick + 1).toNat = s.pres.subtick.toNat + 1 ∧ (s.pres.seconds + 1).toNat = s.pres.seconds.toNat + 1 ∧
    (s.pres.minutes + 1).toNat = s.pres.minutes.toNat + 1 ∧ (s.pres.grace + 1).toNat = s.pres.grace.toNat + 1

/-! ### The two levels -/

/-- R124 (spec inference): the cycle level refines the event level. From a legal cycle-level state and an event-level state
with the same view, the edges of any list of cycles and the event-level steps they stand for end with the same view: trace
(a flush in progress counted as done), frame, presence registers, flag, cursor, fault, response and `LATCHED`. -/
def Obligations.CycleLevelRefinesEventLevel : Prop :=
  ∀ (ps : List Pins) (s e : State), s.Inv → e.Inv → e.ser.phase = .idle → eventView e = eventView s →
    ∃ t u, clockEdges ps s = .next t ∧ eventSteps (eventsOfEdges ps s) e = .next u ∧ u.ser.phase = .idle ∧
      eventView u = eventView t

/-- R124, the other way, step by step (spec inference; the restriction is the model's finding, log 26): an event-level step is
matched by a cycle-level run where the edge it takes does not end the latch gap, or the step is `LATCH`, `RESET` or a `FLUSH`.
Where that edge does end the gap, it ends with the `RST` of a `LATCH` behind it, whatever the pins but a reset or a `FLUSH`. -/
def Obligations.EventStepsHaveCycleRuns : Prop :=
  (∀ (s t : State) (e : Event), s.Inv → s.busy = false → eventStep e s = .next t →
    s.ser.gapcnt + 1 ≠ s.params.resetCyc ∨ e = .latch ∨ e = .reset ∨ (∃ w, e = .cmd w ∧ decode w = .ok .flush) →
    ∃ ps u, clockEdges ps s = .next u ∧ eventView u = eventView t) ∧
  (∀ (s : State) (p : Pins), s.Inv → s.busy = false → s.ser.gapcnt + 1 = s.params.resetCyc → p.rst = false →
    ¬ AcceptsCommand p s .flush → ∃ t, clockEdge p s = .next t ∧ t.latched = true ∧ t.trace = s.trace ++ [.RST])

/-- R124, the other way, for whole runs (spec inference; log 26): every event-level run that has time for its steps
(`hasTime`: one edge for each tick and command, none for a tick that falls inside a flush, no edge at which the latch gap ends
but one with `LATCH` behind it) is matched by a cycle-level run of exactly these steps, with suitable idle cycles. -/
def Obligations.EventRunsHaveCycleRuns : Prop :=
  ∀ (es : List Event) (s t : State), s.Inv → s.busy = false → eventSteps es s = .next t →
    hasTime es s.ser.gapcnt 0 s = true →
    ∃ ps u, clockEdges ps s = .next u ∧ eventsOfEdges ps s = es ∧ eventView u = eventView t

/-- R124, the other way, for every event-level run (spec inference; log 26): there is a cycle-level run with the same
sequence of accepted commands, ticks and resets, and it ends with the same pulses, frame, presence registers, flag, cursor and
fault, and the same response where the host never read `LATCHED`. Only when `LATCH` happens is not the event level's to say. -/
def Obligations.EventRunsMatchUpToTheGap : Prop :=
  ∀ (es : List Event) (s t : State), s.Inv → s.busy = false → eventSteps es s = .next t →
    ∃ ps u, clockEdges ps s = .next u ∧ u.busy = false ∧
      (eventsOfEdges ps s).filter (· != .latch) = es.filter (· != .latch) ∧
      u.trace.filter (· != .RST) = t.trace.filter (· != .RST) ∧ u.frame = t.frame ∧ u.pres = t.pres ∧
      u.pflag = t.pflag ∧ u.csel = t.csel ∧ u.fault = t.fault ∧ u.finfo = t.finfo ∧
      ((∀ w, .cmd w ∈ es → decode w ≠ .ok (.rdstat .latched)) → u.rsp = t.rsp)
end

