-- ==== Sys2Proof/Laws/Decode.lean ====
section
/-!
SUPPORT. The fields of a laid-out word, a word as the layout of its fields, and the selectors both ways.
-/

namespace Sys2Proof

@[simp] theorem opField_layout (op : BitVec 8) (i : LedIndex) (r g b : Byte) : opField (layout op i r g b) = op := by
  apply BitVec.eq_of_getLsbD_eq
  intro j hj
  simp only [opField, layout, BitVec.getLsbD_extractLsb', BitVec.getLsbD_append, hj]
  grind

@[simp] theorem idxField_layout (op : BitVec 8) (i : LedIndex) (r g b : Byte) : idxField (layout op i r g b) = i := by
  apply BitVec.eq_of_getLsbD_eq
  intro j hj
  simp only [idxField, layout, BitVec.getLsbD_extractLsb', BitVec.getLsbD_append, hj]
  grind

@[simp] theorem redField_layout (op : BitVec 8) (i : LedIndex) (r g b : Byte) : redField (layout op i r g b) = r := by
  apply BitVec.eq_of_getLsbD_eq
  intro j hj
  simp only [redField, layout, BitVec.getLsbD_extractLsb', BitVec.getLsbD_append, hj]
  grind

@[simp] theorem greenField_layout (op : BitVec 8) (i : LedIndex) (r g b : Byte) :
    greenField (layout op i r g b) = g := by
  apply BitVec.eq_of_getLsbD_eq
  intro j hj
  simp only [greenField, layout, BitVec.getLsbD_extractLsb', BitVec.getLsbD_append, hj]
  grind

@[simp] theorem blueField_layout (op : BitVec 8) (i : LedIndex) (r g b : Byte) :
    blueField (layout op i r g b) = b := by
  apply BitVec.eq_of_getLsbD_eq
  intro j hj
  simp only [blueField, layout, BitVec.getLsbD_extractLsb', BitVec.getLsbD_append, hj]
  grind

/-- A word is the layout of its fields (R73). -/
theorem layout_fields (w : CmdWord) : layout (opField w) (idxField w) (redField w) (greenField w) (blueField w) = w := by
  apply BitVec.eq_of_getLsbD_eq
  intro j hj
  simp only [layout, opField, idxField, redField, greenField, blueField, BitVec.getLsbD_extractLsb',
    BitVec.getLsbD_append]
  grind

/-- Words with the same fields are the same word. -/
theorem word_ext {w w' : CmdWord} (ho : opField w = opField w') (hi : idxField w = idxField w')
    (hr : redField w = redField w') (hg : greenField w = greenField w') (hb : blueField w = blueField w') : w = w' := by
  rw [← layout_fields w, ← layout_fields w', ho, hi, hr, hg, hb]

/-- A mask, bit by bit, on a laid-out word. -/
theorem layout_and (op op' : BitVec 8) (i i' : LedIndex) (r r' g g' b b' : Byte) :
    layout op i r g b &&& layout op' i' r' g' b' =
      layout (op &&& op') (i &&& i') (r &&& r') (g &&& g') (b &&& b') := by
  apply BitVec.eq_of_getLsbD_eq
  intro j hj
  simp only [layout, BitVec.getLsbD_and, BitVec.getLsbD_append]
  grind

/-- A laid-out word determines its fields. -/
theorem layout_inj {op op' : BitVec 8} {i i' : LedIndex} {r r' g g' b b' : Byte} :
    layout op i r g b = layout op' i' r' g' b' ↔ op = op' ∧ i = i' ∧ r = r' ∧ g = g' ∧ b = b' := by
  refine ⟨fun h => ⟨?_, ?_, ?_, ?_, ?_⟩, fun ⟨ho, hi, hr, hg, hb⟩ => by rw [ho, hi, hr, hg, hb]⟩
  · simpa using congrArg opField h
  · simpa using congrArg idxField h
  · simpa using congrArg redField h
  · simpa using congrArg greenField h
  · simpa using congrArg blueField h

/-- A mask laid out, on any word. -/
theorem and_layout (w : CmdWord) (op : BitVec 8) (i : LedIndex) (r g b : Byte) : w &&& layout op i r g b =
    layout (opField w &&& op) (idxField w &&& i) (redField w &&& r) (greenField w &&& g) (blueField w &&& b) := by
  conv_lhs => rw [← layout_fields w]
  exact layout_and ..

/-- The mask of the slice `w[lo+len-1 : lo]`. -/
abbrev sliceMask (lo len : Nat) : CmdWord := (BitVec.allOnes len).zeroExtend 48 <<< lo

/-- A word has no bit under the mask of a slice exactly when the slice is 0. -/
theorem and_sliceMask (w : CmdWord) (lo len : Nat) :
    w &&& sliceMask lo len = 0 ↔ w.extractLsb' lo len = 0 := by
  constructor
  · intro hw
    apply BitVec.eq_of_getLsbD_eq
    intro j hj
    have := congrArg (fun x => x.getLsbD (lo + j)) hw
    simp only [BitVec.getLsbD_and, BitVec.getLsbD_shiftLeft, BitVec.truncate_eq_setWidth,
      BitVec.getLsbD_setWidth, BitVec.getLsbD_allOnes] at this
    simp only [BitVec.getLsbD_extractLsb', hj]
    grind
  · intro hw
    apply BitVec.eq_of_getLsbD_eq
    intro j hj
    simp only [BitVec.getLsbD_and, BitVec.getLsbD_shiftLeft, BitVec.truncate_eq_setWidth,
      BitVec.getLsbD_setWidth, BitVec.getLsbD_allOnes]
    have := congrArg (fun x => x.getLsbD (j - lo)) hw
    simp only [BitVec.getLsbD_extractLsb'] at this
    grind

@[simp] theorem selectorOf_selectorBits (x : Selector) : selectorOf (selectorBits x) = x := by cases x <;> rfl

@[simp] theorem selectorBits_selectorOf (v : BitVec 3) : selectorBits (selectorOf v) = v := by
  revert v; decide

theorem withoutReserved_ok {w mask : CmdWord} {i j : Instr} :
    withoutReserved w mask i = .ok j ↔ w &&& mask = 0 ∧ i = j := by
  unfold withoutReserved
  split <;> simp_all

theorem withoutReserved_error {w mask : CmdWord} {i : Instr} {e : IllegalWord} :
    withoutReserved w mask i = .error e ↔ w &&& mask ≠ 0 ∧ e = .reservedBit := by
  unfold withoutReserved
  split <;> simp_all [eq_comm]

/-! ### The reserved bits of the formats (R74) as slices -/

theorem reserved_Z (w : CmdWord) : w &&& 0x00FFFFFFFFFF = 0 ↔ w.extractLsb' 0 40 = 0 := and_sliceMask w 0 40

theorem reserved_I (w : CmdWord) : w &&& 0x000000FFFFFF = 0 ↔ w.extractLsb' 0 24 = 0 := and_sliceMask w 0 24

theorem reserved_C (w : CmdWord) : w &&& 0x00FFFF000000 = 0 ↔ w.extractLsb' 24 16 = 0 := and_sliceMask w 24 16

theorem reserved_V1 (w : CmdWord) : w &&& 0x00FFFFFFFFFE = 0 ↔ w.extractLsb' 1 39 = 0 := and_sliceMask w 1 39

theorem reserved_V3 (w : CmdWord) : w &&& 0x00FFFFFFFFF8 = 0 ↔ w.extractLsb' 3 37 = 0 := and_sliceMask w 3 37

/-- A slice inside a slice of zeros is zero. -/
theorem slice_zero {w : CmdWord} {lo len : Nat} (h : w.extractLsb' lo len = 0) {k n : Nat} (h1 : lo ≤ k)
    (h2 : k + n ≤ lo + len) : w.extractLsb' k n = 0 := by
  apply BitVec.eq_of_getLsbD_eq
  intro j hj
  have := congrArg (fun x => x.getLsbD (k - lo + j)) h
  simp only [BitVec.getLsbD_extractLsb'] at *
  have e : lo + (k - lo + j) = k + j := by omega
  have e2 : decide (k - lo + j < len) = true := by simp; omega
  rw [e, e2] at this
  simp only [Bool.true_and] at this
  simp [hj, this]

end Sys2Proof
end

