-- ==== Sys2Proof/Laws/Memory.lean ====
section
/-!
SUPPORT. The laws of the frame's memory: read after write, the canonical form, and the triples of R51 to R53.
-/

namespace Sys2Proof.Machine

@[simp] theorem read_nil (a : Nat) : Memory.read [] a = 0 := rfl

theorem read_cons (k : Nat) (v : Byte) (m : Memory) (a : Nat) :
    Memory.read ((k, v) :: m) a = if k = a then v else Memory.read m a := rfl

theorem wf_cons {k : Nat} {v : Byte} {m : Memory} :
    Memory.wf ((k, v) :: m) = true ↔ v ≠ 0 ∧ (∀ c ∈ m, k < c.1) ∧ Memory.wf m = true := by
  simp [Memory.wf, and_assoc]

/-- An offset below every listed one reads 0x00. -/
theorem read_of_lt {m : Memory} {a : Nat} (h : ∀ c ∈ m, a < c.1) : Memory.read m a = 0 := by
  induction m with
  | nil => rfl
  | cons c m ih =>
    obtain ⟨k, v⟩ := c
    have hk : a < k := h (k, v) (by simp)
    rw [read_cons, if_neg (by omega)]
    exact ih fun c hc => h c (by simp [hc])

/-- What a write lists lies among the old offsets and the new one. -/
theorem mem_write {m : Memory} {a : Nat} {b : Byte} {c : Host.Cell} (h : c ∈ Memory.write m a b) :
    c.1 = a ∨ c ∈ m := by
  induction m with
  | nil =>
    simp only [Memory.write] at h
    split at h
    · exact absurd h (by simp)
    · exact .inl (by simp_all)
  | cons d m ih =>
    obtain ⟨k, v⟩ := d
    simp only [Memory.write] at h
    split at h
    · split at h
      · exact .inr h
      · rcases List.mem_cons.1 h with rfl | h
        · exact .inl rfl
        · exact .inr h
    · split at h
      · split at h
        · exact .inr (by simp [h])
        · rcases List.mem_cons.1 h with rfl | h
          · exact .inl rfl
          · exact .inr (by simp [h])
      · rcases List.mem_cons.1 h with rfl | h
        · exact .inr (by simp)
        · exact (ih h).imp id fun h => by simp [h]

/-- A write keeps the canonical form. -/
theorem write_wf {m : Memory} (h : m.wf = true) (a : Nat) (b : Byte) : (m.write a b).wf = true := by
  induction m with
  | nil =>
    unfold Memory.write
    split
    · rfl
    · exact wf_cons.2 ⟨by assumption, fun _ hc => absurd hc (by simp), rfl⟩
  | cons c m ih =>
    obtain ⟨k, v⟩ := c
    obtain ⟨hv, hk, hm⟩ := wf_cons.1 h
    simp only [Memory.write]
    split
    case isTrue hlt =>
      split
      · exact h
      · refine wf_cons.2 ⟨by assumption, ?_, h⟩
        intro c hc
        rcases List.mem_cons.1 hc with rfl | hc
        · exact hlt
        · exact lt_trans hlt (hk c hc)
    case isFalse hlt =>
      split
      case isTrue heq =>
        split
        · exact hm
        · exact wf_cons.2 ⟨by assumption, fun c hc => heq ▸ hk c hc, hm⟩
      case isFalse hne =>
        refine wf_cons.2 ⟨hv, fun c hc => ?_, ih hm⟩
        rcases mem_write hc with h1 | h1
        · omega
        · exact hk c h1

/-- Read after write. -/
theorem read_write {m : Memory} (h : m.wf = true) (a : Nat) (b : Byte) (x : Nat) :
    (m.write a b).read x = if x = a then b else m.read x := by
  induction m with
  | nil =>
    by_cases hb : b = 0
    · simp [Memory.write, hb]
    · simp only [Memory.write, if_neg hb, read_cons, read_nil, eq_comm]
  | cons c m ih =>
    obtain ⟨k, v⟩ := c
    obtain ⟨-, hk, hm⟩ := wf_cons.1 h
    simp only [Memory.write]
    split
    case isTrue hlt =>
      have h0 : Memory.read ((k, v) :: m) a = 0 := read_of_lt fun c hc => by
        rcases List.mem_cons.1 hc with rfl | hc
        · exact hlt
        · exact lt_trans hlt (hk c hc)
      split
      case isTrue hb =>
        split
        case isTrue hx => rw [hx, h0, hb]
        case isFalse => rfl
      case isFalse =>
        by_cases hx : x = a
        · rw [if_pos hx, read_cons, if_pos hx.symm]
        · rw [if_neg hx, read_cons, if_neg (Ne.symm hx)]
    case isFalse hlt =>
      split
      case isTrue heq =>
        subst heq
        have h0 : Memory.read m a = 0 := read_of_lt hk
        split
        case isTrue hb =>
          by_cases hx : x = a
          · rw [if_pos hx, hx, h0, hb]
          · rw [if_neg hx, read_cons, if_neg (Ne.symm hx)]
        case isFalse =>
          by_cases hx : x = a
          · rw [if_pos hx, read_cons, if_pos hx.symm]
          · rw [if_neg hx, read_cons, read_cons, if_neg (Ne.symm hx), if_neg (Ne.symm hx)]
      case isFalse hne =>
        rw [read_cons, read_cons, ih hm]
        by_cases hx : k = x
        · rw [if_pos hx, if_pos hx, if_neg (by omega)]
        · rw [if_neg hx, if_neg hx]

theorem read_write_same {m : Memory} (h : m.wf = true) (a : Nat) (b : Byte) : (m.write a b).read a = b := by
  rw [read_write h, if_pos rfl]

theorem read_write_other {m : Memory} (h : m.wf = true) {a x : Nat} (b : Byte) (hx : x ≠ a) :
    (m.write a b).read x = m.read x := by rw [read_write h, if_neg hx]

/-- Canonical memories that read the same are the same list. -/
theorem wf_ext {m m' : Memory} (h : m.wf = true) (h' : m'.wf = true) (e : ∀ a, m.read a = m'.read a) : m = m' := by
  induction m generalizing m' with
  | nil =>
    cases m' with
    | nil => rfl
    | cons c m' =>
      obtain ⟨k, v⟩ := c
      have := e k
      rw [read_cons, if_pos rfl] at this
      exact absurd this.symm (wf_cons.1 h').1
  | cons c m ih =>
    obtain ⟨k, v⟩ := c
    obtain ⟨hv, hk, hm⟩ := wf_cons.1 h
    cases m' with
    | nil =>
      have := e k
      rw [read_cons, if_pos rfl] at this
      exact absurd this hv
    | cons c' m' =>
      obtain ⟨k', v'⟩ := c'
      obtain ⟨hv', hk', hm'⟩ := wf_cons.1 h'
      have hkk : k = k' := by
        rcases lt_trichotomy k k' with hlt | heq | hlt
        · have := e k
          rw [read_cons, if_pos rfl, read_cons, if_neg (by omega),
            read_of_lt fun c hc => lt_trans hlt (hk' c hc)] at this
          exact absurd this hv
        · exact heq
        · have := e k'
          rw [read_cons, if_neg (by omega), read_of_lt fun c hc => lt_trans hlt (hk c hc), read_cons, if_pos rfl] at this
          exact absurd this.symm hv'
      subst hkk
      have hvv : v = v' := by have := e k; rwa [read_cons, if_pos rfl, read_cons, if_pos rfl] at this
      subst hvv
      rw [ih hm hm' fun a => ?_]
      by_cases ha : k = a
      · subst ha; rw [read_of_lt hk, read_of_lt hk']
      · have := e a; rwa [read_cons, if_neg ha, read_cons, if_neg ha] at this

/-! ### Triples -/

/-- Byte `j` of a triple. -/
abbrev tripleByte (t : Byte × Byte × Byte) (j : Nat) : Byte := if j = 0 then t.1 else if j = 1 then t.2.1 else t.2.2

theorem storeTriple_wf {m : Memory} (h : m.wf = true) (led : Nat) (t : Byte × Byte × Byte) :
    (storeTriple led t m).wf = true := write_wf (write_wf (write_wf h _ _) _ _) _ _

/-- `StoreLED` writes the three bytes of its LED and no other (R53, R93). -/
theorem read_storeTriple {m : Memory} (h : m.wf = true) (led : Nat) (t : Byte × Byte × Byte) (x : Nat) :
    (storeTriple led t m).read x = if x / 3 = led then tripleByte t (x % 3) else m.read x := by
  have h1 := write_wf h (ledOffset led) t.1
  have h2 := write_wf h1 (ledOffset led + 1) t.2.1
  rw [storeTriple, read_write h2, read_write h1, read_write h]
  unfold ledOffset tripleByte
  split_ifs <;> first | rfl | omega

/-- A store of a triple lists no offset outside its LED that was not listed. -/
theorem mem_storeTriple {m : Memory} {led : Nat} {t : Byte × Byte × Byte} {c : Host.Cell}
    (h : c ∈ storeTriple led t m) : c.1 < 3 * led + 3 ∨ c ∈ m := by
  unfold storeTriple ledOffset at h
  rcases mem_write h with h | h
  · omega
  · rcases mem_write h with h | h
    · omega
    · rcases mem_write h with h | h
      · omega
      · exact .inr h

theorem storeTriples_wf {m : Memory} (h : m.wf = true) (t : Byte × Byte × Byte) (count : Nat) :
    (storeTriples t m count).wf = true := by
  induction count with
  | zero => exact h
  | succ k ih => exact storeTriple_wf ih k t

/-- The loop of `SETALL` (R94). -/
theorem read_storeTriples {m : Memory} (h : m.wf = true) (t : Byte × Byte × Byte) (count x : Nat) :
    (storeTriples t m count).read x = if x / 3 < count then tripleByte t (x % 3) else m.read x := by
  induction count with
  | zero => rfl
  | succ k ih =>
    rw [storeTriples, read_storeTriple (storeTriples_wf h t k), ih]
    split_ifs <;> first | rfl | omega

theorem mem_storeTriples {m : Memory} {t : Byte × Byte × Byte} {count : Nat} {c : Host.Cell}
    (h : c ∈ storeTriples t m count) : c.1 < 3 * count ∨ c ∈ m := by
  induction count with
  | zero => exact .inr h
  | succ k ih =>
    rcases mem_storeTriple h with h | h
    · omega
    · exact (ih h).imp (by omega) id

end Sys2Proof.Machine
end

