-- ==== Sys2Proof/Laws/State.lean ====
section
/-!
SUPPORT. One lemma per field and named update of State, each true by rfl, so that no later proof unfolds a record update.
-/

namespace Sys2Proof.Machine

/-! ### `emit` -/

@[simp] theorem emit_params (y : Symbol) (s : State) : (emit y s).params = s.params := rfl
@[simp] theorem emit_frame (y : Symbol) (s : State) : (emit y s).frame = s.frame := rfl
@[simp] theorem emit_ser (y : Symbol) (s : State) : (emit y s).ser = s.ser := rfl
@[simp] theorem emit_pres (y : Symbol) (s : State) : (emit y s).pres = s.pres := rfl
@[simp] theorem emit_pflag (y : Symbol) (s : State) : (emit y s).pflag = s.pflag := rfl
@[simp] theorem emit_csel (y : Symbol) (s : State) : (emit y s).csel = s.csel := rfl
@[simp] theorem emit_fault (y : Symbol) (s : State) : (emit y s).fault = s.fault := rfl
@[simp] theorem emit_finfo (y : Symbol) (s : State) : (emit y s).finfo = s.finfo := rfl
@[simp] theorem emit_rsp (y : Symbol) (s : State) : (emit y s).rsp = s.rsp := rfl
@[simp] theorem emit_rspValid (y : Symbol) (s : State) : (emit y s).rspValid = s.rspValid := rfl
@[simp] theorem emit_trace (y : Symbol) (s : State) : (emit y s).trace = s.trace ++ [y] := rfl
@[simp] theorem emit_inputs (y : Symbol) (s : State) : (emit y s).inputs = s.inputs := rfl
@[simp] theorem emit_cmdReady (y : Symbol) (s : State) : (emit y s).cmdReady = s.cmdReady := rfl
@[simp] theorem emit_latched (y : Symbol) (s : State) : (emit y s).latched = s.latched := rfl
@[simp] theorem emit_busy (y : Symbol) (s : State) : (emit y s).busy = s.busy := rfl

/-! ### `respond` -/

@[simp] theorem respond_params (v : RspWord) (s : State) : (respond v s).params = s.params := rfl
@[simp] theorem respond_frame (v : RspWord) (s : State) : (respond v s).frame = s.frame := rfl
@[simp] theorem respond_ser (v : RspWord) (s : State) : (respond v s).ser = s.ser := rfl
@[simp] theorem respond_pres (v : RspWord) (s : State) : (respond v s).pres = s.pres := rfl
@[simp] theorem respond_pflag (v : RspWord) (s : State) : (respond v s).pflag = s.pflag := rfl
@[simp] theorem respond_csel (v : RspWord) (s : State) : (respond v s).csel = s.csel := rfl
@[simp] theorem respond_fault (v : RspWord) (s : State) : (respond v s).fault = s.fault := rfl
@[simp] theorem respond_finfo (v : RspWord) (s : State) : (respond v s).finfo = s.finfo := rfl
@[simp] theorem respond_rsp (v : RspWord) (s : State) : (respond v s).rsp = v := rfl
@[simp] theorem respond_rspValid (v : RspWord) (s : State) : (respond v s).rspValid = true := rfl
@[simp] theorem respond_trace (v : RspWord) (s : State) : (respond v s).trace = s.trace := rfl
@[simp] theorem respond_inputs (v : RspWord) (s : State) : (respond v s).inputs = s.inputs := rfl
@[simp] theorem respond_cmdReady (v : RspWord) (s : State) : (respond v s).cmdReady = s.cmdReady := rfl
@[simp] theorem respond_latched (v : RspWord) (s : State) : (respond v s).latched = s.latched := rfl
@[simp] theorem respond_busy (v : RspWord) (s : State) : (respond v s).busy = s.busy := rfl

/-! ### `clearStrobe` -/

@[simp] theorem clearStrobe_params (s : State) : (clearStrobe s).params = s.params := rfl
@[simp] theorem clearStrobe_frame (s : State) : (clearStrobe s).frame = s.frame := rfl
@[simp] theorem clearStrobe_ser (s : State) : (clearStrobe s).ser = s.ser := rfl
@[simp] theorem clearStrobe_pres (s : State) : (clearStrobe s).pres = s.pres := rfl
@[simp] theorem clearStrobe_pflag (s : State) : (clearStrobe s).pflag = s.pflag := rfl
@[simp] theorem clearStrobe_csel (s : State) : (clearStrobe s).csel = s.csel := rfl
@[simp] theorem clearStrobe_fault (s : State) : (clearStrobe s).fault = s.fault := rfl
@[simp] theorem clearStrobe_finfo (s : State) : (clearStrobe s).finfo = s.finfo := rfl
@[simp] theorem clearStrobe_rsp (s : State) : (clearStrobe s).rsp = s.rsp := rfl
@[simp] theorem clearStrobe_rspValid (s : State) : (clearStrobe s).rspValid = false := rfl
@[simp] theorem clearStrobe_trace (s : State) : (clearStrobe s).trace = s.trace := rfl
@[simp] theorem clearStrobe_inputs (s : State) : (clearStrobe s).inputs = s.inputs := rfl
@[simp] theorem clearStrobe_cmdReady (s : State) : (clearStrobe s).cmdReady = s.cmdReady := rfl
@[simp] theorem clearStrobe_latched (s : State) : (clearStrobe s).latched = s.latched := rfl
@[simp] theorem clearStrobe_busy (s : State) : (clearStrobe s).busy = s.busy := rfl

/-! ### `enterFault` -/

@[simp] theorem enterFault_params (c : FaultCause) (w : CmdWord) (s : State) : (enterFault c w s).params = s.params := rfl
@[simp] theorem enterFault_frame (c : FaultCause) (w : CmdWord) (s : State) : (enterFault c w s).frame = s.frame := rfl
@[simp] theorem enterFault_ser (c : FaultCause) (w : CmdWord) (s : State) : (enterFault c w s).ser = s.ser := rfl
@[simp] theorem enterFault_pres (c : FaultCause) (w : CmdWord) (s : State) : (enterFault c w s).pres = s.pres := rfl
@[simp] theorem enterFault_pflag (c : FaultCause) (w : CmdWord) (s : State) : (enterFault c w s).pflag = s.pflag := rfl
@[simp] theorem enterFault_csel (c : FaultCause) (w : CmdWord) (s : State) : (enterFault c w s).csel = s.csel := rfl
@[simp] theorem enterFault_fault (c : FaultCause) (w : CmdWord) (s : State) : (enterFault c w s).fault = c := rfl
@[simp] theorem enterFault_finfo (c : FaultCause) (w : CmdWord) (s : State) : (enterFault c w s).finfo = w := rfl
@[simp] theorem enterFault_rsp (c : FaultCause) (w : CmdWord) (s : State) : (enterFault c w s).rsp = s.rsp := rfl
@[simp] theorem enterFault_rspValid (c : FaultCause) (w : CmdWord) (s : State) : (enterFault c w s).rspValid = s.rspValid := rfl
@[simp] theorem enterFault_trace (c : FaultCause) (w : CmdWord) (s : State) : (enterFault c w s).trace = s.trace := rfl
@[simp] theorem enterFault_inputs (c : FaultCause) (w : CmdWord) (s : State) : (enterFault c w s).inputs = s.inputs := rfl
@[simp] theorem enterFault_latched (c : FaultCause) (w : CmdWord) (s : State) : (enterFault c w s).latched = s.latched := rfl
@[simp] theorem enterFault_busy (c : FaultCause) (w : CmdWord) (s : State) : (enterFault c w s).busy = s.busy := rfl

/-! ### `storeLED` -/

@[simp] theorem storeLED_params (led : Nat) (r g b : Byte) (s : State) : (storeLED led r g b s).params = s.params := rfl
@[simp] theorem storeLED_frame (led : Nat) (r g b : Byte) (s : State) : (storeLED led r g b s).frame = storeTriple led (perm s.params.wireOrder r g b) s.frame := rfl
@[simp] theorem storeLED_ser (led : Nat) (r g b : Byte) (s : State) : (storeLED led r g b s).ser = s.ser := rfl
@[simp] theorem storeLED_pres (led : Nat) (r g b : Byte) (s : State) : (storeLED led r g b s).pres = s.pres := rfl
@[simp] theorem storeLED_pflag (led : Nat) (r g b : Byte) (s : State) : (storeLED led r g b s).pflag = s.pflag := rfl
@[simp] theorem storeLED_csel (led : Nat) (r g b : Byte) (s : State) : (storeLED led r g b s).csel = s.csel := rfl
@[simp] theorem storeLED_fault (led : Nat) (r g b : Byte) (s : State) : (storeLED led r g b s).fault = s.fault := rfl
@[simp] theorem storeLED_finfo (led : Nat) (r g b : Byte) (s : State) : (storeLED led r g b s).finfo = s.finfo := rfl
@[simp] theorem storeLED_rsp (led : Nat) (r g b : Byte) (s : State) : (storeLED led r g b s).rsp = s.rsp := rfl
@[simp] theorem storeLED_rspValid (led : Nat) (r g b : Byte) (s : State) : (storeLED led r g b s).rspValid = s.rspValid := rfl
@[simp] theorem storeLED_trace (led : Nat) (r g b : Byte) (s : State) : (storeLED led r g b s).trace = s.trace := rfl
@[simp] theorem storeLED_inputs (led : Nat) (r g b : Byte) (s : State) : (storeLED led r g b s).inputs = s.inputs := rfl
@[simp] theorem storeLED_cmdReady (led : Nat) (r g b : Byte) (s : State) : (storeLED led r g b s).cmdReady = s.cmdReady := rfl
@[simp] theorem storeLED_latched (led : Nat) (r g b : Byte) (s : State) : (storeLED led r g b s).latched = s.latched := rfl
@[simp] theorem storeLED_busy (led : Nat) (r g b : Byte) (s : State) : (storeLED led r g b s).busy = s.busy := rfl

/-! ### `storeAllLEDs` -/

@[simp] theorem storeAllLEDs_params (r g b : Byte) (s : State) : (storeAllLEDs r g b s).params = s.params := rfl
@[simp] theorem storeAllLEDs_frame (r g b : Byte) (s : State) : (storeAllLEDs r g b s).frame = storeTriples (perm s.params.wireOrder r g b) s.frame s.params.n := rfl
@[simp] theorem storeAllLEDs_ser (r g b : Byte) (s : State) : (storeAllLEDs r g b s).ser = s.ser := rfl
@[simp] theorem storeAllLEDs_pres (r g b : Byte) (s : State) : (storeAllLEDs r g b s).pres = s.pres := rfl
@[simp] theorem storeAllLEDs_pflag (r g b : Byte) (s : State) : (storeAllLEDs r g b s).pflag = s.pflag := rfl
@[simp] theorem storeAllLEDs_csel (r g b : Byte) (s : State) : (storeAllLEDs r g b s).csel = s.csel := rfl
@[simp] theorem storeAllLEDs_fault (r g b : Byte) (s : State) : (storeAllLEDs r g b s).fault = s.fault := rfl
@[simp] theorem storeAllLEDs_finfo (r g b : Byte) (s : State) : (storeAllLEDs r g b s).finfo = s.finfo := rfl
@[simp] theorem storeAllLEDs_rsp (r g b : Byte) (s : State) : (storeAllLEDs r g b s).rsp = s.rsp := rfl
@[simp] theorem storeAllLEDs_rspValid (r g b : Byte) (s : State) : (storeAllLEDs r g b s).rspValid = s.rspValid := rfl
@[simp] theorem storeAllLEDs_trace (r g b : Byte) (s : State) : (storeAllLEDs r g b s).trace = s.trace := rfl
@[simp] theorem storeAllLEDs_inputs (r g b : Byte) (s : State) : (storeAllLEDs r g b s).inputs = s.inputs := rfl
@[simp] theorem storeAllLEDs_cmdReady (r g b : Byte) (s : State) : (storeAllLEDs r g b s).cmdReady = s.cmdReady := rfl
@[simp] theorem storeAllLEDs_latched (r g b : Byte) (s : State) : (storeAllLEDs r g b s).latched = s.latched := rfl
@[simp] theorem storeAllLEDs_busy (r g b : Byte) (s : State) : (storeAllLEDs r g b s).busy = s.busy := rfl

/-! ### `resetEdge` -/

@[simp] theorem resetEdge_params (s : State) : (resetEdge s).params = s.params := rfl
@[simp] theorem resetEdge_frame (s : State) : (resetEdge s).frame = (State.resetWith s.params).frame := rfl
@[simp] theorem resetEdge_ser (s : State) : (resetEdge s).ser = (State.resetWith s.params).ser := rfl
@[simp] theorem resetEdge_pres (s : State) : (resetEdge s).pres = (State.resetWith s.params).pres := rfl
@[simp] theorem resetEdge_pflag (s : State) : (resetEdge s).pflag = (State.resetWith s.params).pflag := rfl
@[simp] theorem resetEdge_csel (s : State) : (resetEdge s).csel = (State.resetWith s.params).csel := rfl
@[simp] theorem resetEdge_fault (s : State) : (resetEdge s).fault = (State.resetWith s.params).fault := rfl
@[simp] theorem resetEdge_finfo (s : State) : (resetEdge s).finfo = (State.resetWith s.params).finfo := rfl
@[simp] theorem resetEdge_rsp (s : State) : (resetEdge s).rsp = (State.resetWith s.params).rsp := rfl
@[simp] theorem resetEdge_rspValid (s : State) : (resetEdge s).rspValid = (State.resetWith s.params).rspValid := rfl
@[simp] theorem resetEdge_trace (s : State) : (resetEdge s).trace = (State.resetWith s.params).trace := rfl
@[simp] theorem resetEdge_inputs (s : State) : (resetEdge s).inputs = s.inputs := rfl

/-! ### Readiness -/

theorem cmdReady_iff (s : State) : s.cmdReady = true ↔ s.fault = .clear ∧ s.ser.phase = .idle := by
  simp [State.cmdReady]

theorem latched_iff (s : State) : s.latched = true ↔ s.params.resetCyc ≤ s.ser.gapcnt := by simp [State.latched]

theorem busy_iff (s : State) : s.busy = true ↔ s.ser.phase ≠ .idle := by simp [State.busy]

@[simp] theorem enterFault_cmdReady (c : FaultCause) (w : CmdWord) (s : State) (h : c ≠ .clear) :
    (enterFault c w s).cmdReady = false := by simp [State.cmdReady, h]

end Sys2Proof.Machine
end

