-- ==== Sys2Proof/Laws/Ops.lean ====
section
/-!
SUPPORT. What the shared operations can do: continuing an outcome, acceptance (R71), the bound check (R92), the channel order
(R52) and the guarded frame access (R14).
-/

namespace Sys2Proof.Machine

/-! ### Outcomes -/

@[simp] theorem andThen_next (s : State) (f : State → Result) : andThen (.next s) f = f s := rfl

@[simp] theorem andThen_fault (r : Fault) (f : State → Result) : andThen (.fault r) f = .fault r := rfl

@[simp] theorem andThen_refused (r : Refusal) (f : State → Result) : andThen (.refused r) f = .refused r := rfl

/-- A composed outcome is a next state only where both parts are. -/
theorem andThen_eq_next {o : Result} {f : State → Result} {t : State} :
    andThen o f = .next t ↔ ∃ s, o = .next s ∧ f s = .next t := by
  cases o <;> simp

@[simp] theorem nextState?_next (s : State) : nextState? (.next s) = some s := rfl

theorem nextState?_eq_some {o : Result} {t : State} : nextState? o = some t ↔ o = .next t := by
  cases o <;> simp [nextState?]

/-! ### Acceptance and the bound check -/

theorem accept_ready {s : State} (h : s.cmdReady = true) (f : State → Result) : accept s f = f s := if_pos h

theorem accept_notReady {s : State} (h : s.cmdReady = false) (f : State → Result) : accept s f = .next s :=
  if_neg (by simp [h])

theorem boundChecked_in {i : Instr} {idx : LedIndex} {s : State} (h : idx.toNat < s.params.n) (f : State → Result) :
    boundChecked i idx s f = f s := if_pos h

theorem boundChecked_out {i : Instr} {idx : LedIndex} {s : State} (h : s.params.n ≤ idx.toNat) (f : State → Result) :
    boundChecked i idx s f = .next (enterFault .indexRange (encode i) s) := if_neg (by omega)

/-! ### Channel order -/

/-- `unperm(perm(r, g, b)) = (r, g, b)` (R52). -/
theorem unperm_perm (o : WireOrder) (r g b : Byte) :
    unperm o (perm o r g b).1 (perm o r g b).2.1 (perm o r g b).2.2 = (r, g, b) := by cases o <;> rfl

/-- `perm(unperm(b0, b1, b2)) = (b0, b1, b2)` (R52). -/
theorem perm_unperm (o : WireOrder) (b0 b1 b2 : Byte) :
    perm o (unperm o b0 b1 b2).1 (unperm o b0 b1 b2).2.1 (unperm o b0 b1 b2).2.2 = (b0, b1, b2) := by cases o <;> rfl

/-- `perm(0, 0, 0) = (0, 0, 0)` (R95). -/
theorem perm_zero (o : WireOrder) : perm o 0 0 0 = (0, 0, 0) := by cases o <;> rfl

/-! ### Guarded frame access -/

theorem frameBit?_of_lt {s : State} {a : Nat} (h : a < 3 * s.params.n) (j : Nat) :
    frameBit? s a j = some ((s.frame.read a).getLsbD j) := by simp [frameBit?, frameByte?, h]

theorem frameBit?_of_ge {s : State} {a : Nat} (h : 3 * s.params.n ≤ a) (j : Nat) : frameBit? s a j = none := by
  simp [frameBit?, frameByte?, Nat.not_lt.2 h]

/-- The bytes of an LED in bounds are bytes of the frame (R53: `EA(idx) + 2 <= 3*N - 1`). -/
theorem ledOffset_bound {led n : Nat} (h : led < n) : ledOffset led + 2 ≤ 3 * n - 1 := by unfold ledOffset; omega

end Sys2Proof.Machine
end

