-- ==== Sys2Proof/Laws/Commands.lean ====
section
/-!
SUPPORT. One lemma per command: what it does when it is accepted. A later proof cites these and unfolds no meaning.
-/

namespace Sys2Proof.Machine

/-- A command that is not accepted has no effect (R71). -/
theorem exec_notReady {s : State} (h : s.cmdReady = false) (i : Instr) : exec i s = .next s := by
  cases i <;> exact if_neg (by simp [h])

theorem exec_nop {s : State} (h : s.cmdReady = true) : exec .nop s = .next s := if_pos h

theorem exec_set {s : State} (h : s.cmdReady = true) (idx : LedIndex) (r g b : Byte) :
    exec (.set idx r g b) s = if idx.toNat < s.params.n then .next (storeLED idx.toNat r g b s)
      else .next (enterFault .indexRange (encode (.set idx r g b)) s) := if_pos h

theorem exec_setall {s : State} (h : s.cmdReady = true) (r g b : Byte) :
    exec (.setall r g b) s = .next (storeAllLEDs r g b s) := if_pos h

theorem exec_clr {s : State} (h : s.cmdReady = true) (idx : LedIndex) :
    exec (.clr idx) s = if idx.toNat < s.params.n then .next (storeLED idx.toNat 0 0 0 s)
      else .next (enterFault .indexRange (encode (.clr idx)) s) := if_pos h

theorem exec_clrall {s : State} (h : s.cmdReady = true) : exec .clrall s = .next (storeAllLEDs 0 0 0 s) := if_pos h

theorem exec_get {s : State} (h : s.cmdReady = true) (idx : LedIndex) :
    exec (.get idx) s = if idx.toNat < s.params.n then
        .next (respond (colourWord (loadLED idx.toNat s).1 (loadLED idx.toNat s).2.1 (loadLED idx.toNat s).2.2) s)
      else .next (enterFault .indexRange (encode (.get idx)) s) := if_pos h

theorem exec_setpres {s : State} (h : s.cmdReady = true) (v : Bool) :
    exec (.setpres v) s = .next { s with pflag := v } := if_pos h

theorem exec_rdstat {s : State} (h : s.cmdReady = true) (x : Selector) :
    exec (.rdstat x) s = .next (respond (statusWord s x) s) := if_pos h

theorem exec_cnext {s : State} (h : s.cmdReady = true) :
    exec .cnext s = .next { s with csel := nextColour s.params.k s.csel } := if_pos h

/-- `FLUSH` starts its first pulse wherever the frame has a byte (R116, R8). -/
theorem exec_flush {s : State} (h : s.cmdReady = true) (hn : 1 ≤ s.params.n) :
    exec .flush s = .next (startPulse 0 7 0 ((s.frame.read 0).getLsbD 7) s) := by
  show execFlush s = _
  have hb : frameBit? s (0 : BitVec 18).toNat (7 : BitVec 3).toNat = some ((s.frame.read 0).getLsbD 7) :=
    frameBit?_of_lt (a := 0) (by omega) 7
  rw [execFlush, accept_ready h, sendBit, hb]

/-- Every command other than `FLUSH` answers a next state, whatever the state. -/
theorem exec_completes (s : State) {i : Instr} (hi : i ≠ .flush) : ∃ t, exec i s = .next t := by
  rcases Bool.eq_false_or_eq_true s.cmdReady with h | h
  · cases i
    case flush => exact absurd rfl hi
    case nop => exact ⟨_, exec_nop h⟩
    case set => rw [exec_set h]; split <;> exact ⟨_, rfl⟩
    case setall => exact ⟨_, exec_setall h _ _ _⟩
    case clr => rw [exec_clr h]; split <;> exact ⟨_, rfl⟩
    case clrall => exact ⟨_, exec_clrall h⟩
    case get => rw [exec_get h]; split <;> exact ⟨_, rfl⟩
    case setpres => exact ⟨_, exec_setpres h _⟩
    case rdstat => exact ⟨_, exec_rdstat h _⟩
    case cnext => exact ⟨_, exec_cnext h⟩
  · exact ⟨s, exec_notReady h i⟩

/-- Everything a command other than `FLUSH` can leave: the state itself, a fault (R190), a frame written (R93 to R96), a
response (R97, R153), the presence flag (R151) or the cursor (R170). -/
theorem exec_cases {s t : State} {i : Instr} (hi : i ≠ .flush) (h : exec i s = .next t) :
    t = s ∨ (s.cmdReady = true ∧ ((∃ w, t = enterFault .indexRange w s) ∨
      (∃ led r g b, led < s.params.n ∧ t = storeLED led r g b s) ∨ (∃ r g b, t = storeAllLEDs r g b s) ∨
      (∃ v, t = respond v s) ∨ (∃ v, t = { s with pflag := v }) ∨
      t = { s with csel := nextColour s.params.k s.csel })) := by
  rcases Bool.eq_false_or_eq_true s.cmdReady with hr | hr
  · cases i
    case flush => exact absurd rfl hi
    case nop => rw [exec_nop hr] at h; cases h; exact .inl rfl
    case set =>
      rw [exec_set hr] at h
      split at h <;> cases h
      · exact .inr ⟨hr, .inr (.inl ⟨_, _, _, _, by assumption, rfl⟩)⟩
      · exact .inr ⟨hr, .inl ⟨_, rfl⟩⟩
    case setall => rw [exec_setall hr] at h; cases h; exact .inr ⟨hr, .inr (.inr (.inl ⟨_, _, _, rfl⟩))⟩
    case clr =>
      rw [exec_clr hr] at h
      split at h <;> cases h
      · exact .inr ⟨hr, .inr (.inl ⟨_, _, _, _, by assumption, rfl⟩)⟩
      · exact .inr ⟨hr, .inl ⟨_, rfl⟩⟩
    case clrall => rw [exec_clrall hr] at h; cases h; exact .inr ⟨hr, .inr (.inr (.inl ⟨_, _, _, rfl⟩))⟩
    case get =>
      rw [exec_get hr] at h
      split at h <;> cases h
      · exact .inr ⟨hr, .inr (.inr (.inr (.inl ⟨_, rfl⟩)))⟩
      · exact .inr ⟨hr, .inl ⟨_, rfl⟩⟩
    case setpres => rw [exec_setpres hr] at h; cases h; exact .inr ⟨hr, .inr (.inr (.inr (.inr (.inl ⟨_, rfl⟩))))⟩
    case rdstat => rw [exec_rdstat hr] at h; cases h; exact .inr ⟨hr, .inr (.inr (.inr (.inl ⟨_, rfl⟩)))⟩
    case cnext => rw [exec_cnext hr] at h; cases h; exact .inr ⟨hr, .inr (.inr (.inr (.inr (.inr rfl))))⟩
  · rw [exec_notReady hr] at h
    cases h
    exact .inl rfl

/-- All that `FLUSH` can leave at the edge that accepts it: the state itself or a first pulse (R116). -/
theorem exec_flush_cases {s t : State} (h : exec .flush s = .next t) :
    t = s ∨ (s.cmdReady = true ∧ ∃ b, t = startPulse 0 7 0 b s) := by
  rcases Bool.eq_false_or_eq_true s.cmdReady with hr | hr
  · have h : sendBit 0 7 0 s = .next t := by rw [← h]; exact (accept_ready hr _).symm
    unfold sendBit at h
    split at h <;> cases h
    exact .inr ⟨hr, _, rfl⟩
  · rw [exec_notReady hr] at h
    cases h
    exact .inl rfl

end Sys2Proof.Machine
end

