-- ==== Sys2Proof/Laws/Serializer.lean ====
section
/-!
SUPPORT. The bits of a frame (R54, R55) and the serializer's edges, one lemma per case of R117.
-/

namespace Sys2Proof.Machine

/-! ### The bits of a frame -/

@[simp] theorem length_byteBits (v : Byte) : (byteBits v).length = 8 := rfl

/-- The list of eight-element lists, taken apart at an index. -/
theorem flatMap_eight {α : Type} (f : Nat → List α) (hf : ∀ a, (f a).length = 8) (c : Nat) :
    ((List.range c).flatMap f).length = 8 * c ∧
      ∀ k, k < 8 * c → ((List.range c).flatMap f)[k]? = (f (k / 8))[k % 8]? := by
  induction c with
  | zero => exact ⟨rfl, fun k hk => absurd hk (by omega)⟩
  | succ c ih =>
    obtain ⟨hl, hi⟩ := ih
    rw [List.range_succ, List.flatMap_append]
    refine ⟨by simp only [List.length_append, hl, List.flatMap_cons, List.flatMap_nil, List.append_nil, hf]; omega,
      fun k hk => ?_⟩
    rcases Nat.lt_or_ge k (8 * c) with h | h
    · rw [List.getElem?_append_left (by omega)]; exact hi k h
    · rw [List.getElem?_append_right (by omega), hl]
      have h1 : k / 8 = c := by omega
      have h2 : k - 8 * c = k % 8 := by omega
      rw [h1, h2]
      simp

@[simp] theorem length_frameBits (s : State) : (frameBits s).length = 24 * s.params.n := by
  rw [frameBits, (flatMap_eight _ (fun _ => length_byteBits _) _).1]; omega

@[simp] theorem length_flushSymbols (s : State) : (flushSymbols s).length = 24 * s.params.n := by simp [flushSymbols]

theorem byteBits_getElem? (v : Byte) {j : Nat} (h : j < 8) : (byteBits v)[j]? = some (v.getLsbD (7 - j)) := by
  rcases j with _ | _ | _ | _ | _ | _ | _ | _ | j
  all_goals first | rfl | omega

/-- Bit `k` of the frame's sequence (R55). -/
theorem frameBits_getElem? (s : State) {k : Nat} (h : k < 24 * s.params.n) :
    (frameBits s)[k]? = some ((s.frame.read (k / 8)).getLsbD (7 - k % 8)) := by
  rw [frameBits, (flatMap_eight _ (fun _ => length_byteBits _) _).2 k (by omega)]
  exact byteBits_getElem? _ (by omega)

/-- The bits of a frame depend on the parameters and the frame alone. -/
theorem frameBits_congr {s t : State} (hp : s.params = t.params) (hf : s.frame = t.frame) : frameBits s = frameBits t := by
  simp only [frameBits, hp, hf]

/-! ### The edges -/

theorem sendBit_ok {a : BitVec 18} {s : State} (h : a.toNat < 3 * s.params.n) (j : BitVec 3) (gap : Nat) :
    sendBit a j gap s = .next (startPulse a j gap ((s.frame.read a.toNat).getLsbD j.toNat) s) := by
  rw [sendBit, frameBit?_of_lt h]

theorem idleEdge_counts {s : State} (h : s.ser.gapcnt < s.params.resetCyc) :
    idleEdge s = { s with
      ser := { s.ser with dout := false, gapcnt := s.ser.gapcnt + 1 }
      trace := s.trace ++ (if s.ser.gapcnt + 1 = s.params.resetCyc then [.RST] else []) } := by
  unfold idleEdge
  simp only [h, if_true]
  split <;> simp [emit]

theorem idleEdge_saturated {s : State} (h : s.params.resetCyc ≤ s.ser.gapcnt) :
    idleEdge s = { s with ser := { s.ser with dout := false } } := by
  unfold idleEdge
  simp only [Nat.not_lt.2 h, if_false]

/-- What an idle edge can change: `DOUT`, `GAPCNT` and the trace. -/
theorem idleEdge_frame (s : State) : idleEdge s = { s with
    ser := { s.ser with dout := false, gapcnt := (idleEdge s).ser.gapcnt }, trace := (idleEdge s).trace } := by
  rcases Nat.lt_or_ge s.ser.gapcnt s.params.resetCyc with h | h
  · rw [idleEdge_counts h]
  · rw [idleEdge_saturated h]

theorem highEdge_counts {s : State} (h : s.ser.cyc ≠ 0) : highEdge s = .next (countCycle s) := if_pos h

theorem highEdge_falls {s : State} (h : s.ser.cyc = 0) (ha : s.ser.bytePtr.toNat < 3 * s.params.n) :
    highEdge s = .next (startLow ((s.frame.read s.ser.bytePtr.toNat).getLsbD s.ser.bitPtr.toNat) s) := by
  rw [highEdge, if_neg (by simp [h]), frameBit?_of_lt ha]

theorem lowEdge_counts {s : State} (h : s.ser.cyc ≠ 0) : lowEdge s = .next (countCycle s) := if_pos h

theorem lowEdge_ends {s : State} (h : s.ser.cyc = 0) (hl : atLastBit s = true) : lowEdge s = .next (endFlush s) := by
  rw [lowEdge, if_neg (by simp [h]), if_pos hl]

theorem atLastBit_iff (s : State) :
    atLastBit s = true ↔ s.ser.bytePtr.toNat = 3 * s.params.n - 1 ∧ s.ser.bitPtr = 0 := by simp [atLastBit]

theorem lowEdge_nextByte {s : State} (h : s.ser.cyc = 0) (hl : atLastBit s = false) (hb : s.ser.bitPtr = 0) :
    lowEdge s = sendBit (s.ser.bytePtr + 1) 7 s.ser.gapcnt s := by
  rw [lowEdge, if_neg (by simp [h]), if_neg (by simp [hl]), if_pos hb]

theorem lowEdge_nextBit {s : State} (h : s.ser.cyc = 0) (hb : s.ser.bitPtr ≠ 0) :
    lowEdge s = sendBit s.ser.bytePtr (s.ser.bitPtr - 1) s.ser.gapcnt s := by
  rw [lowEdge, if_neg (by simp [h]), if_neg (fun hl => hb ((atLastBit_iff s).1 hl).2), if_neg hb]

/-! ### Frame and dependence of a serializer edge -/

/-- A serializer edge writes the serializer's registers and the trace, and nothing else (R195). -/
theorem serializerEdge_frame {ph : SerPhase} {s t : State} (h : serializerEdge ph s = .next t) :
    t = { s with ser := t.ser, trace := t.trace } := by
  have hs : ∀ a j g, sendBit a j g s = .next t → t = { s with ser := t.ser, trace := t.trace } := by
    intro a j g h
    unfold sendBit at h
    split at h <;> cases h
    rfl
  cases ph with
  | idle =>
    simp only [serializerEdge] at h
    cases h
    split
    · rw [idleEdge_frame]
    · rfl
  | high =>
    simp only [serializerEdge, highEdge] at h
    split at h
    · cases h; rfl
    · split at h <;> cases h
      rfl
  | low =>
    simp only [serializerEdge, lowEdge] at h
    split at h
    · cases h; rfl
    · split at h
      · cases h; rfl
      · split at h <;> exact hs _ _ _ h

theorem idleEdge_congr {s s' : State} (hx : s.ser = s'.ser) (ht : s.trace = s'.trace) (hp : s.params = s'.params) :
    (idleEdge s).ser = (idleEdge s').ser ∧ (idleEdge s).trace = (idleEdge s').trace := by
  rcases Nat.lt_or_ge s.ser.gapcnt s.params.resetCyc with h | h
  · rw [idleEdge_counts h, idleEdge_counts (by rw [← hx, ← hp]; exact h)]
    simp only [hx, ht, hp, and_self]
  · rw [idleEdge_saturated h, idleEdge_saturated (by rw [← hx, ← hp]; exact h)]
    simp only [hx, ht, and_self]

theorem frameBit?_congr {s s' : State} (hp : s.params = s'.params) (hf : s.frame = s'.frame) (a j : Nat) :
    frameBit? s' a j = frameBit? s a j := by simp only [frameBit?, frameByte?, hp, hf]

theorem sendBit_congr {s s' t : State} (ht : s.trace = s'.trace) (hp : s.params = s'.params) (hf : s.frame = s'.frame)
    {a : BitVec 18} {j : BitVec 3} {g : Nat} (h : sendBit a j g s = .next t) :
    ∃ u, sendBit a j g s' = .next u ∧ t.ser = u.ser ∧ t.trace = u.trace := by
  unfold sendBit at h ⊢
  rw [frameBit?_congr hp hf]
  split at h
  · cases h
    exact ⟨_, rfl, by simp [startPulse, hp], by simp [startPulse, ht]⟩
  · cases h

/-- What a serializer edge does to the line depends on the line, the parameters and the frame alone (R195). -/
theorem serializerEdge_congr {ph : SerPhase} {s s' t : State} (hx : s.ser = s'.ser) (ht : s.trace = s'.trace)
    (hp : s.params = s'.params) (hf : s.frame = s'.frame) (h : serializerEdge ph s = .next t) :
    ∃ u, serializerEdge ph s' = .next u ∧ t.ser = u.ser ∧ t.trace = u.trace := by
  have hl : atLastBit s' = atLastBit s := by simp only [atLastBit, hx, hp]
  cases ph with
  | idle =>
    simp only [serializerEdge] at h ⊢
    cases h
    rw [← hx]
    split
    · exact ⟨_, rfl, idleEdge_congr hx ht hp⟩
    · exact ⟨_, rfl, hx, ht⟩
  | high =>
    simp only [serializerEdge, highEdge] at h ⊢
    rw [frameBit?_congr hp hf, ← hx]
    split at h
    case isTrue hc => cases h; exact ⟨_, if_pos hc, by simp [countCycle, hx], ht⟩
    case isFalse hc =>
      rw [if_neg hc]
      split at h
      · cases h
        exact ⟨_, rfl, by simp [startLow, hx, hp], ht⟩
      · cases h
  | low =>
    simp only [serializerEdge, lowEdge] at h ⊢
    rw [hl, ← hx]
    split at h
    case isTrue hc => cases h; exact ⟨_, if_pos hc, by simp [countCycle, hx], ht⟩
    case isFalse hc =>
      rw [if_neg hc]
      split at h
      case isTrue hb => cases h; rw [if_pos hb]; exact ⟨_, rfl, by simp [endFlush, hx], ht⟩
      case isFalse hb =>
        rw [if_neg hb]
        split at h
        case isTrue h0 => rw [if_pos h0]; exact sendBit_congr ht hp hf h
        case isFalse h0 => rw [if_neg h0]; exact sendBit_congr ht hp hf h

end Sys2Proof.Machine
end

