-- ==== Sys2Proof/Laws/Edge.lean ====
section
/-!
SUPPORT. What one clock edge can do: the inversion lemma of the step.
-/

namespace Sys2Proof.Machine

theorem clockEdge_reset {p : Pins} (h : p.rst = true) (s : State) : clockEdge p s = .next (resetEdge s) := if_pos h

/-- A presented word that is not accepted has no effect (R71). -/
theorem presentWord_notReady {s : State} (h : s.cmdReady = false) (w : CmdWord) : presentWord w s = .next s :=
  accept_notReady h _

/-- An accepted legal word runs its command (R90). -/
theorem presentWord_ok {s : State} {w : CmdWord} {i : Instr} (h : s.cmdReady = true) (hw : decode w = .ok i) :
    presentWord w s = exec i s := by rw [presentWord, accept_ready h, executeWord, hw]

/-- An accepted illegal word raises `ILLEGAL_CMD` and changes nothing else (R79). -/
theorem presentWord_illegal {s : State} {w : CmdWord} {e : IllegalWord} (h : s.cmdReady = true)
    (hw : decode w = .error e) : presentWord w s = .next (enterFault .illegalCmd w s) := by
  rw [presentWord, accept_ready h, executeWord, hw]; rfl

/-- The parts of an edge without reset: the port, the serializer, the tick (R188). -/
theorem clockEdge_eq_next {p : Pins} {s t : State} (hr : p.rst = false) :
    clockEdge p s = .next t ↔ ∃ s1 s2,
      (if p.cmdValid then presentWord p.cmd (clearStrobe s) else .next (clearStrobe s)) = .next s1 ∧
      serializerEdge s.ser.phase s1 = .next s2 ∧ t = (if p.tick then tickAt s s2 else s2) := by
  rw [clockEdge, if_neg (by simp [hr]), andThen_eq_next]
  simp only [andThen_eq_next]
  constructor
  · rintro ⟨s1, h1, s2, h2, h3⟩; cases h3; exact ⟨s1, s2, h1, h2, rfl⟩
  · rintro ⟨s1, s2, h1, h2, rfl⟩; exact ⟨s1, h1, s2, h2, rfl⟩

/-- An edge during a flush: no command is accepted, and the serializer goes on (R117, R41). -/
theorem clockEdge_busy {p : Pins} {s : State} (hr : p.rst = false) (hb : s.ser.phase ≠ .idle) :
    clockEdge p s = andThen (serializerEdge s.ser.phase (clearStrobe s)) fun s2 =>
      .next (if p.tick then tickAt s s2 else s2) := by
  have hn : (clearStrobe s).cmdReady = false := by simp [State.cmdReady, hb]
  rw [clockEdge, if_neg (by simp [hr]), presentWord_notReady hn]
  simp

/-- An edge in `IDLE` at which no word is accepted (R117, R71). -/
theorem clockEdge_idle {p : Pins} {s : State} (hr : p.rst = false) (hi : s.ser.phase = .idle)
    (ha : p.cmdValid = false ∨ s.fault ≠ .clear) :
    clockEdge p s = .next (if p.tick then tickAt s (idleEdge (clearStrobe s)) else idleEdge (clearStrobe s)) := by
  have h1 : (if p.cmdValid then presentWord p.cmd (clearStrobe s) else .next (clearStrobe s))
      = (.next (clearStrobe s) : Result) := by
    rcases ha with h | h
    · simp [h]
    · rw [presentWord_notReady (by simp [State.cmdReady, h])]; simp
  rw [clockEdge, if_neg (by simp [hr]), h1, andThen_next, hi, serializerEdge]
  simp [hi]

/-- An edge that accepts a word (R71, R188). -/
theorem clockEdge_accepts {p : Pins} {s s1 : State} (hr : p.rst = false) (hv : p.cmdValid = true)
    (hs : s.cmdReady = true) (h1 : executeWord p.cmd (clearStrobe s) = .next s1) :
    clockEdge p s = .next (if p.tick then tickAt s (if s1.ser.phase = .idle then idleEdge s1 else s1)
      else if s1.ser.phase = .idle then idleEdge s1 else s1) := by
  have hi := ((cmdReady_iff s).1 hs).2
  rw [clockEdge, if_neg (by simp [hr]), if_pos hv, presentWord, accept_ready (by simpa using hs), h1, andThen_next, hi]
  rfl

/-! ### Inversion -/

theorem accepts_iff {p : Pins} {s : State} :
    accepts p s = true ↔ p.cmdValid = true ∧ s.cmdReady = true ∧ p.rst = false := by simp [accepts, and_assoc]

/-- All that the command port can do at an edge: nothing is accepted, an illegal word faults, or a command runs (R71, R90). -/
theorem port_cases {p : Pins} {s s1 : State} (hr : p.rst = false)
    (h : (if p.cmdValid then presentWord p.cmd (clearStrobe s) else .next (clearStrobe s)) = .next s1) :
    (accepts p s = false ∧ s1 = clearStrobe s) ∨
    (accepts p s = true ∧ (∃ e, decode p.cmd = .error e) ∧ s1 = enterFault .illegalCmd p.cmd (clearStrobe s)) ∨
    (accepts p s = true ∧ ∃ i, decode p.cmd = .ok i ∧ exec i (clearStrobe s) = .next s1) := by
  cases hv : p.cmdValid with
  | false =>
    simp only [hv] at h
    cases h
    exact .inl ⟨by simp [accepts, hv], rfl⟩
  | true =>
    simp only [hv, if_true] at h
    rcases Bool.eq_false_or_eq_true s.cmdReady with hk | hk
    · right
      have ha : accepts p s = true := by simp [accepts, hv, hk, hr]
      cases hd : decode p.cmd with
      | error e =>
        rw [presentWord_illegal (s := clearStrobe s) hk hd] at h
        cases h
        exact .inl ⟨ha, ⟨_, rfl⟩, rfl⟩
      | ok i =>
        rw [presentWord_ok (s := clearStrobe s) hk hd] at h
        exact .inr ⟨ha, i, rfl, h⟩
    · rw [presentWord_notReady (s := clearStrobe s) hk] at h
      cases h
      exact .inl ⟨by simp [accepts, hk], rfl⟩

/-- An edge, but for the line and the presence registers, is what the port did (R188, R195). -/
theorem clockEdge_port {p : Pins} {s t : State} (hr : p.rst = false) (h : clockEdge p s = .next t) :
    ∃ s1, (if p.cmdValid then presentWord p.cmd (clearStrobe s) else .next (clearStrobe s)) = .next s1 ∧
      t = { s1 with
        ser := t.ser, trace := t.trace
        pres := if p.tick then tickPresence s.params s.pflag s.pres else s1.pres } := by
  obtain ⟨s1, s2, h1, h2, rfl⟩ := (clockEdge_eq_next hr).1 h
  have := serializerEdge_frame h2
  refine ⟨s1, h1, ?_⟩
  split
  · rw [this]; rfl
  · rw [this]

/-- An edge during a flush, but for the line, leaves everything but the strobe and, with a tick, the presence registers. -/
theorem clockEdge_busy_rest {p : Pins} {s t : State} (hr : p.rst = false) (hb : s.busy = true)
    (h : clockEdge p s = .next t) :
    t = { s with
      ser := t.ser, trace := t.trace, rspValid := false
      pres := if p.tick then tickPresence s.params s.pflag s.pres else s.pres } := by
  obtain ⟨s1, h1, ht⟩ := clockEdge_port hr h
  have hn : accepts p s = false := by
    have := (busy_iff s).1 hb
    simp [accepts, State.cmdReady, this]
  rcases port_cases hr h1 with ⟨_, rfl⟩ | ⟨ha, _⟩ | ⟨ha, _⟩
  · exact ht
  · rw [hn] at ha; cases ha
  · rw [hn] at ha; cases ha

/-- The edges of two lists of cycles, one after the other. -/
theorem clockEdges_append (ps qs : List Pins) (s : State) :
    clockEdges (ps ++ qs) s = andThen (clockEdges ps s) (clockEdges qs) := by
  induction ps generalizing s with
  | nil => rfl
  | cons p ps ih =>
    simp only [List.cons_append, clockEdges]
    cases h : clockEdge p s <;> simp [ih]

/-- An event-level command in a ready block is executed. -/
theorem eventStep_ready {s : State} (h : s.cmdReady = true) (w : CmdWord) :
    eventStep (.cmd w) s = executeWordWhole w (clearStrobe s) := if_pos h

/-- An event-level command in a block that is not ready is no step. -/
theorem eventStep_notReady {s : State} (h : s.cmdReady = false) (w : CmdWord) :
    eventStep (.cmd w) s = .refused .commandNotReady := by simp [eventStep, h]

/-- Two scripts, one after the other. -/
theorem eventSteps_append (es fs : List Event) (s : State) :
    eventSteps (es ++ fs) s = andThen (eventSteps es s) (eventSteps fs) := by
  induction es generalizing s with
  | nil => rfl
  | cons e es ih =>
    simp only [List.cons_append, eventSteps]
    cases h : eventStep e s <;> simp [ih]

end Sys2Proof.Machine
end

