-- ==== Sys2Proof/Laws/Presence.lean ====
section
/-!
SUPPORT. The tick of the presence unit, one lemma per case of R141 and one for the carry chain of R142.
-/

namespace Sys2Proof.Machine

theorem tickPresence_true (p : Params) (q : Presence) : tickPresence p true q = presentTick p q := rfl

/-- R147. -/
theorem tickPresence_absent (p : Params) {q : Presence} (h : q.mode = .absent) : tickPresence p false q = q := by
  simp [tickPresence, h]

/-- R144, R145. -/
theorem tickPresence_session (p : Params) {q : Presence} (h : q.mode ≠ .absent) :
    tickPresence p false q = graceTick p q := by
  cases hq : q.mode <;> simp_all [tickPresence]

theorem graceTick_ends {p : Params} {q : Presence} (h : p.graceTicks ≤ q.grace.toNat + 1) :
    graceTick p q = .reset := if_pos h

theorem graceTick_goesOn {p : Params} {q : Presence} (h : q.grace.toNat + 1 < p.graceTicks) :
    graceTick p q = { q with mode := .grace, grace := q.grace + 1 } := if_neg (by omega)

@[simp] theorem countTick_mode (p : Params) (q : Presence) : (countTick p q).mode = q.mode := by
  unfold countTick nextSecond; split_ifs <;> rfl

@[simp] theorem countTick_grace (p : Params) (q : Presence) : (countTick p q).grace = q.grace := by
  unfold countTick nextSecond; split_ifs <;> rfl

@[simp] theorem presentTick_mode (p : Params) (q : Presence) : (presentTick p q).mode = .present := by
  simp [presentTick]

@[simp] theorem presentTick_grace (p : Params) (q : Presence) : (presentTick p q).grace = 0 := by
  simp [presentTick]

/-- An 8-bit register below its top value counts without wrapping (R160). -/
theorem succ8_toNat {x : BitVec 8} (h : x.toNat < 255) : (x + 1).toNat = x.toNat + 1 := by
  rw [BitVec.toNat_add]
  exact Nat.mod_eq_of_lt (show x.toNat + 1 < 2 ^ 8 by omega)

/-- A 6-bit register below its top value counts without wrapping (R160). -/
theorem succ6_toNat {x : BitVec 6} (h : x.toNat < 63) : (x + 1).toNat = x.toNat + 1 := by
  rw [BitVec.toNat_add]
  exact Nat.mod_eq_of_lt (show x.toNat + 1 < 2 ^ 6 by omega)

/-- The carry chain of R142 in numbers: `SUBTICK` wraps at `TPS` into `SECONDS`, which wraps at 60 into `MINUTES`, which
wraps at 60. -/
theorem countTick_toNat {p : Params} {q : Presence} (hp : 1 ≤ p.tps ∧ p.tps ≤ 255) (h1 : q.subtick.toNat < p.tps)
    (h2 : q.seconds.toNat < 60) (h3 : q.minutes.toNat < 60) :
    (countTick p q).subtick.toNat = (if q.subtick.toNat = p.tps - 1 then 0 else q.subtick.toNat + 1) ∧
      (countTick p q).seconds.toNat = (if q.subtick.toNat = p.tps - 1 then
        (if q.seconds.toNat = 59 then 0 else q.seconds.toNat + 1) else q.seconds.toNat) ∧
      (countTick p q).minutes.toNat = (if q.subtick.toNat = p.tps - 1 ∧ q.seconds.toNat = 59 then
        (if q.minutes.toNat = 59 then 0 else q.minutes.toNat + 1) else q.minutes.toNat) := by
  have e1 : q.subtick.toNat ≠ p.tps - 1 → (q.subtick + 1).toNat = q.subtick.toNat + 1 :=
    fun h => succ8_toNat (by omega)
  have e2 : (q.seconds + 1).toNat = q.seconds.toNat + 1 := succ6_toNat (by omega)
  have e3 : (q.minutes + 1).toNat = q.minutes.toNat + 1 := succ6_toNat (by omega)
  unfold countTick
  split
  case isFalse h => exact ⟨e1 h, rfl, by rw [if_neg (fun c => h c.1)]⟩
  case isTrue h =>
    unfold nextSecond secMod
    split
    case isFalse h' => exact ⟨by simp, by simp_all, by simp_all⟩
    case isTrue h' =>
      refine ⟨by simp, by simp_all, ?_⟩
      unfold nextMinute minMod
      split <;> simp_all

end Sys2Proof.Machine
end

