-- ==== Sys2Proof/Laws/Invariant.lean ====
section
/-!
SUPPORT. The parts of the block keep the invariant of R48: the tick, the commands, the port and each serializer edge.
-/

namespace Sys2Proof.Machine

/-- The tick keeps the presence invariant (R48 I2 to I5). -/
theorem presenceOk_tick {p : Params} {q : Presence} (hp : p.ok) (hq : PresenceOk p q) (f : Bool) :
    PresenceOk p (tickPresence p f q) := by
  obtain ⟨hn, -, -, -, -, ht, hg, -, -⟩ := hp
  obtain ⟨h1, h2, h3, h4, h5, h6, h7⟩ := hq
  cases f with
  | true =>
    rw [tickPresence_true]
    have hc := countTick_toNat (q := { q with mode := .present, grace := 0 }) ⟨by omega, ht.2⟩ h4 h5 h6
    simp only at hc
    refine ⟨by simp, by simp, by simp, ?_, ?_, ?_, ?_⟩
    · rw [presentTick, hc.1]; split <;> omega
    · rw [presentTick, hc.2.1]; split_ifs <;> omega
    · rw [presentTick, hc.2.2]; split_ifs <;> omega
    · simp; omega
  | false =>
    by_cases hm : q.mode = .absent
    · rw [tickPresence_absent p hm]; exact ⟨h1, h2, h3, h4, h5, h6, h7⟩
    · rw [tickPresence_session p hm]
      rcases Nat.lt_or_ge (q.grace.toNat + 1) p.graceTicks with h | h
      · rw [graceTick_goesOn h]
        have := succ8_toNat (x := q.grace) (by omega)
        refine ⟨by simp, by simp, ?_, h4, h5, h6, ?_⟩ <;> simp only [this] <;> omega
      · rw [graceTick_ends h]
        refine ⟨fun _ => rfl, fun _ => rfl, fun h => (by cases h), ?_, ?_, ?_, ?_⟩ <;> simp [Presence.reset] <;> omega

/-- A store in bounds keeps the frame invariant (R48 I10). -/
theorem frameOk_storeTriple {p : Params} {m : Memory} (h : FrameOk p m) {led : Nat} (hl : led < p.n) (t : Byte × Byte × Byte) :
    FrameOk p (storeTriple led t m) :=
  ⟨storeTriple_wf h.1 led t, fun c hc => by
    rcases mem_storeTriple hc with h1 | h1
    · omega
    · exact h.2 c h1⟩

/-- The loop of `SETALL` keeps the frame invariant. -/
theorem frameOk_storeTriples {p : Params} {m : Memory} (h : FrameOk p m) (t : Byte × Byte × Byte) :
    FrameOk p (storeTriples t m p.n) :=
  ⟨storeTriples_wf h.1 t p.n, fun c hc => by
    rcases mem_storeTriples hc with h1 | h1
    · exact h1
    · exact h.2 c h1⟩

/-- The cursor counts modulo K (R170). -/
theorem nextColour_toNat {k : Nat} {c : BitVec 8} (hk : k ≤ 256) (hc : c.toNat < k) :
    (nextColour k c).toNat = (c.toNat + 1) % k := by
  unfold nextColour
  split
  case isTrue h => rw [h, Nat.sub_add_cancel (by omega), Nat.mod_self]; rfl
  case isFalse h => rw [succ8_toNat (by omega), Nat.mod_eq_of_lt (by omega)]

/-- A command other than `FLUSH` keeps the invariant. -/
theorem inv_exec {s t : State} {i : Instr} (hs : s.Inv) (hi : i ≠ .flush) (h : exec i s = .next t) : t.Inv := by
  obtain ⟨hp, hf, hq, hx, hc, hfa⟩ := hs
  rcases exec_cases hi h with rfl | ⟨hr, h⟩
  · exact ⟨hp, hf, hq, hx, hc, hfa⟩
  · obtain ⟨hclr, hidle⟩ := (cmdReady_iff s).1 hr
    rcases h with ⟨w, rfl⟩ | ⟨led, r, g, b, hl, rfl⟩ | ⟨r, g, b, rfl⟩ | ⟨v, rfl⟩ | ⟨v, rfl⟩ | rfl
    · exact ⟨hp, hf, hq, hx, hc, by simp [FaultOk, hidle]⟩
    · exact ⟨hp, frameOk_storeTriple hf hl _, hq, hx, hc, hfa⟩
    · exact ⟨hp, frameOk_storeTriples hf _, hq, hx, hc, hfa⟩
    · exact ⟨hp, hf, hq, hx, hc, hfa⟩
    · exact ⟨hp, hf, hq, hx, hc, hfa⟩
    · refine ⟨hp, hf, hq, hx, ?_, hfa⟩
      have hk := hp.2.2.2.2.2.2.2.1
      show (nextColour s.params.k s.csel).toNat < s.params.k
      rw [nextColour_toNat hk.2 hc]; exact Nat.mod_lt _ (by omega)

/-- A high phase has at least one cycle and at most the longest phase (R8). -/
theorem highCycles_bound {p : Params} (hp : p.ok) (b : Bool) : 1 ≤ highCycles p b ∧ highCycles p b ≤ longestPhase p := by
  obtain ⟨-, h, h2, h3, -⟩ := hp
  unfold highCycles longestPhase; cases b <;> simp <;> omega

/-- A low phase has at least one cycle and at most the longest phase (R8). -/
theorem lowCycles_bound {p : Params} (hp : p.ok) (b : Bool) : 1 ≤ lowCycles p b ∧ lowCycles p b ≤ longestPhase p := by
  obtain ⟨-, h, h2, h3, -⟩ := hp
  unfold lowCycles longestPhase; cases b <;> simp <;> omega

/-- The beginning of a pulse keeps the invariant. -/
theorem inv_startPulse {s : State} (hs : s.Inv) {a : BitVec 18} (ha : a.toNat < 3 * s.params.n) (hf : s.fault = .clear)
    (j : BitVec 3) (b : Bool) : (startPulse a j 0 b s).Inv := by
  obtain ⟨hp, hfr, hq, hx, hc, hfa⟩ := hs
  have := highCycles_bound hp b
  refine ⟨hp, hfr, hq, ⟨by simp [startPulse], fun _ => ⟨ha, rfl⟩, ?_, Nat.zero_le _⟩, hc, ⟨hfa.1, fun h => absurd hf h⟩⟩
  show highCycles s.params b - 1 < longestPhase s.params; omega

/-- An idle edge keeps the invariant. -/
theorem inv_idleEdge {s : State} (hs : s.Inv) (hi : s.ser.phase = .idle) : (idleEdge s).Inv := by
  obtain ⟨hp, hfr, hq, hx, hc, hfa⟩ := hs
  rcases Nat.lt_or_ge s.ser.gapcnt s.params.resetCyc with h | h
  · rw [idleEdge_counts h]
    exact ⟨hp, hfr, hq, ⟨by simp [hi], by simp [hi], hx.2.2.1, h⟩, hc, hfa⟩
  · rw [idleEdge_saturated h]
    exact ⟨hp, hfr, hq, ⟨by simp [hi], by simp [hi], hx.2.2.1, hx.2.2.2⟩, hc, hfa⟩

/-- A flush runs only in an unfaulted block (R190). -/
theorem fault_clear_of_busy {s : State} (hs : s.Inv) (hb : s.ser.phase ≠ .idle) : s.fault = .clear := by
  by_contra h; exact hb (hs.2.2.2.2.2.2 h)

/-- Counting down a phase keeps the invariant. -/
theorem inv_countCycle {s : State} (hs : s.Inv) : (countCycle s).Inv := by
  obtain ⟨hp, hfr, hq, hx, hc, hfa⟩ := hs
  exact ⟨hp, hfr, hq, ⟨hx.1, hx.2.1, by have := hx.2.2.1; simp only [countCycle]; omega, hx.2.2.2⟩, hc, hfa⟩

/-- An edge in `HIGH` answers a next state and keeps the invariant. -/
theorem highEdge_next {s : State} (hs : s.Inv) (hh : s.ser.phase = .high) :
    ∃ t, highEdge s = .next t ∧ t.Inv := by
  by_cases hc : s.ser.cyc = 0
  · have ha := (hs.2.2.2.1.2.1 (by simp [hh])).1
    refine ⟨_, highEdge_falls hc ha, ?_⟩
    have hfz := fault_clear_of_busy hs (by simp [hh])
    obtain ⟨hp, hfr, hq, hx, hcs, hfa⟩ := hs
    have := lowCycles_bound hp ((s.frame.read s.ser.bytePtr.toNat).getLsbD s.ser.bitPtr.toNat)
    refine ⟨hp, hfr, hq, ⟨by simp [startLow], fun _ => hx.2.1 (by simp [hh]), ?_, hx.2.2.2⟩, hcs, ⟨hfa.1, fun h => absurd hfz h⟩⟩
    simp only [startLow]; omega
  · exact ⟨_, highEdge_counts hc, inv_countCycle hs⟩

/-- An edge in `LOW` answers a next state and keeps the invariant. -/
theorem lowEdge_next {s : State} (hs : s.Inv) (hh : s.ser.phase = .low) :
    ∃ t, lowEdge s = .next t ∧ t.Inv := by
  obtain ⟨ha, hg⟩ := hs.2.2.2.1.2.1 (by simp [hh])
  have hfz := fault_clear_of_busy hs (by simp [hh])
  by_cases hc : s.ser.cyc = 0
  · cases hl : atLastBit s with
    | true =>
      refine ⟨_, lowEdge_ends hc hl, ?_⟩
      obtain ⟨hp, hfr, hq, hx, hcs, hfa⟩ := hs
      exact ⟨hp, hfr, hq, ⟨by simp [endFlush], fun h => absurd rfl h, hx.2.2.1, Nat.zero_le _⟩, hcs, ⟨hfa.1, fun h => absurd hfz h⟩⟩
    | false =>
      by_cases hb : s.ser.bitPtr = 0
      · have hlt : (s.ser.bytePtr + 1).toNat < 3 * s.params.n := by
          have h1 : ¬ (s.ser.bytePtr.toNat = 3 * s.params.n - 1) := fun h => by
            have := (atLastBit_iff s).2 ⟨h, hb⟩; simp [hl] at this
          have := hs.1.1.2
          rw [BitVec.toNat_add]; show (s.ser.bytePtr.toNat + 1) % 2^18 < _
          rw [Nat.mod_eq_of_lt] <;> omega
        refine ⟨_, by rw [lowEdge_nextByte hc hl hb, sendBit_ok hlt], ?_⟩
        rw [hg]; exact inv_startPulse hs hlt hfz _ _
      · refine ⟨_, by rw [lowEdge_nextBit hc hb, sendBit_ok ha], ?_⟩
        rw [hg]; exact inv_startPulse hs ha hfz _ _
  · exact ⟨_, lowEdge_counts hc, inv_countCycle hs⟩

/-- The tick at an edge keeps the invariant. -/
theorem inv_tickAt {s s2 : State} (hs : s.Inv) (h2 : s2.Inv) (hp : s2.params = s.params) : (tickAt s s2).Inv := by
  obtain ⟨a,b,c,d,e,f⟩ := h2
  refine ⟨a,b,?_,d,e,f⟩
  show PresenceOk s2.params (tickPresence s.params s.pflag s.pres)
  rw [hp]; exact presenceOk_tick hs.1 hs.2.2.1 _

/-- The port answers a next state for every word, and keeps the invariant. -/
theorem presentWord_next {s : State} (hs : s.Inv) (w : CmdWord) : ∃ t, presentWord w s = .next t ∧ t.Inv ∧ t.params = s.params := by
  rcases Bool.eq_false_or_eq_true s.cmdReady with hr | hr
  · cases hd : decode w with
    | error e =>
      refine ⟨_, presentWord_illegal hr hd, ?_, rfl⟩
      obtain ⟨a,b,c,d,e,f⟩ := hs
      exact ⟨a,b,c,d,e, by simp [FaultOk, ((cmdReady_iff s).1 hr).2]⟩
    | ok i =>
      rw [presentWord_ok hr hd]
      by_cases hi : i = .flush
      · subst hi
        refine ⟨_, exec_flush hr hs.1.1.1, inv_startPulse hs ?_ ((cmdReady_iff s).1 hr).1 _ _, rfl⟩
        have := hs.1.1.1
        show 0 < _; omega
      · obtain ⟨t, ht⟩ := exec_completes s hi
        refine ⟨t, ht, inv_exec hs hi ht, ?_⟩
        rcases exec_cases hi ht with rfl | ⟨-, h⟩
        · rfl
        · rcases h with ⟨w, rfl⟩ | ⟨led, r, g, b, hl, rfl⟩ | ⟨r, g, b, rfl⟩ | ⟨v, rfl⟩ | ⟨v, rfl⟩ | rfl <;> rfl
  · exact ⟨s, presentWord_notReady hr w, hs, rfl⟩

/-- No edge changes the parameters (R11). -/
theorem params_highEdge {s t : State} (h : highEdge s = .next t) : t.params = s.params := by
  unfold highEdge at h; split at h
  · cases h; rfl
  · split at h <;> cases h; rfl
theorem params_sendBit {a j g} {s t : State} (h : sendBit a j g s = .next t) : t.params = s.params := by
  unfold sendBit at h; split at h <;> cases h; rfl
theorem params_lowEdge {s t : State} (h : lowEdge s = .next t) : t.params = s.params := by
  unfold lowEdge at h; split at h
  · cases h; rfl
  · split at h
    · cases h; rfl
    · split at h <;> exact params_sendBit h

end Sys2Proof.Machine
end

