-- ==== Sys2Proof/Laws/Line.lean ====
section
/-!
SUPPORT. What one clock edge can do to the line: to the serializer's registers and the trace (R116, R117, R121), and what it
does with everything else (R188, R195). Invariants of the trace follow from this one inversion lemma.
-/

namespace Sys2Proof.Machine

/-- The bit the serializer is sending (R113). -/
abbrev currentBit (s : State) : Bool := (s.frame.read s.ser.bytePtr.toNat).getLsbD s.ser.bitPtr.toNat

/-- The symbol an idle edge emits: `RST` where `GAPCNT` reaches `RESET_CYC` (R117). -/
abbrev gapSymbols (s : State) : List Symbol := if s.ser.gapcnt + 1 = s.params.resetCyc then [.RST] else []

/-- The cases of an edge for the line. `t` is the state after an edge from `s`. -/
inductive LineStep (p : Pins) (s t : State) : Prop
  /-- `IDLE`, no `FLUSH` accepted. -/
  | idles (hi : s.ser.phase = .idle) (hf : startsFlush p s = false)
      (hx : t.ser = { s.ser with dout := false, gapcnt := min (s.ser.gapcnt + 1) s.params.resetCyc })
      (ht : t.trace = s.trace ++ gapSymbols s)
  /-- A `FLUSH` is accepted. -/
  | starts (hi : s.ser.phase = .idle) (hf : startsFlush p s = true)
      (hx : t.ser = { phase := .high, bytePtr := 0, bitPtr := 7, gapcnt := 0, dout := true,
                      cyc := highCycles s.params ((s.frame.read 0).getLsbD 7) - 1 })
      (ht : t.trace = s.trace ++ [sym ((s.frame.read 0).getLsbD 7)])
  /-- A phase goes on. -/
  | counts (hb : s.ser.phase ≠ .idle) (hc : s.ser.cyc ≠ 0)
      (hx : t.ser = { s.ser with cyc := s.ser.cyc - 1 }) (ht : t.trace = s.trace)
  /-- A high phase ends. -/
  | falls (hb : s.ser.phase = .high) (hc : s.ser.cyc = 0)
      (hx : t.ser = { s.ser with phase := .low, cyc := lowCycles s.params (currentBit s) - 1, dout := false })
      (ht : t.trace = s.trace)
  /-- The last low phase ends. -/
  | ends (hb : s.ser.phase = .low) (hc : s.ser.cyc = 0) (hl : bitIndex s + 1 = 24 * s.params.n)
      (hx : t.ser = { phase := .idle, bytePtr := s.ser.bytePtr, bitPtr := s.ser.bitPtr, cyc := s.ser.cyc, gapcnt := 0,
                      dout := false })
      (ht : t.trace = s.trace)
  /-- The next pulse begins, that of the next bit. -/
  | rises (hb : s.ser.phase = .low) (hc : s.ser.cyc = 0) (hl : bitIndex s + 1 < 24 * s.params.n)
      (hn : bitIndex t = bitIndex s + 1)
      (hx : t.ser = { phase := .high, bytePtr := t.ser.bytePtr, bitPtr := t.ser.bitPtr, gapcnt := 0, dout := true,
                      cyc := highCycles s.params (currentBit t) - 1 })
      (ht : t.trace = s.trace ++ [sym (currentBit t)])

theorem min_succ (g r : Nat) (h : g < r) : min (g + 1) r = g + 1 := Nat.min_eq_left h

/-- An idle edge for the line. -/
theorem idleEdge_line {s : State} (h : s.ser.gapcnt ≤ s.params.resetCyc) :
    (idleEdge s).ser = { s.ser with dout := false, gapcnt := min (s.ser.gapcnt + 1) s.params.resetCyc } ∧
      (idleEdge s).trace = s.trace ++ gapSymbols s := by
  rcases Nat.lt_or_ge s.ser.gapcnt s.params.resetCyc with h1 | h1
  · rw [idleEdge_counts h1, min_succ _ _ h1]
    exact ⟨rfl, rfl⟩
  · have h2 : s.ser.gapcnt + 1 ≠ s.params.resetCyc := by omega
    rw [idleEdge_saturated h1]
    refine ⟨?_, by simp [gapSymbols, h2]⟩
    show ({ s.ser with dout := false } : Serializer) = _
    have h3 : min (s.ser.gapcnt + 1) s.params.resetCyc = s.ser.gapcnt := by omega
    rw [h3]

theorem bitPtr_lt (s : State) : s.ser.bitPtr.toNat < 8 := s.ser.bitPtr.isLt

/-- The bit before 0 of the next byte, or the bit below: the index goes up by one (R113). -/
theorem lowEdge_line {s t : State} (hs : s.Inv) (hl : s.ser.phase = .low) (h : lowEdge s = .next t) (p : Pins) :
    LineStep p s t := by
  obtain ⟨ha, hg⟩ := hs.2.2.2.1.2.1 (by simp [hl])
  have hj := bitPtr_lt s
  by_cases hc : s.ser.cyc = 0
  · cases hb : atLastBit s with
    | true =>
      rw [lowEdge_ends hc hb] at h
      cases h
      obtain ⟨h1, h2⟩ := (atLastBit_iff s).1 hb
      have h3 : s.ser.bitPtr.toNat = 0 := by rw [h2]; rfl
      have hn := hs.1.1.1
      exact .ends hl hc (by unfold bitIndex; omega) rfl rfl
    | false =>
      by_cases h0 : s.ser.bitPtr = 0
      · have h1 : s.ser.bytePtr.toNat ≠ 3 * s.params.n - 1 := fun h1 => by
          have := (atLastBit_iff s).2 ⟨h1, h0⟩
          simp [hb] at this
        have h2 : (s.ser.bytePtr + 1).toNat = s.ser.bytePtr.toNat + 1 := by
          have := hs.1.1.2
          rw [BitVec.toNat_add]
          exact Nat.mod_eq_of_lt (show s.ser.bytePtr.toNat + 1 < 2 ^ 18 by omega)
        have h3 : s.ser.bitPtr.toNat = 0 := by rw [h0]; rfl
        have h4 : (7 : BitVec 3).toNat = 7 := rfl
        rw [lowEdge_nextByte hc hb h0, sendBit_ok (by omega)] at h
        cases h
        refine .rises hl hc (by unfold bitIndex; omega) ?_ ?_ rfl
        · show 8 * (s.ser.bytePtr + 1).toNat + (7 - (7 : BitVec 3).toNat) = _
          unfold bitIndex
          omega
        · simp only [startPulse, emit, hg]
      · have h1 : s.ser.bitPtr.toNat ≠ 0 := fun h1 => h0 (BitVec.eq_of_toNat_eq h1)
        have h2 : (s.ser.bitPtr - 1).toNat = s.ser.bitPtr.toNat - 1 := by
          rw [BitVec.toNat_sub]
          show (2 ^ 3 - 1 + s.ser.bitPtr.toNat) % 2 ^ 3 = _
          omega
        rw [lowEdge_nextBit hc h0, sendBit_ok ha] at h
        cases h
        refine .rises hl hc (by unfold bitIndex; omega) ?_ ?_ rfl
        · show 8 * s.ser.bytePtr.toNat + (7 - (s.ser.bitPtr - 1).toNat) = _
          unfold bitIndex
          omega
        · simp only [startPulse, emit, hg]
  · rw [lowEdge_counts hc] at h
    cases h
    exact .counts (by simp [hl]) hc rfl rfl

theorem highEdge_line {s t : State} (hs : s.Inv) (hh : s.ser.phase = .high) (h : highEdge s = .next t) (p : Pins) :
    LineStep p s t := by
  by_cases hc : s.ser.cyc = 0
  · rw [highEdge_falls hc (hs.2.2.2.1.2.1 (by simp [hh])).1] at h
    cases h
    exact .falls hh hc rfl rfl
  · rw [highEdge_counts hc] at h
    cases h
    exact .counts (by simp [hh]) hc rfl rfl

/-- The port in `IDLE`: a `FLUSH` starts the first pulse, anything else leaves the line alone (R116, R195). -/
theorem port_line {p : Pins} {s s1 : State} (hs : s.Inv) (hr : p.rst = false)
    (h : (if p.cmdValid then presentWord p.cmd (clearStrobe s) else .next (clearStrobe s)) = .next s1) :
    (startsFlush p s = true ∧ s1 = startPulse 0 7 0 ((s.frame.read 0).getLsbD 7) (clearStrobe s)) ∨
      (startsFlush p s = false ∧ s1.ser = s.ser ∧ s1.trace = s.trace ∧ s1.params = s.params) := by
  cases hv : p.cmdValid with
  | false =>
    rw [hv] at h
    cases h
    exact .inr ⟨by simp [startsFlush, accepts, hv], rfl, rfl, rfl⟩
  | true =>
    rw [hv, if_pos rfl] at h
    rcases Bool.eq_false_or_eq_true s.cmdReady with hk | hk
    · have hk' : (clearStrobe s).cmdReady = true := hk
      cases hd : decode p.cmd with
      | error e =>
        rw [presentWord_illegal hk' hd] at h
        cases h
        exact .inr ⟨by simp [startsFlush, hd], rfl, rfl, rfl⟩
      | ok i =>
        rw [presentWord_ok hk' hd] at h
        by_cases hf : i = .flush
        · subst hf
          rw [exec_flush hk' hs.1.1.1] at h
          cases h
          exact .inl ⟨by simp [startsFlush, accepts, hv, hk, hr, hd], rfl⟩
        · refine .inr ⟨by simp [startsFlush, hd, hf], ?_⟩
          rcases exec_cases hf h with rfl | ⟨-, h⟩
          · exact ⟨rfl, rfl, rfl⟩
          · rcases h with ⟨w, rfl⟩ | ⟨led, r, g, b, hl, rfl⟩ | ⟨r, g, b, rfl⟩ | ⟨v, rfl⟩ | ⟨v, rfl⟩ | rfl <;>
              exact ⟨rfl, rfl, rfl⟩
    · rw [presentWord_notReady (s := clearStrobe s) hk] at h
      cases h
      exact .inr ⟨by simp [startsFlush, accepts, hk], rfl, rfl, rfl⟩

/-- `LineStep` looks at the line and the frame after an edge only. -/
theorem LineStep.congr {p : Pins} {s t u : State} (h : LineStep p s t) (hx : u.ser = t.ser) (ht : u.trace = t.trace)
    (hf : u.frame = t.frame) : LineStep p s u := by
  cases h with
  | idles a b c d => exact .idles a b (hx.trans c) (ht.trans d)
  | starts a b c d => exact .starts a b (hx.trans c) (ht.trans d)
  | counts a b c d => exact .counts a b (hx.trans c) (ht.trans d)
  | falls a b c d => exact .falls a b (hx.trans c) (ht.trans d)
  | ends a b c d e => exact .ends a b c (hx.trans d) (ht.trans e)
  | rises a b c d e f =>
    refine .rises a b c (by unfold bitIndex at *; rw [hx]; exact d) ?_ ?_
    · simp only [currentBit, hx, hf]
      exact e
    · simp only [currentBit, hx, hf, ht]
      exact f

/-- The same for a state before it that has the same line, parameters and frame. -/
theorem LineStep.ofBusy {p : Pins} {s s' t : State} (h : LineStep p s' t) (hx : s'.ser = s.ser)
    (ht : s'.trace = s.trace) (hp : s'.params = s.params) (hf : s'.frame = s.frame) (hb : s.ser.phase ≠ .idle) :
    LineStep p s t := by
  cases h with
  | idles a b c d => exact absurd (hx ▸ a) hb
  | starts a b c d => exact absurd (hx ▸ a) hb
  | counts a b c d => exact .counts hb (hx ▸ b) (by rw [← hx]; exact c) (by rw [← ht]; exact d)
  | falls a b c d =>
    refine .falls (hx ▸ a) (hx ▸ b) ?_ (by rw [← ht]; exact d)
    simp only [currentBit, hx, hp, hf] at c
    exact c
  | ends a b c d e =>
    exact .ends (hx ▸ a) (hx ▸ b) (by unfold bitIndex at *; rw [← hx, ← hp]; exact c) (by rw [← hx]; exact d)
      (by rw [← ht]; exact e)
  | rises a b c d e f =>
    refine .rises (hx ▸ a) (hx ▸ b) ?_ ?_ (by rw [← hp]; exact e) (by rw [← ht]; exact f)
    · unfold bitIndex at *; rw [← hx, ← hp]; exact c
    · unfold bitIndex at *; rw [← hx]; exact d

/-- One edge without reset, from a legal state, is one of the cases of `LineStep`. -/
theorem clockEdge_line {p : Pins} {s t : State} (hs : s.Inv) (hr : p.rst = false) (h : clockEdge p s = .next t) :
    LineStep p s t := by
  by_cases hi : s.ser.phase = .idle
  · obtain ⟨s1, s2, h1, h2, rfl⟩ := (clockEdge_eq_next hr).1 h
    rw [hi] at h2
    have key : LineStep p s s2 := by
      rcases port_line hs hr h1 with ⟨hf, rfl⟩ | ⟨hf, hx, ht, hp⟩
      · cases h2
        exact .starts hi hf rfl rfl
      · have hi1 : s1.ser.phase = .idle := by rw [hx]; exact hi
        simp only [serializerEdge, hi1, if_true] at h2
        cases h2
        have hl := idleEdge_line (s := s1) (by rw [hx, hp]; exact hs.2.2.2.1.2.2.2)
        refine .idles hi hf ?_ ?_
        · rw [hl.1, hx, hp]
        · rw [hl.2, ht]; simp only [gapSymbols, hx, hp]
    cases p.tick
    · exact key
    · exact key.congr rfl rfl rfl
  · rw [clockEdge_busy hr hi] at h
    obtain ⟨s2, h2, h3⟩ := andThen_eq_next.1 h
    cases h3
    have key : LineStep p s s2 := by
      cases hph : s.ser.phase with
      | idle => exact absurd hph hi
      | high =>
        rw [hph] at h2
        exact (highEdge_line (s := clearStrobe s) hs hph h2 p).ofBusy rfl rfl rfl rfl hi
      | low =>
        rw [hph] at h2
        exact (lowEdge_line (s := clearStrobe s) hs hph h2 p).ofBusy rfl rfl rfl rfl hi
    cases p.tick
    · exact key
    · exact key.congr rfl rfl rfl

/-! ### The bit under the pointers -/

theorem bitIndex_lt {s : State} (hs : s.Inv) (hb : s.ser.phase ≠ .idle) : bitIndex s < 24 * s.params.n := by
  have := (hs.2.2.2.1.2.1 hb).1
  unfold bitIndex
  omega

/-- The bit being sent is bit `bitIndex` of the frame's sequence (R113). -/
theorem frameBits_bitIndex {s : State} (hb : bitIndex s < 24 * s.params.n) :
    (frameBits s)[bitIndex s]? = some (currentBit s) := by
  rw [frameBits_getElem? s hb]
  have := bitPtr_lt s
  have e1 : bitIndex s / 8 = s.ser.bytePtr.toNat := by unfold bitIndex; omega
  have e2 : 7 - bitIndex s % 8 = s.ser.bitPtr.toNat := by unfold bitIndex; omega
  rw [e1, e2]

end Sys2Proof.Machine
end

