-- ==== Sys2Proof/Laws/PerInstr.lean ====
section
/-!
SUPPORT. Family `TableRow`: the word of every command matches its row of spec/opcode_table.json (R74), whatever its operands.
-/

namespace Sys2Proof.Laws.TableRow

/-- `(w AND mask) = pattern` for the command's word and row (R74). -/
abbrev Statement (i : Instr) : Prop := encode i &&& (opcodeRow i).mask = (opcodeRow i).pattern

theorem nop : Statement .nop := by decide

theorem set (idx : LedIndex) (r g b : Byte) : Statement (.set idx r g b) := by
  have h := layout_and 0x01 0xFF idx 0 r 0 g 0 b 0
  simpa [Statement, encode, opcodeRow, layout] using h

theorem setall (r g b : Byte) : Statement (.setall r g b) := by
  have h := layout_and 0x02 0xFF 0 0xFFFF r 0 g 0 b 0
  simpa [Statement, encode, opcodeRow, layout] using h

theorem clr (idx : LedIndex) : Statement (.clr idx) := by
  have h := layout_and 0x03 0xFF idx 0 0 0xFF 0 0xFF 0 0xFF
  simpa [Statement, encode, opcodeRow, layout] using h

theorem clrall : Statement .clrall := by decide

theorem flush : Statement .flush := by decide

theorem get (idx : LedIndex) : Statement (.get idx) := by
  have h := layout_and 0x06 0xFF idx 0 0 0xFF 0 0xFF 0 0xFF
  simpa [Statement, encode, opcodeRow, layout] using h

theorem setpres (v : Bool) : Statement (.setpres v) := by cases v <;> decide

theorem rdstat (sel : Selector) : Statement (.rdstat sel) := by cases sel <;> decide

theorem cnext : Statement .cnext := by decide

end Sys2Proof.Laws.TableRow
end

