-- ==== Sys2Proof/Tests/Slice0.lean ====
section
/-!
SUPPORT. The model's own tests. Expected values are those of spec/95_test_vectors.md (the section or vector is named) or of
the rule named. The last part shows, for each obligation with hypotheses, data that meet them.
-/

namespace Sys2Proof.Tests

open Sys2Proof Sys2Proof.Machine

/-! ### Helpers -/

/-- The parameters of 95_test_vectors.md section 2.4: N = 1, cycle counts 1, 2, 2, 1, `RESET_CYC` = 4. -/
abbrev tiny : Params := { Params.standard with n := 1 }

/-- After reset, with N = 4. -/
abbrev idle4 : State := State.resetWith .standard

/-- After reset, with N = 1. -/
abbrev idle1 : State := State.resetWith tiny

/-- N = 1, the gap has passed: the state of vector W2 in cycle 5. -/
abbrev latched1 : State :=
  { idle1 with
    frame := [(0, 0x80), (1, 0x01), (2, 0xA5)]
    ser := { Serializer.reset with gapcnt := 4 }
    trace := [.RST] }

/-- Vector W2 in cycle 6: the first high cycle of a flush. -/
abbrev busy1 : State :=
  { latched1 with
    ser := { phase := .high, bytePtr := 0, bitPtr := 7, cyc := 1, gapcnt := 0, dout := true }
    trace := [.RST, .L] }

/-- Vector W2 in cycle 77: the last low cycle of the flush; its 24 pulses have been emitted. -/
abbrev lastLow1 : State :=
  { latched1 with
    ser := { phase := .low, bytePtr := 2, bitPtr := 0, cyc := 0, gapcnt := 0, dout := false }
    trace := .RST :: flushSymbols latched1 }

/-- N = 4, faulted by `SET 4, 1, 2, 3` (vector F10). -/
abbrev faulted4 : State := { idle4 with fault := .indexRange, finfo := 0x010004010203 }

/-- N = 1, one idle cycle before the gap ends: `GAPCNT` = 3. -/
abbrev gapEnds1 : State := { idle1 with ser := { Serializer.reset with gapcnt := 3 } }

/-- A presence state `(STATE, SUBTICK, SECONDS, MINUTES, GRACE)`. -/
abbrev pres (m : PresenceMode) (sub : BitVec 8) (sec min : BitVec 6) (g : BitVec 8) : Presence := ⟨m, sub, sec, min, g⟩

/-- A cycle with a tick. -/
abbrev tickPins : Pins := { Pins.idle with tick := true }

/-- A cycle with a tick and the word `w` on the port. -/
abbrev tickAnd (w : CmdWord) : Pins := { Pins.present w with tick := true }

/-- A cycle with reset. -/
abbrev rstPins : Pins := { Pins.idle with rst := true }

/-! ### WellFormed: an ill-formed term for each check -/

theorem test_params_standard_ok : Params.standard.ok ∧ tiny.ok := by decide
theorem test_params_no_led : ¬ { Params.standard with n := 0 }.ok := by decide
theorem test_params_too_many_leds : ¬ { Params.standard with n := 65536 }.ok := by decide
theorem test_params_no_high : ¬ { Params.standard with t0h := 0 }.ok := by decide
theorem test_params_one_not_longer : ¬ { Params.standard with t0h := 2, t1h := 2 }.ok := by decide
theorem test_params_no_low : ¬ { Params.standard with t0l := 0 }.ok ∧ ¬ { Params.standard with t1l := 0 }.ok := by decide
theorem test_params_no_gap : ¬ { Params.standard with resetCyc := 0 }.ok := by decide
theorem test_params_tps : ¬ { Params.standard with tps := 1 }.ok ∧ ¬ { Params.standard with tps := 256 }.ok := by decide
theorem test_params_grace :
    ¬ { Params.standard with graceTicks := 0 }.ok ∧ ¬ { Params.standard with graceTicks := 256 }.ok := by decide
theorem test_params_k : ¬ { Params.standard with k := 0 }.ok ∧ ¬ { Params.standard with k := 257 }.ok := by decide
theorem test_params_default : ¬ { Params.standard with colorDefault := 5 }.ok := by decide

/-- The strip of R225: 0.4, 0.85, 0.8, 0.45 us, each within 150 ns, and a gap above 50 us, at `T_CLK` = 50 ns. -/
abbrev commonStrip : StripSheet where
  t0h := ⟨250000, some 550000⟩
  t0l := ⟨700000, some 1000000⟩
  t1h := ⟨650000, some 950000⟩
  t1l := ⟨300000, some 600000⟩
  gap := ⟨50000000, none⟩

theorem test_tolerance :
    { Params.standard with t0h := 8, t0l := 17, t1h := 16, t1l := 9, resetCyc := 1000 }.inTolerance commonStrip ∧
      ¬ Params.standard.inTolerance commonStrip := by decide
theorem test_seconds_real : Params.standard.secondsAreReal ∧ ¬ { Params.standard with tps := 4 }.secondsAreReal := by
  decide

theorem test_index_set : Instr.WellFormed .standard (.set 3 1 2 3) ∧ ¬ Instr.WellFormed .standard (.set 4 1 2 3) := by
  decide
theorem test_index_clr : Instr.WellFormed .standard (.clr 3) ∧ ¬ Instr.WellFormed .standard (.clr 4) := by decide
theorem test_index_get : Instr.WellFormed .standard (.get 3) ∧ ¬ Instr.WellFormed .standard (.get 4) := by decide

/-! ### The assembler (R81 to R83, section 2.1) -/

theorem test_asm_refuses : assemble (.set 0 256 0 0) = .error .doesNotFit ∧
    assemble (.set 65536 0 0 0) = .error .doesNotFit ∧ assemble (.setpres 2) = .error .doesNotFit ∧
    assemble (.rdstat 8) = .error .doesNotFit := ⟨rfl, rfl, rfl, rfl⟩

theorem test_asm_line : parseLine "SET 1, 0x12, 0x34, 0x56 ; one LED" = .ok (some (.command (.set 1 0x12 0x34 0x56))) := by
  decide
theorem test_asm_selector : parseLine "RDSTAT LATCHED" = .ok (some (.command (.rdstat 7))) := by decide
theorem test_asm_event : parseLine "TICK 25" = .ok (some (.tick 25)) ∧ parseLine "; note" = .ok none := by decide
/-- W2: 72 cycles from the first high cycle to the end of the flush, and one in the last; Q1 in event-level steps. -/
theorem test_asm_script : busyCycles busy1 = 72 ∧ busyCycles lastLow1 = 1 ∧ busyCycles latched1 = 0 ∧
    scriptEvents [.command .present, .tick 2] = .ok [.cmd 0x070000000001, .tick, .tick] ∧
    ScriptItem.cycles lastLow1 (.command .nop) = .ok [.present 0, .present 0] := by decide
theorem test_asm_unknown : parseLine "BLINK" = .error .unknownMnemonic ∧ parseLine "CLR" = .error .operandCount := by decide

theorem test_asm_words : (assemble (.setrgb 3 0xA1B2C3)).map encode = .ok 0x010003A1B2C3 ∧
    (assemble .present).map encode = .ok 0x070000000001 ∧ (assemble .absent).map encode = .ok 0x070000000000 := by
  decide

/-! ### Decoding: words written out bit by bit from R75 -/

theorem test_decode_nop : decode 0b000000000000000000000000000000000000000000000000 = .ok .nop := by decide
theorem test_decode_set :
    decode 0b000000010000000000000001000100100011010001010110 = .ok (.set 1 0x12 0x34 0x56) := by decide
theorem test_decode_setall :
    decode 0b000000100000000000000000111111110000000010000000 = .ok (.setall 0xFF 0x00 0x80) := by decide
theorem test_decode_clr : decode 0b000000110000000000000010000000000000000000000000 = .ok (.clr 2) := by decide
theorem test_decode_clrall : decode 0b000001000000000000000000000000000000000000000000 = .ok .clrall := by decide
theorem test_decode_flush : decode 0b000001010000000000000000000000000000000000000000 = .ok .flush := by decide
theorem test_decode_get : decode 0b000001100000000000000001000000000000000000000000 = .ok (.get 1) := by decide
theorem test_decode_setpres : decode 0b000001110000000000000000000000000000000000000001 = .ok (.setpres true) ∧
    decode 0b000001110000000000000000000000000000000000000000 = .ok (.setpres false) := by decide
theorem test_decode_rdstat : decode 0b000010000000000000000000000000000000000000000010 = .ok (.rdstat .seconds) ∧
    decode 0b000010000000000000000000000000000000000000000111 = .ok (.rdstat .latched) := by decide
theorem test_decode_cnext : decode 0b000010010000000000000000000000000000000000000000 = .ok .cnext := by decide

/-- The illegal words of section 2.1. -/
theorem test_decode_illegal :
    ([0x0A0000000000, 0xFF0000000000, 0xFFFFFFFFFFFF, 0x000000000001, 0x040000000100, 0x050000000001, 0x058000000000,
      0x090001000000, 0x030002000001, 0x060001FF0000, 0x020001000000, 0x070000000002, 0x070000000003, 0x080000000008,
      0x080100000000] : List CmdWord).all (fun w => !isLegal w) = true := by decide

theorem test_decodeTableWord : decodeTableWord 48 0x01FFFFFFFFFF = some (.set 65535 255 255 255) ∧
    decodeTableWord 48 0x0A0000000000 = none := by decide

/-! ### The commands, one step each -/

/-- Section 2.8 X1 and R91: `NOP` does nothing; the word with a reserved bit faults. -/
theorem test_nop : nextState? (exec .nop latched1) = some latched1 ∧
    nextState? (presentWord 0x000000000001 idle4) = some { idle4 with fault := .illegalCmd, finfo := 1 } := by decide

/-- F1. -/
theorem test_set : (nextState? (exec (.set 1 0x12 0x34 0x56) idle4)).map State.frame =
    some [(3, 0x34), (4, 0x12), (5, 0x56)] := by decide
/-- F5: the order BRG. -/
theorem test_set_brg : (nextState? (exec (.set 1 0x12 0x34 0x56)
    (State.resetWith { Params.standard with wireOrder := .brg }))).map State.frame =
    some [(3, 0x56), (4, 0x12), (5, 0x34)] := by decide
/-- F10: the first index out of range. -/
theorem test_set_range : nextState? (exec (.set 4 1 2 3) idle4) = some faulted4 := by decide
/-- F6. -/
theorem test_setall : (nextState? (exec (.setall 0xFF 0x00 0x80) (State.resetWith { Params.standard with n := 2 }))).map
    State.frame = some [(1, 0xFF), (2, 0x80), (4, 0xFF), (5, 0x80)] := by decide
/-- F7. -/
theorem test_clr : (nextState? (exec (.clr 2) { idle4 with frame := [(5, 9), (6, 1), (7, 2), (8, 3), (9, 4)] })).map
    State.frame = some [(5, 9), (9, 4)] := by decide
/-- F12. -/
theorem test_clr_range : (nextState? (exec (.clr 0xFFFF) idle4)).map (fun t => (t.fault, t.finfo)) =
    some (.indexRange, 0x03FFFF000000) := by decide
/-- F8. -/
theorem test_clrall : (nextState? (exec .clrall latched1)).map State.frame = some [] := by decide
/-- F2. -/
theorem test_get : (nextState? (exec (.get 1) { idle4 with frame := [(3, 0x34), (4, 0x12), (5, 0x56)] })).map
    (fun t => (t.rsp, t.rspValid)) = some (0x123456, true) := by decide
/-- F11: a faulting `GET` gives no response. -/
theorem test_get_range : (nextState? (exec (.get 4) idle4)).map (fun t => (t.fault, t.finfo, t.rspValid)) =
    some (.indexRange, 0x060004000000, false) := by decide
/-- W2, cycles 5 to 6: the first pulse. -/
theorem test_flush : nextState? (exec .flush latched1) = some busy1 := by decide
/-- S3: the symbols of a whole flush. -/
theorem test_flush_whole : (nextState? (eventStep (.cmd 0x050000000000)
      { idle1 with frame := [(0, 0x34), (1, 0x12), (2, 0x56)] })).map State.trace =
    some [.S, .S, .L, .L, .S, .L, .S, .S, .S, .S, .S, .L, .S, .S, .L, .S, .S, .L, .S, .L, .S, .L, .L, .S] := by decide
/-- Q1. -/
theorem test_setpres : (nextState? (exec (.setpres true) idle4)).map (fun t => (t.pres, t.pflag)) =
    some (Presence.reset, true) := by decide
/-- Q3 and Q4: every selector. -/
theorem test_rdstat : ([.state, .subtick, .seconds, .minutes, .grace, .pflag, .csel, .latched] : List Selector).map
    (statusWord { latched1 with pres := pres .grace 3 59 7 9, pflag := true, csel := 2 }) =
    [2, 3, 0x3B, 7, 9, 1, 2, 1] := by decide
/-- Section 2.7: K = 5 at 4, and K = 256 at 255. -/
theorem test_cnext : (nextState? (exec .cnext { idle4 with csel := 4 })).map State.csel = some 0 ∧
    (nextState? (exec .cnext { State.resetWith { Params.standard with k := 256 } with csel := 255 })).map State.csel =
      some 0 := by decide
theorem test_cnext_below : (nextState? (exec .cnext { idle4 with csel := 3 })).map State.csel = some 4 := by decide

/-! ### The tick (section 2.5, single-step vectors) -/

theorem test_tick_carries : tickPresence .standard true (pres .present 9 0 0 0) = pres .present 0 1 0 0 ∧
    tickPresence .standard true (pres .present 9 59 0 0) = pres .present 0 0 1 0 ∧
    tickPresence .standard true (pres .present 9 59 59 0) = pres .present 0 0 0 0 ∧
    tickPresence .standard true (pres .present 8 59 59 0) = pres .present 9 59 59 0 := by decide

theorem test_tick_grace : tickPresence .standard false (pres .grace 3 7 2 9) = .reset ∧
    tickPresence .standard false (pres .grace 3 7 2 8) = pres .grace 3 7 2 9 ∧
    tickPresence .standard true (pres .grace 3 7 2 9) = pres .present 4 7 2 0 ∧
    tickPresence .standard true (pres .grace 9 59 59 1) = pres .present 0 0 0 0 ∧
    tickPresence .standard false (pres .present 3 7 2 0) = pres .grace 3 7 2 1 := by decide

theorem test_tick_absent : tickPresence .standard false .reset = .reset ∧
    tickPresence .standard true .reset = pres .present 1 0 0 0 := by decide

/-- T26: with `GRACE_TICKS` = 1 there is no grace state. -/
theorem test_tick_no_grace :
    tickPresence { Params.standard with graceTicks := 1 } false (pres .present 5 0 0 0) = .reset := by decide

/-! ### Clock edges (sections 2.4 and 2.6) -/

/-- W2, cycle 7 to 8: the high phase ends. -/
theorem test_edge_falls : (nextState? (clockEdge .idle { busy1 with ser := { busy1.ser with cyc := 0 } })).map State.ser =
    some { phase := .low, bytePtr := 0, bitPtr := 7, cyc := 0, gapcnt := 0, dout := false } := by decide
/-- W2, cycle 8 to 9: the next pulse, a 0, begins. -/
theorem test_edge_rises : (nextState? (clockEdge .idle
      { busy1 with ser := { phase := .low, bytePtr := 0, bitPtr := 7, cyc := 0, gapcnt := 0, dout := false } })).map
    (fun t => (t.ser, t.trace)) =
    some ({ phase := .high, bytePtr := 0, bitPtr := 6, cyc := 0, gapcnt := 0, dout := true }, [.RST, .L, .S]) := by decide
/-- W2, cycle 77 to 78: the flush ends. -/
theorem test_edge_ends : (nextState? (clockEdge .idle lastLow1)).map State.ser =
    some { phase := .idle, bytePtr := 2, bitPtr := 0, cyc := 0, gapcnt := 0, dout := false } := by decide
/-- W2, the edge ending cycle 3: `GAPCNT` reaches `RESET_CYC`. -/
theorem test_edge_gap : (nextState? (clockEdge .idle gapEnds1)).map
    (fun t => (t.ser.gapcnt, t.latched, t.trace)) = some (4, true, [.RST]) := by decide
/-- W6: reset in the first high cycle. -/
theorem test_edge_reset : nextState? (clockEdge rstPins busy1) = some idle1 := by decide
/-- Q8: a tick and `SETPRES 0` at one edge. -/
theorem test_edge_tick_setpres : (nextState? (clockEdge (tickAnd 0x070000000000)
      { idle4 with pres := pres .present 4 0 0 0, pflag := true })).map (fun t => (t.pres, t.pflag)) =
    some (pres .present 5 0 0 0, false) := by decide
/-- Q9: a tick and `RDSTAT SECONDS` at one edge. -/
theorem test_edge_tick_rdstat : (nextState? (clockEdge (tickAnd 0x080000000002)
      { idle4 with pres := pres .present 9 0 0 0, pflag := true })).map (fun t => (t.rsp, t.pres)) =
    some (0, pres .present 0 1 0 0) := by decide
/-- W1: the byte 0xA5 on the line. -/
theorem test_levels : (byteBits 0xA5).flatMap (pulseLevels tiny) =
    [1, 1, 0, 1, 0, 0, 1, 1, 0, 1, 0, 0, 1, 0, 0, 1, 1, 0, 1, 0, 0, 1, 1, 0].map (· == 1) := by decide
/-- W3: `O_end` = 98. -/
theorem test_cycles : flushCycles { State.resetWith { tiny with t0h := 1, t0l := 3, t1h := 3, t1l := 2 } with
    frame := [(0, 0xC0)] } = 98 := by decide
/-- R15, R71: after a fault a command is no step of the event level. -/
theorem test_event_refused : eventStep (.cmd 0) faulted4 = .refused .commandNotReady := rfl
/-- The first step after reset runs the word put on the port: `SET 1, 0x12, 0x34, 0x56`. -/
theorem test_withFetchWord : (nextState? (step (State.reset.withFetchWord 48 0x010001123456))).map State.frame =
    some [(3, 0x34), (4, 0x12), (5, 0x56)] := by decide

/-! ### Data that meet the hypotheses of the obligations -/

/-- The states above are legal. -/
theorem witness_inv : idle4.Inv ∧ idle1.Inv ∧ latched1.Inv ∧ busy1.Inv ∧ lastLow1.Inv ∧ faulted4.Inv :=
  ⟨by decide, by decide, by decide, by decide, by decide, by decide⟩

theorem witness_EncodeDecodeGivesTheWord : decode 0x01FFFFFFFFFF = .ok (.set 65535 255 255 255) := by decide

theorem witness_LegalWordsMatchOneTableRow : decode 0x030002000000 = .ok (.clr 2) ∧
    (0x030002000000 : CmdWord) &&& (opcodeRow (.clr 7)).mask = (opcodeRow (.clr 7)).pattern := by decide

/-- Each alternative of R79 at the edge of its range, and a state that accepts the word. -/
theorem witness_IllegalWordsAreThoseOfR79 : idle4.cmdReady = true ∧ decode 0x0A0000000000 = .error .unknownOpcode ∧
    decode 0x090000000000 = .ok .cnext ∧ decode 0x098000000000 = .error .reservedBit ∧
    decode 0x060000800000 = .error .reservedBit ∧ decode 0x028000000000 = .error .reservedBit ∧
    decode 0x070000000002 = .error .reservedBit ∧ decode 0x080000000008 = .error .reservedBit := by decide

theorem witness_AssemblerNeverTruncates : assemble (.set 65535 255 255 255) = .ok (.set 65535 255 255 255) ∧
    assemble (.set 65536 255 255 255) = .error .doesNotFit ∧ assemble (.set 65535 256 255 255) = .error .doesNotFit ∧
    assemble (.setrgb 65535 (65536 * 255 + 256 * 255 + 255)) = .ok (.set 65535 255 255 255) ∧
    assemble (.setrgb 65535 16777216) = .error .doesNotFit ∧ assemble (.setall 255 255 255) = .ok (.setall 255 255 255) ∧
    assemble (.setall 255 255 256) = .error .doesNotFit ∧ assemble (.clr 65535) = .ok (.clr 65535) ∧
    assemble (.clr 65536) = .error .doesNotFit ∧ assemble (.get 65535) = .ok (.get 65535) ∧
    assemble (.get 65536) = .error .doesNotFit ∧ assemble (.setpres 1) = .ok (.setpres true) ∧
    assemble (.setpres 2) = .error .doesNotFit ∧ assemble (.rdstat 7) = .ok (.rdstat .latched) ∧
    assemble (.rdstat 8) = .error .doesNotFit :=
  ⟨rfl, rfl, rfl, rfl, rfl, rfl, rfl, rfl, rfl, rfl, rfl, rfl, rfl, rfl, rfl⟩

theorem witness_StepRunsTheDecodedCommand :
    ({ idle4 with inputs := [tickAnd 0x070000000001] }).inputs = tickAnd 0x070000000001 :: [] ∧
    (tickAnd 0x070000000001).rst = false ∧ (tickAnd 0x070000000001).cmdValid = true ∧ idle4.cmdReady = true ∧
    decode (tickAnd 0x070000000001).cmd = .ok (.setpres true) ∧ decode (BitVec.ofNat 48 0x090000000000) = .ok .cnext := by
  decide

theorem witness_CommandNotReadyHasNoEffect : busy1.cmdReady = false ∧ faulted4.cmdReady = false ∧
    (Pins.present 0x040000000000).rst = false := by decide

theorem witness_ResponseStrobeLastsOneCycle :
    (∃ t, clockEdge (.present 0x060003000000) idle4 = .next t ∧ t.rspValid = true) ∧
    (∃ t, clockEdge (.present 0x060004000000) idle4 = .next t ∧ t.rspValid = false) ∧
    (∃ t, clockEdge (.present 0x080000000007) idle4 = .next t ∧ t.rspValid = true) :=
  ⟨⟨_, rfl, rfl⟩, ⟨_, rfl, rfl⟩, ⟨_, rfl, rfl⟩⟩

/-- `idx` = N - 1 and `idx` = N, and an LED that already holds the colour. -/
theorem witness_SetWritesOneTriple : idle4.cmdReady = true ∧ idle4.frame.wf = true ∧
    (3 : LedIndex).toNat < idle4.params.n ∧ idle4.params.n ≤ (4 : LedIndex).toNat ∧
    tripleAt idle4.frame (3 : LedIndex).toNat = perm idle4.params.wireOrder 0 0 0 ∧
    (0x01FFFFFFFFFF : CmdWord).extractLsb' 40 8 = 0x01 := by decide

theorem witness_SetallWritesEveryTriple : idle4.Inv ∧ idle4.cmdReady = true ∧ 3 < idle4.params.n ∧
    idle4.params.n ≤ 12 / 3 ∧ (3 : LedIndex).toNat < idle4.params.n ∧
    (0x020001000000 : CmdWord).extractLsb' 40 8 = 0x02 ∧ (0x020001000000 : CmdWord).extractLsb' 24 16 ≠ 0 := by decide

theorem witness_ClrIsSetOfZero : idle4.cmdReady = true ∧ idle4.frame.wf = true ∧ (3 : LedIndex).toNat < idle4.params.n ∧
    idle4.params.n ≤ (4 : LedIndex).toNat ∧ (0x030004000001 : CmdWord).extractLsb' 40 8 = 0x03 ∧
    (0x030004000001 : CmdWord).extractLsb' 0 24 ≠ 0 := by decide

theorem witness_ClrallClearsTheFrameOnly : latched1.Inv ∧ latched1.cmdReady = true ∧
    (0x048000000000 : CmdWord).extractLsb' 40 8 = 0x04 ∧ (0x048000000000 : CmdWord).extractLsb' 0 40 ≠ 0 := by decide

theorem witness_GetRespondsTheTriple : latched1.cmdReady = true ∧ (0 : LedIndex).toNat < latched1.params.n ∧
    tripleAt latched1.frame (0 : LedIndex).toNat = perm latched1.params.wireOrder 0x01 0x80 0xA5 ∧
    (0 : LedIndex).toNat < tiny.n := by decide

theorem witness_SetThenGetReadsBack : idle4.cmdReady = true ∧ idle4.frame.wf = true ∧
    (3 : LedIndex).toNat < idle4.params.n ∧ (2 : LedIndex).toNat < idle4.params.n ∧ (2 : LedIndex) ≠ 3 := by decide

theorem witness_LastWriteToALedWins : idle4.Inv ∧ idle4.cmdReady = true ∧
    ∀ i ∈ ([.setall 9 9 9, .set 1 1 2 3, .clr 3, .get 3, .cnext] : List Instr),
      Instr.WellFormed idle4.params i ∧ i ≠ .flush := by
  refine ⟨witness_inv.1, rfl, ?_⟩
  intro i hi
  simp only [List.mem_cons, List.not_mem_nil, or_false] at hi
  rcases hi with rfl | rfl | rfl | rfl | rfl <;> decide

theorem witness_IndexOutOfRangeFaults : HasIndex (.set 4 1 2 3) 4 ∧ HasIndex (.clr 4) 4 ∧ HasIndex (.get 4) 4 ∧
    idle4.cmdReady = true ∧ idle4.params.n ≤ (4 : LedIndex).toNat ∧ (∃ t, exec (.setall 1 2 3) idle4 = .next t) ∧
    ∃ t, exec .clrall idle4 = .next t :=
  ⟨.inl ⟨1, 2, 3, rfl⟩, .inr (.inl rfl), .inr (.inr rfl), rfl, by decide, ⟨_, rfl⟩, ⟨_, rfl⟩⟩

theorem witness_SetpresWritesTheFlag : idle4.cmdReady = true := by decide

theorem witness_RdstatRespondsTheRegister : latched1.cmdReady = true := by decide

/-- The cursor at the last colour and below it. -/
theorem witness_CnextAdvancesModuloK : ({ idle4 with csel := 4 }).Inv ∧ ({ idle4 with csel := 4 }).cmdReady = true ∧
    ({ idle4 with csel := 3 }).Inv := ⟨by decide, by decide, by decide⟩

theorem witness_CnextCountsFromTheDefault : { Params.standard with k := 1 }.ok ∧
    { Params.standard with k := 256, colorDefault := 255 }.ok := by decide

/-- Every kind of command answers a next state; one of them faults. -/
theorem witness_CommandsChangeOnlyTheirState : (∃ t, exec (.set 3 1 2 3) idle4 = .next t) ∧
    (∃ t, exec (.get 4) idle4 = .next t ∧ t.fault ≠ idle4.fault) ∧ (∃ t, exec .flush latched1 = .next t) ∧
    (∃ t, exec (.rdstat .csel) idle4 = .next t) ∧ (∃ t, exec (.setpres true) idle4 = .next t) ∧
    ¬ WritesFrame .nop ∧ ∀ idx, ¬ HasIndex .nop idx := by
  refine ⟨⟨_, rfl⟩, ⟨_, rfl, by decide⟩, ⟨_, rfl⟩, ⟨_, rfl⟩, ⟨_, rfl⟩, by simp [WritesFrame], by simp [HasIndex]⟩

theorem witness_FlushStartsTheFirstPulse : latched1.Inv ∧ latched1.cmdReady = true := by decide

/-- Also with `LATCHED` = 0 and an empty frame, and while busy. -/
theorem witness_FlushEmitsTheWholeFrame : idle1.Inv ∧ idle1.cmdReady = true ∧ idle1.latched = false ∧ idle1.frame = [] ∧
    busy1.busy = true ∧ (0x050000000001 : CmdWord).extractLsb' 40 8 = 0x05 ∧
    (0x050000000001 : CmdWord).extractLsb' 0 40 ≠ 0 ∧ tiny.ok := by decide

/-- The last bit of the frame, and an edge that stays busy and one that ends. -/
theorem witness_FlushSendsBytesUpBitsDown : latched1.cmdReady = true ∧ 23 < 24 * latched1.params.n ∧
    2 < 3 * latched1.params.n ∧ busy1.Inv ∧ busy1.busy = true ∧
    (∃ t, clockEdge .idle busy1 = .next t ∧ t.busy = true) ∧ ∃ t, clockEdge .idle lastLow1 = .next t ∧ t.busy = false :=
  ⟨rfl, by decide, by decide, witness_inv.2.2.2.1, rfl, ⟨_, rfl, rfl⟩, ⟨_, rfl, rfl⟩⟩

/-- No cycle after the accepting edge, one, and `O_end` = 72 of them (W2). -/
theorem witness_FlushWaveformInClosedForm : latched1.Inv ∧ AcceptsCommand (.present 0x050000000000) latched1 .flush ∧
    (∀ x ∈ List.replicate 72 tickPins, x.rst = false) ∧ (List.replicate 72 tickPins).length = flushCycles latched1 ∧
    ([] : List Pins).length < flushCycles latched1 := by
  refine ⟨witness_inv.2.2.1, ⟨rfl, rfl⟩, ?_, by decide, by decide⟩
  intro x hx
  rw [List.eq_of_mem_replicate hx]
  rfl

theorem witness_FlushRunIsTheWholeFlush : latched1.Inv ∧ latched1.cmdReady = true := by decide

theorem witness_EveryFlushEnds : busy1.Inv ∧ busy1.busy = true ∧ lastLow1.Inv ∧ lastLow1.busy = true :=
  ⟨witness_inv.2.2.2.1, rfl, witness_inv.2.2.2.2.1, rfl⟩

/-- One cycle short of the gap, and at it. -/
theorem witness_IdleCyclesMeasureTheGap : idle1.Inv ∧ idle1.busy = false ∧
    (∀ x ∈ List.replicate 3 tickPins, x.rst = false ∧ x.cmdValid = false) ∧
    (List.replicate 3 tickPins).length + 1 = idle1.params.resetCyc := by decide

theorem witness_LatchStepEmitsRstOnce : idle1.busy = false ∧ idle1.latched = false ∧ latched1.busy = false ∧
    latched1.latched = true := by decide

/-- Each row of the table at the edge of its condition. -/
theorem witness_PresenceTransitionTable : Params.standard.ok ∧ PresenceOk .standard .reset ∧
    PresenceOk .standard (pres .present 9 59 59 0) ∧ 1 < Params.standard.graceTicks ∧
    { Params.standard with graceTicks := 1 }.ok ∧
    PresenceOk { Params.standard with graceTicks := 1 } (pres .present 9 59 59 0) ∧
    PresenceOk .standard (pres .grace 0 0 0 8) ∧ (8 : BitVec 8).toNat + 1 < Params.standard.graceTicks ∧
    PresenceOk .standard (pres .grace 0 0 0 9) ∧ (9 : BitVec 8).toNat + 1 = Params.standard.graceTicks :=
  ⟨by decide, by decide, by decide, by decide, by decide, by decide, by decide, by decide, by decide, by decide⟩

theorem witness_CountedTickCarries : Params.standard.ok ∧ PresenceOk .standard (pres .present 9 59 59 0) ∧
    PresenceOk .standard (pres .present 8 59 59 0) ∧ (pres .present 9 59 59 0).mode = .present := by decide

theorem witness_AbsentTicksAreNoOps : Presence.reset.mode = .absent := by decide

theorem witness_PresenceRefinesTheSession : Params.standard.ok := by decide

/-- The shortest and the longest absence survived, and the shortest that ends the session. -/
theorem witness_GraceWindowAbsorbsShortAbsences : Params.standard.ok ∧ PresenceOk .standard (pres .present 3 7 2 0) ∧
    (pres .present 3 7 2 0).mode = .present ∧ 1 ≤ 9 ∧ 9 < Params.standard.graceTicks ∧
    Params.standard.graceTicks ≤ 10 := by decide

/-- An edge for each clause. -/
theorem witness_EachUnitKeepsToItsState :
    (∃ t, clockEdge (.present 0x010003010203) idle4 = .next t ∧ t.frame ≠ idle4.frame) ∧
    (∃ t, clockEdge (.present 0x070000000001) idle4 = .next t ∧ t.pflag ≠ idle4.pflag) ∧
    (∃ t, clockEdge (.present 0x090000000000) idle4 = .next t ∧ t.csel ≠ idle4.csel) ∧
    (∃ t, clockEdge (.present 0x0A0000000000) idle4 = .next t ∧ t.fault ≠ idle4.fault) ∧
    ¬ AcceptsCommand (.present 0x090000000000) idle4 .flush :=
  ⟨⟨_, rfl, by decide⟩, ⟨_, rfl, by decide⟩, ⟨_, rfl, by decide⟩, ⟨_, rfl, by decide⟩, fun h => by
    have := h.2
    rw [show decode (Pins.present 0x090000000000).cmd = .ok .cnext by rfl] at this
    cases this⟩

theorem witness_TicksNeverDisturbTheLine : busy1.Inv ∧
    List.Forall₂ (fun p q : Pins => { p with tick := q.tick } = q) [.idle, tickPins] [tickPins, tickPins] :=
  ⟨witness_inv.2.2.2.1, .cons rfl (.cons rfl .nil)⟩

theorem witness_TickAndCommandAtOneEdge : idle4.Inv ∧ accepts (tickAnd 0x070000000001) idle4 = true ∧
    (tickAnd 0x070000000001).tick = true ∧ decode (tickAnd 0x070000000001).cmd = .ok (.setpres true) ∧
    decode (tickAnd 0x080000000002).cmd = .ok (.rdstat .seconds) ∧
    (∀ v, decode (tickAnd 0x090000000000).cmd ≠ .ok (.setpres v)) ∧
    ∀ x, decode (tickAnd 0x090000000000).cmd ≠ .ok (.rdstat x) := by
  have h : decode (tickAnd 0x090000000000).cmd = .ok .cnext := rfl
  refine ⟨witness_inv.1, rfl, rfl, rfl, rfl, ?_, ?_⟩ <;> intro v hv <;> rw [h] at hv <;> cases hv

theorem witness_FaultEntryIsPrecise : idle4.Inv ∧ accepts (.present 0x0A0000000000) idle4 = true ∧
    decode (Pins.present 0x0A0000000000).cmd = .error .unknownOpcode ∧ accepts (.present 0x060004000000) idle4 = true ∧
    decode (Pins.present 0x060004000000).cmd = .ok (.get 4) ∧ HasIndex (.get 4) 4 ∧
    idle4.params.n ≤ (4 : LedIndex).toNat :=
  ⟨witness_inv.1, rfl, rfl, rfl, rfl, .inr (.inr rfl), by decide⟩

theorem witness_FaultFreezesTheCommandPort : faulted4.Inv ∧ faulted4.fault ≠ .clear ∧
    ∀ x ∈ [tickAnd 0x040000000000, tickPins], x.rst = false := by decide

theorem witness_IllegalBeatsIndexRange : idle4.Inv ∧ accepts (tickAnd 0x060004000001) idle4 = true ∧
    (tickAnd 0x060004000001).cmd.extractLsb' 40 8 = 0x06 ∧ (tickAnd 0x060004000001).cmd.extractLsb' 0 24 ≠ 0 ∧
    idle4.params.n ≤ ((tickAnd 0x060004000001).cmd.extractLsb' 24 16).toNat ∧
    (tickAnd 0x030004800000).cmd.extractLsb' 40 8 = 0x03 ∧ (tickAnd 0x030004800000).cmd.extractLsb' 0 24 ≠ 0 := by decide

theorem witness_OnlyCommandsRaiseFaults :
    (∃ t, clockEdge (.present 0x0A0000000000) idle4 = .next t ∧ t.fault ≠ idle4.fault) ∧
    ∃ t, clockEdge (.present 0x030004000000) idle4 = .next t ∧ t.fault ≠ idle4.fault :=
  ⟨⟨_, rfl, by decide⟩, ⟨_, rfl, by decide⟩⟩

theorem witness_ResetWinsOverEverything : ({ tickAnd 0x050000000000 with rst := true }).rst = true := by decide

theorem witness_ResetTableHolds : tiny.ok := by decide

theorem witness_ResetMeetsTheInvariant : { Params.standard with n := 65535, k := 256, colorDefault := 255 }.ok := by decide

theorem witness_StepKeepsTheInvariant : busy1.Inv ∧ (∃ t, step busy1 = .next t) ∧ idle4.Inv ∧
    ∃ t, step { idle4 with inputs := [tickAnd 0x0A0000000000] } = .next t :=
  ⟨witness_inv.2.2.2.1, ⟨_, rfl⟩, witness_inv.1, ⟨_, rfl⟩⟩

theorem witness_LegalStatesAlwaysRunOn : busy1.Inv ∧ faulted4.Inv ∧ idle4.Inv ∧ idle4.fault = .clear ∧
    idle4.busy = false :=
  ⟨witness_inv.2.2.2.1, witness_inv.2.2.2.2.2, witness_inv.1, rfl, rfl⟩

theorem witness_StepKeepsTraceAndLatchTogether : latched1.Inv ∧ latched1.TraceOk ∧ (∃ t, step latched1 = .next t) ∧
    busy1.TraceOk :=
  ⟨witness_inv.2.2.1, by decide, ⟨_, rfl⟩, by decide⟩

theorem witness_StepKeepsPulsesWhole : latched1.PulsesOk ∧ busy1.Inv ∧ busy1.PulsesOk ∧ lastLow1.PulsesOk ∧
    ∃ t, step busy1 = .next t :=
  ⟨by decide, witness_inv.2.2.2.1, by decide, by decide, ⟨_, rfl⟩⟩

theorem witness_HostThatWaitsKeepsGaps : latched1.Inv ∧ latched1.TraceOk ∧ latched1.PulsesOk ∧ latched1.GapsKept ∧
    KeepsGap (nextPins { latched1 with inputs := [.present 0x050000000000] }) latched1 ∧
    startsFlush (.present 0x050000000000) latched1 = true ∧
    ∃ t, step { latched1 with inputs := [.present 0x050000000000] } = .next t :=
  ⟨witness_inv.2.2.1, by decide, by decide, by decide, by decide, by decide, ⟨_, rfl⟩⟩

theorem witness_WaitedFlushIsBracketed : latched1.Inv ∧ latched1.TraceOk ∧ latched1.cmdReady = true ∧
    latched1.latched = true := by decide

theorem witness_CountersFitTheirRegisters : busy1.Inv := by decide

/-- A cycle-level state in the middle of a flush and the event-level state after that flush. -/
theorem witness_CycleLevelRefinesEventLevel : busy1.Inv ∧ (flushWhole latched1).Inv ∧
    (flushWhole latched1).ser.phase = .idle ∧ eventView (flushWhole latched1) = eventView busy1 :=
  ⟨witness_inv.2.2.2.1, by decide, rfl, by decide⟩

/-- An edge that does not end the gap, each of the other three cases, and an edge that does end it. -/
theorem witness_EventStepsHaveCycleRuns : latched1.Inv ∧ latched1.busy = false ∧
    (∃ t, eventStep .tick latched1 = .next t) ∧ latched1.ser.gapcnt + 1 ≠ latched1.params.resetCyc ∧ idle1.Inv ∧
    idle1.busy = false ∧ idle1.ser.gapcnt + 1 ≠ idle1.params.resetCyc ∧ (∃ t, eventStep .latch idle1 = .next t) ∧
    (∃ t, eventStep .reset idle1 = .next t) ∧ (∃ t, eventStep (.cmd 0x050000000000) idle1 = .next t) ∧
    decode 0x050000000000 = .ok .flush ∧ gapEnds1.Inv ∧ gapEnds1.busy = false ∧
    gapEnds1.ser.gapcnt + 1 = gapEnds1.params.resetCyc ∧ decode tickPins.cmd ≠ .ok .flush :=
  ⟨witness_inv.2.2.1, rfl, ⟨_, rfl⟩, by decide, witness_inv.2.1, rfl, by decide, ⟨_, rfl⟩, ⟨_, rfl⟩, ⟨_, rfl⟩, rfl,
    by decide, rfl, rfl, by decide⟩

/-- The edge that ends the gap has `LATCH` behind it, and a tick falls inside a flush; without the `LATCH` there is no time. -/
theorem witness_EventRunsHaveCycleRuns : idle1.Inv ∧ idle1.busy = false ∧
    (∃ t, eventSteps [.tick, .tick, .tick, .tick, .latch, .cmd 0x050000000000, .tick, .cmd 0] idle1 = .next t) ∧
    hasTime [.tick, .tick, .tick, .tick, .latch, .cmd 0x050000000000, .tick, .cmd 0] idle1.ser.gapcnt 0 idle1 = true ∧
    hasTime [.tick, .tick, .tick, .tick] idle1.ser.gapcnt 0 idle1 = false :=
  ⟨witness_inv.2.1, rfl, ⟨_, rfl⟩, by decide, by decide⟩

/-- A run that has no time before its gap ends; it does not read `LATCHED`. -/
theorem witness_EventRunsMatchUpToTheGap : idle1.Inv ∧ idle1.busy = false ∧
    (∃ t, eventSteps [.tick, .tick, .tick, .tick, .cmd 0x080000000002] idle1 = .next t) ∧
    ∀ w, Event.cmd w ∈ ([.tick, .tick, .tick, .tick, .cmd 0x080000000002] : List Event) →
      decode w ≠ .ok (.rdstat .latched) := by
  refine ⟨witness_inv.2.1, rfl, ⟨_, rfl⟩, fun w hw => ?_⟩
  obtain rfl : w = 0x080000000002 := by simpa using hw
  decide

end Sys2Proof.Tests
end

/-!
PROOF of O26: the order of a flush on the line. The event-level half reads the closed form `flushSymbols` index by index; the
cycle-level half reads the cases of `LineStep`.
-/

namespace Sys2Proof.Machine

/-- A `FLUSH` word accepted at the event level is the whole flush (R110). -/
theorem eventStep_flush {s : State} (h : s.cmdReady = true) :
    eventStep (.cmd 0x050000000000) s = .next (flushWhole (clearStrobe s)) := by
  have hd : decode 0x050000000000 = .ok .flush := by decide
  rw [eventStep_ready h, executeWordWhole, if_pos hd]

/-- Symbol `k` of a flush is that of `FRAME[k div 8][7 - (k mod 8)]` (R113). -/
theorem flushSymbols_getElem? (s : State) {k : Nat} (h : k < 24 * s.params.n) :
    (flushSymbols s)[k]? = some (sym ((s.frame.read (k / 8)).getLsbD (7 - k % 8))) := by
  rw [flushSymbols, List.getElem?_map, frameBits_getElem? s h, Option.map_some]

/-- A whole flush puts its symbols behind the trace (R110). -/
theorem flushWhole_trace_getElem? (s : State) (k : Nat) :
    (flushWhole s).trace[s.trace.length + k]? = (flushSymbols s)[k]? := by
  show (s.trace ++ flushSymbols s)[s.trace.length + k]? = _
  rw [List.getElem?_append_right (by omega), Nat.add_sub_cancel_left]

/-- The index of the last bit is bit 0 of the last byte (R113, R117). -/
theorem pointers_of_lastBitIndex {s : State} (hl : bitIndex s + 1 = 24 * s.params.n) :
    s.ser.bytePtr.toNat = 3 * s.params.n - 1 ∧ s.ser.bitPtr = 0 := by
  have hj := bitPtr_lt s
  unfold bitIndex at hl
  have h0 : s.ser.bitPtr.toNat = 0 := by omega
  exact ⟨by omega, BitVec.eq_of_toNat_eq h0⟩

/-- The serializer's walk at one edge of a flush: it stays at its bit, goes to the next, or ends after the last (R117). -/
theorem clockEdge_busy_walk {s t : State} {p : Pins} (hs : s.Inv) (hb : s.busy = true) (hr : p.rst = false)
    (h : clockEdge p s = .next t) :
    (t.busy = true ∧ t.trace = s.trace ∧ bitIndex t = bitIndex s) ∨
    (t.busy = true ∧ t.trace = s.trace ++ [sym (currentBit t)] ∧ bitIndex t = bitIndex s + 1) ∨
    (t.busy = false ∧ t.trace = s.trace ∧ s.ser.bytePtr.toNat = 3 * s.params.n - 1 ∧ s.ser.bitPtr = 0) := by
  have hph := (busy_iff s).1 hb
  cases clockEdge_line hs hr h with
  | idles hi => exact absurd hi hph
  | starts hi => exact absurd hi hph
  | counts _ _ hx ht => exact .inl ⟨(busy_iff t).2 (by rw [hx]; exact hph), ht, by simp only [bitIndex, hx]⟩
  | falls _ _ hx ht => exact .inl ⟨by simp [State.busy, hx], ht, by simp only [bitIndex, hx]⟩
  | ends _ _ hl hx ht => exact .inr (.inr ⟨by simp [State.busy, hx], ht, pointers_of_lastBitIndex hl⟩)
  | rises _ _ _ hn hx ht => exact .inr (.inl ⟨(busy_iff t).2 (by rw [hx]; simp), ht, hn⟩)

/-- Settles O26: the event level by indexing the closed form of a flush, the cycle level by `clockEdge_busy_walk`. -/
theorem flushSendsBytesUpBitsDown : Obligations.FlushSendsBytesUpBitsDown := by
  refine ⟨fun s hr => ⟨_, eventStep_flush hr, fun k hk => ?_, ?_, fun a j ha hj => ?_⟩, fun s t p hs hb hr h => ?_⟩
  · exact (flushWhole_trace_getElem? (clearStrobe s) k).trans (flushSymbols_getElem? s hk)
  · exact (flushWhole_trace_getElem? (clearStrobe s) _).trans (List.getElem?_eq_none (length_flushSymbols s).le)
  · have hk : 8 * a + j < 24 * s.params.n := by omega
    have hbyte : (8 * a + j) / 8 = a := by omega
    have hbit : (8 * a + j) % 8 = j := by omega
    have hf := frameBits_getElem? s hk
    have hy := flushSymbols_getElem? s hk
    rw [hbyte, hbit] at hf hy
    exact ⟨hf, (flushWhole_trace_getElem? (clearStrobe s) _).trans hy⟩
  · rcases clockEdge_busy_walk hs hb hr h with ⟨ht, hstay⟩ | ⟨ht, hnext⟩ | ⟨ht, hend⟩
    · exact ⟨fun _ => .inl hstay, fun hf => absurd ht (by simp [hf])⟩
    · exact ⟨fun _ => .inr hnext, fun hf => absurd ht (by simp [hf])⟩
    · exact ⟨fun hf => absurd ht (by simp [hf]), fun _ => hend⟩

end Sys2Proof.Machine

/-!
PROOF of O11 to O14: the commands that write the frame (R93 to R96). First their words as slices, then the triples of a frame
after a store, then the loop of `SETALL` as a run of `SET`.
-/

namespace Sys2Proof

/-! ### The words of `SET`, `SETALL`, `CLR` and `CLRALL` -/

/-- A format's reserved bits, spelled as any condition that says they are 0. -/
theorem withoutReserved_of_iff {w mask : CmdWord} {p : Prop} [Decidable p] (h : w &&& mask = 0 ↔ p) (i : Instr) :
    withoutReserved w mask i = if p then .ok i else .error .reservedBit := if_congr h rfl rfl

theorem decode_of_opSet {w : CmdWord} (h : opField w = 0x01) :
    decode w = .ok (.set (idxField w) (redField w) (greenField w) (blueField w)) := by
  rw [decode, h]
  exact if_pos BitVec.and_zero

theorem decode_of_opSetall {w : CmdWord} (h : opField w = 0x02) :
    decode w = if w.extractLsb' 24 16 = 0 then .ok (.setall (redField w) (greenField w) (blueField w))
      else .error .reservedBit := by
  rw [decode, h]
  exact withoutReserved_of_iff (reserved_C w) _

theorem decode_of_opClr {w : CmdWord} (h : opField w = 0x03) :
    decode w = if w.extractLsb' 0 24 = 0 then .ok (.clr (idxField w)) else .error .reservedBit := by
  rw [decode, h]
  exact withoutReserved_of_iff (reserved_I w) _

theorem decode_of_opClrall {w : CmdWord} (h : opField w = 0x04) :
    decode w = if w.extractLsb' 0 40 = 0 then .ok .clrall else .error .reservedBit := by
  rw [decode, h]
  exact withoutReserved_of_iff (reserved_Z w) _

/-- The word of `CLR` with its three zero bytes as one field, as format `I` has it (R74, R95). -/
theorem encode_clr (idx : LedIndex) : encode (.clr idx) = (0x03 : BitVec 8) ++ idx ++ (0 : BitVec 24) := by
  apply BitVec.eq_of_getLsbD_eq
  intro j hj
  simp only [encode, layout, BitVec.getLsbD_append]
  grind

end Sys2Proof

namespace Sys2Proof.Machine

/-! ### The triples of a frame -/

/-- A triple, byte by byte (R51). -/
theorem tripleAt_eq_iff {m : Memory} {led : Nat} {t : Byte × Byte × Byte} :
    tripleAt m led = t ↔ ∀ a, a / 3 = led → m.read a = tripleByte t (a % 3) := by
  constructor
  · rintro rfl a rfl
    obtain h | h | h : a % 3 = 0 ∨ a % 3 = 1 ∨ a % 3 = 2 := by omega
    all_goals
      rw [h]
      exact congrArg m.read (by omega)
  · intro h
    have byte (j : Nat) (hj : j < 3) : m.read (3 * led + j) = tripleByte t j := by
      rw [h _ (by omega), Nat.mul_add_mod, Nat.mod_eq_of_lt hj]
    exact Prod.ext (byte 0 (by omega)) (Prod.ext (byte 1 (by omega)) (byte 2 (by omega)))

theorem tripleAt_storeTriple {m : Memory} (h : m.wf = true) (led : Nat) (t : Byte × Byte × Byte) :
    tripleAt (storeTriple led t m) led = t :=
  tripleAt_eq_iff.2 fun a ha => by rw [read_storeTriple h, if_pos ha]

theorem read_storeTriple_other {m : Memory} (h : m.wf = true) {led a : Nat} (t : Byte × Byte × Byte)
    (ha : a / 3 ≠ led) : (storeTriple led t m).read a = m.read a := by rw [read_storeTriple h, if_neg ha]

/-- A triple stored over itself leaves the very same list: the canonical form holds no trace of the write. -/
theorem storeTriple_self {m : Memory} (h : m.wf = true) {led : Nat} {t : Byte × Byte × Byte}
    (ht : tripleAt m led = t) : storeTriple led t m = m :=
  wf_ext (storeTriple_wf h led t) h fun a => by
    rw [read_storeTriple h]
    split
    case isTrue ha => exact (tripleAt_eq_iff.1 ht a ha).symm
    case isFalse => rfl

theorem tripleAt_storeTriples {m : Memory} (h : m.wf = true) (t : Byte × Byte × Byte) {count led : Nat}
    (hl : led < count) : tripleAt (storeTriples t m count) led = t :=
  tripleAt_eq_iff.2 fun a ha => by rw [read_storeTriples h, if_pos (by omega)]

theorem read_storeTriples_above {m : Memory} (h : m.wf = true) (t : Byte × Byte × Byte) {count a : Nat}
    (ha : 3 * count ≤ a) : (storeTriples t m count).read a = m.read a := by
  rw [read_storeTriples h, if_neg (by omega)]

/-- An offset above every listed one reads 0x00. -/
theorem read_of_gt {m : Memory} {a : Nat} (h : ∀ c ∈ m, c.1 < a) : m.read a = 0 := by
  induction m with
  | nil => rfl
  | cons c m ih =>
    obtain ⟨hc, hm⟩ := List.forall_mem_cons.1 h
    obtain ⟨k, v⟩ := c
    rw [read_cons, if_neg (by omega)]
    exact ih hm

/-- A legal frame full of zeros is the empty list (R96). -/
theorem storeTriples_zero {p : Params} {m : Memory} (h : FrameOk p m) : storeTriples (0, 0, 0) m p.n = [] := by
  obtain ⟨hw, hb⟩ := h
  refine wf_ext (storeTriples_wf hw _ _) rfl fun a => ?_
  rw [read_storeTriples hw, read_nil]
  split
  case isTrue => simp [tripleByte]
  case isFalse ha =>
    refine read_of_gt fun c hc => ?_
    have := hb c hc
    omega

/-! ### The frame commands in and out of bounds (R92) -/

theorem exec_set_in {s : State} (h : s.cmdReady = true) {idx : LedIndex} (hi : idx.toNat < s.params.n) (r g b : Byte) :
    exec (.set idx r g b) s = .next (storeLED idx.toNat r g b s) := by rw [exec_set h, if_pos hi]

theorem exec_set_out {s : State} (h : s.cmdReady = true) {idx : LedIndex} (hi : s.params.n ≤ idx.toNat) (r g b : Byte) :
    exec (.set idx r g b) s = .next (enterFault .indexRange (encode (.set idx r g b)) s) := by
  rw [exec_set h, if_neg (by omega)]

/-- In bounds, `CLR` is `SET` with black (R95). -/
theorem exec_clr_in {s : State} (h : s.cmdReady = true) {idx : LedIndex} (hi : idx.toNat < s.params.n) :
    exec (.clr idx) s = .next (storeLED idx.toNat 0 0 0 s) := by rw [exec_clr h, if_pos hi]

theorem exec_clr_out {s : State} (h : s.cmdReady = true) {idx : LedIndex} (hi : s.params.n ≤ idx.toNat) :
    exec (.clr idx) s = .next (enterFault .indexRange (encode (.clr idx)) s) := by
  rw [exec_clr h, if_neg (by omega)]

theorem exec_get_in {s : State} (h : s.cmdReady = true) {idx : LedIndex} (hi : idx.toNat < s.params.n) {r g b : Byte}
    (hc : loadLED idx.toNat s = (r, g, b)) : exec (.get idx) s = .next (respond (colourWord r g b) s) := by
  rw [exec_get h, if_pos hi, hc]

/-- `LoadLED` undoes the wire order (R52, R53). -/
theorem loadLED_of_tripleAt {s : State} {led : Nat} {r g b : Byte}
    (h : tripleAt s.frame led = perm s.params.wireOrder r g b) : loadLED led s = (r, g, b) := by
  rw [← unperm_perm s.params.wireOrder r g b, ← h]
  rfl

/-! ### `SETALL` as a run of `SET` (R94) -/

theorem execAll_append (is js : List Instr) (s : State) :
    execAll (is ++ js) s = andThen (execAll is s) (execAll js) := by
  induction is generalizing s with
  | nil => rfl
  | cons i is ih =>
    simp only [List.cons_append, execAll]
    cases h : exec i s <;> simp [ih]

/-- An LED of the strip has an index (R8: `N <= 65535`). -/
theorem ledIndex_toNat {p : Params} (hp : p.ok) {led : Nat} (h : led < p.n) : (BitVec.ofNat 16 led).toNat = led := by
  obtain ⟨⟨-, hn⟩, -⟩ := hp
  rw [BitVec.toNat_ofNat, Nat.mod_eq_of_lt (by omega)]

/-- `SET` on top of any frame, the rest of the state as it was. -/
theorem exec_set_frame {s : State} (h : s.cmdReady = true) {idx : LedIndex} (hi : idx.toNat < s.params.n) (r g b : Byte)
    (m : Memory) : exec (.set idx r g b) { s with frame := m } =
      .next { s with frame := storeTriple idx.toNat (perm s.params.wireOrder r g b) m } :=
  exec_set_in (s := { s with frame := m }) h hi r g b

/-- The `SET` commands of the first `count` LEDs leave what the loop of `SETALL` has written after `count` rounds. -/
theorem execAll_sets {s : State} (hp : s.params.ok) (hr : s.cmdReady = true) (r g b : Byte) {count : Nat}
    (hc : count ≤ s.params.n) :
    execAll ((List.range count).map fun led => .set (BitVec.ofNat 16 led) r g b) s =
      .next { s with frame := storeTriples (perm s.params.wireOrder r g b) s.frame count } := by
  induction count with
  | zero => rfl
  | succ k ih =>
    have hk := ledIndex_toNat hp hc
    rw [List.range_succ, List.map_append, execAll_append, ih (by omega), andThen_next, List.map_singleton, execAll,
      exec_set_frame hr (hk.trans_lt hc), hk]
    rfl

/-! ### The obligations -/

/-- Settles O11: `SET` in bounds is `storeLED`, whose frame the laws of `storeTriple` give; out of bounds it faults. -/
theorem setWritesOneTriple : Obligations.SetWritesOneTriple := by
  refine ⟨fun w => decode_of_opSet, fun s idx r g b hr hw hi => ?_, fun s idx r g b hr hi => exec_set_out hr hi r g b, rfl⟩
  refine ⟨_, exec_set_in hr hi r g b, rfl, tripleAt_storeTriple hw _ _, fun a ha => read_storeTriple_other hw _ ha,
    fun hsame => ?_, ?_⟩
  · rw [storeLED, storeTriple_self hw hsame]
  · rintro rfl rfl rfl
    exact exec_clr_in hr hi

/-- Settles O12: the loop of `SETALL` writes every triple, and `execAll_sets` runs the `N` commands `SET` along it. -/
theorem setallWritesEveryTriple : Obligations.SetallWritesEveryTriple := by
  refine ⟨fun w => decode_of_opSetall,
    fun s w hr ho hz => presentWord_illegal hr ((decode_of_opSetall ho).trans (if_neg hz)),
    fun s r g b hs hr => ?_, rfl⟩
  obtain ⟨hp, ⟨hw, -⟩, -⟩ := hs
  have triple {led : Nat} (hl : led < s.params.n) :
      tripleAt (storeAllLEDs r g b s).frame led = perm s.params.wireOrder r g b := tripleAt_storeTriples hw _ hl
  exact ⟨_, exec_setall hr r g b, rfl, fun led => triple, fun a ha => read_storeTriples_above hw _ ha,
    execAll_sets hp hr r g b le_rfl,
    fun idx hi => ⟨_, exec_get_in (s := storeAllLEDs r g b s) hr hi (loadLED_of_tripleAt (triple hi)), rfl, rfl⟩⟩

/-- Settles O13: `CLR` in bounds is the `storeLED` of black, which every wire order keeps; the word on a fault is its own. -/
theorem clrIsSetOfZero : Obligations.ClrIsSetOfZero := by
  refine ⟨fun w => decode_of_opClr, fun s idx hr hw hi => ?_, fun s idx hr hi => ?_,
    fun s w hr ho hz => presentWord_illegal hr ((decode_of_opClr ho).trans (if_neg hz)), rfl⟩
  · exact ⟨_, exec_clr_in hr hi, exec_set_in hr hi 0 0 0, rfl,
      (tripleAt_storeTriple hw _ _).trans (perm_zero _), fun a ha => read_storeTriple_other hw _ ha⟩
  · rw [exec_clr_out hr hi, encode_clr]
    rfl

/-- Settles O14: the loop of `SETALL` with black leaves a legal frame empty. -/
theorem clrallClearsTheFrameOnly : Obligations.ClrallClearsTheFrameOnly := by
  refine ⟨fun w => decode_of_opClrall,
    fun s w hr ho hz => presentWord_illegal hr ((decode_of_opClrall ho).trans (if_neg hz)),
    fun s => rfl, fun s hs hr => ?_, read_nil⟩
  obtain ⟨-, hf, -⟩ := hs
  rw [exec_clrall hr, storeAllLEDs, perm_zero, storeTriples_zero hf]

end Sys2Proof.Machine

/-!
PROOF of O25 and O27: `FLUSH` as one step (R110) and the symbols of a byte (R111). First its word, then what a whole flush
emits and leaves, then the obligations.
-/

namespace Sys2Proof

theorem decode_of_opFlush {w : CmdWord} (h : opField w = 0x05) :
    decode w = if w.extractLsb' 0 40 = 0 then .ok .flush else .error .reservedBit := by
  rw [decode, h]
  exact withoutReserved_of_iff (reserved_Z w) _

end Sys2Proof

namespace Sys2Proof.Machine

/-! ### What a whole flush emits (R110, R111) -/

/-- The symbols of a byte, written out in the order of the line (R111). -/
theorem map_sym_byteBits (v : Byte) : (byteBits v).map sym = [sym (v.getLsbD 7), sym (v.getLsbD 6), sym (v.getLsbD 5),
    sym (v.getLsbD 4), sym (v.getLsbD 3), sym (v.getLsbD 2), sym (v.getLsbD 1), sym (v.getLsbD 0)] := rfl

/-- The emission loop of R110: ascending bytes outside, descending bits inside. -/
theorem flushSymbols_eq_loop (s : State) : flushSymbols s = (List.range (3 * s.params.n)).flatMap fun a =>
    [7, 6, 5, 4, 3, 2, 1, 0].map fun j => if (s.frame.read a).getLsbD j then Symbol.L else Symbol.S := by
  rw [flushSymbols, frameBits, List.map_flatMap]
  rfl

/-- The symbols of a flush depend on the parameters and the frame alone. -/
theorem flushSymbols_congr {s t : State} (hp : s.params = t.params) (hf : s.frame = t.frame) :
    flushSymbols s = flushSymbols t := by rw [flushSymbols, flushSymbols, frameBits_congr hp hf]

/-- An all-zero frame is `24*N` short pulses (R110). -/
theorem flushSymbols_of_empty {s : State} (h : s.frame = []) : flushSymbols s = List.replicate (24 * s.params.n) .S := by
  refine List.eq_replicate_iff.2 ⟨length_flushSymbols s, fun y hy => ?_⟩
  obtain ⟨k, hk⟩ := List.mem_iff_getElem?.1 hy
  obtain ⟨hlt, -⟩ := List.getElem?_eq_some_iff.1 hk
  rw [flushSymbols_getElem? s (by simpa using hlt), h, read_nil] at hk
  simpa [sym, eq_comm] using hk

/-! ### What a whole flush leaves (R110) -/

theorem flushWhole_trace (s : State) : (flushWhole s).trace = s.trace ++ flushSymbols s := rfl

/-- The gap count starts again at 0, below every legal `RESET_CYC` (R8, R33). -/
theorem flushWhole_latched {s : State} (hp : s.params.ok) : (flushWhole s).latched = false := by
  obtain ⟨-, -, -, -, hgap, -⟩ := hp
  exact decide_eq_false (Nat.not_le.2 hgap)

/-- A finished flush leaves the block ready: idle, and no fault raised. -/
theorem flushWhole_cmdReady {s : State} (h : s.cmdReady = true) : (flushWhole s).cmdReady = true :=
  (cmdReady_iff _).2 ⟨((cmdReady_iff s).1 h).1, rfl⟩

/-- A second flush right after emits the same symbols once more (R110). -/
theorem eventStep_flush_again {s : State} (h : s.cmdReady = true) : ∃ u,
    eventStep (.cmd 0x050000000000) (flushWhole s) = .next u ∧ u.trace = (flushWhole s).trace ++ flushSymbols s :=
  ⟨_, eventStep_flush (flushWhole_cmdReady h), congrArg ((flushWhole s).trace ++ ·) (flushSymbols_congr rfl rfl)⟩

/-! ### The pulse that starts it, and the flush in progress -/

theorem highCycles_lt {p : Params} (hp : p.ok) : highCycles p false < highCycles p true := by
  obtain ⟨-, ⟨-, hlt⟩, -⟩ := hp
  exact hlt

/-- While a flush is in progress no command is accepted (R41). -/
theorem cmdReady_of_busy {s : State} (h : s.busy = true) : s.cmdReady = false :=
  Bool.eq_false_iff.2 fun hr => (busy_iff s).1 h ((cmdReady_iff s).1 hr).2

/-! ### The obligations -/

/-- Settles O27: the order of the eight symbols is that of `byteBits`; the examples are instances. -/
theorem byteSymbolsMostSignificantFirst : Obligations.ByteSymbolsMostSignificantFirst :=
  ⟨rfl, rfl, map_sym_byteBits, map_sym_byteBits 0x00, map_sym_byteBits 0xFF, map_sym_byteBits 0x80,
    map_sym_byteBits 0x01, map_sym_byteBits 0xA5⟩

/-- Settles O25: the step is `flushWhole`, whose symbols `flushSymbols_eq_loop` spells as the loop; it leaves the block ready,
so it can be repeated, while the cycle level's `FLUSH` leaves it in the first high phase. -/
theorem flushEmitsTheWholeFrame : Obligations.FlushEmitsTheWholeFrame := by
  refine ⟨fun w => decode_of_opFlush,
    fun s w hr ho hz => presentWord_illegal hr ((decode_of_opFlush ho).trans (if_neg hz)), fun p => highCycles_lt,
    fun s hs hr => ?_, fun s hb => exec_notReady (cmdReady_of_busy hb) _, ⟨_, eventStep_flush rfl, by decide⟩⟩
  obtain ⟨hp, -⟩ := hs
  have htrace : (flushWhole (clearStrobe s)).trace = s.trace ++ flushSymbols s := flushWhole_trace (clearStrobe s)
  refine ⟨_, eventStep_flush hr, ?_, ?_, flushWhole_latched hp, rfl, fun hempty => ?_, ?_, ?_⟩
  · rw [htrace, flushSymbols_eq_loop]
  · rw [htrace, List.length_append, length_flushSymbols]
  · rw [htrace, flushSymbols_of_empty hempty]
  · have hdrop : (flushWhole (clearStrobe s)).trace.drop s.trace.length = flushSymbols (clearStrobe s) := List.drop_left
    rw [hdrop]
    exact eventStep_flush_again hr
  · exact ⟨_, exec_flush hr hp.1.1, rfl, Bool.and_false _⟩

end Sys2Proof.Machine

/-!
PROOF of O34 and O35: the counted tick (R142) and the absent ticks in `ABSENT` (R147). The carry chain of `countTick_toNat`
says of each counter what it does at its top value; `wrap_eq_mod` reads that as counting modulo its range.
-/

namespace Sys2Proof.Machine

/-- A counter that returns to 0 from its top value counts modulo its range. -/
theorem wrap_eq_mod {x m : Nat} (h : x < m) : (if x = m - 1 then 0 else x + 1) = (x + 1) % m := by
  split
  case isTrue htop => rw [show x + 1 = m by omega, Nat.mod_self]
  case isFalse hbelow => exact (Nat.mod_eq_of_lt (by omega)).symm

/-- A counted tick from `PRESENT`, where `GRACE` is 0 (R48 I3), is the counter update alone (R142). -/
theorem tickPresence_present {p : Params} {q : Presence} (hm : q.mode = .present) (hg : q.grace = 0) :
    tickPresence p true q = countTick p q := by
  have hq : { q with mode := .present, grace := 0 } = q := by rw [← hm, ← hg]
  rw [tickPresence_true, presentTick, hq]

/-- Settles O34: the tick is `countTick`, whose carry chain `wrap_eq_mod` reads as moduli. -/
theorem countedTickCarries : Obligations.CountedTickCarries := by
  intro p q hp hq hm
  obtain ⟨-, -, -, -, -, ⟨ht2, ht255⟩, -⟩ := hp
  obtain ⟨-, hgrace, -, hsub, hsec, hmin, -⟩ := hq
  have hg := hgrace hm
  obtain ⟨esub, esec, emin⟩ := countTick_toNat ⟨by omega, ht255⟩ hsub hsec hmin
  rw [tickPresence_present hm hg]
  refine ⟨by rw [countTick_mode, hm], by rw [countTick_grace, hg], ?_, ?_, ?_⟩
  · rw [esub, wrap_eq_mod hsub]
  · rw [esec, ← wrap_eq_mod hsec]
  · rw [emin, ← wrap_eq_mod hmin]

/-- Settles O35: by induction on the number of ticks, each of which is `tickPresence_absent`. -/
theorem absentTicksAreNoOps : Obligations.AbsentTicksAreNoOps := by
  intro p q n hm
  induction n with
  | zero => rfl
  | succ k ih => rw [holdFlag, tickPresence_absent p hm, ih]

end Sys2Proof.Machine

/-!
PROOF of O1 to O6: the encoding (R73 to R82). One lemma for each opcode says what a word of it decodes to; a word is the
layout of its fields, so a legal word is the encoding of the command it decodes to.
-/

namespace Sys2Proof

/-! ### Decoding, opcode by opcode (R74, R79) -/

theorem decode_of_opNop {w : CmdWord} (h : opField w = 0x00) :
    decode w = if w.extractLsb' 0 40 = 0 then .ok .nop else .error .reservedBit := by
  rw [decode, h]
  exact withoutReserved_of_iff (reserved_Z w) _

theorem decode_of_opGet {w : CmdWord} (h : opField w = 0x06) :
    decode w = if w.extractLsb' 0 24 = 0 then .ok (.get (idxField w)) else .error .reservedBit := by
  rw [decode, h]
  exact withoutReserved_of_iff (reserved_I w) _

theorem decode_of_opSetpres {w : CmdWord} (h : opField w = 0x07) :
    decode w = if w.extractLsb' 1 39 = 0 then .ok (.setpres (w.getLsbD 0)) else .error .reservedBit := by
  rw [decode, h]
  exact withoutReserved_of_iff (reserved_V1 w) _

theorem decode_of_opRdstat {w : CmdWord} (h : opField w = 0x08) :
    decode w = if w.extractLsb' 3 37 = 0 then .ok (.rdstat (selectorOf (w.extractLsb' 0 3)))
      else .error .reservedBit := by
  rw [decode, h]
  exact withoutReserved_of_iff (reserved_V3 w) _

theorem decode_of_opCnext {w : CmdWord} (h : opField w = 0x09) :
    decode w = if w.extractLsb' 0 40 = 0 then .ok .cnext else .error .reservedBit := by
  rw [decode, h]
  exact withoutReserved_of_iff (reserved_Z w) _

/-- The unassigned opcodes (R79). -/
theorem decode_of_opUnassigned {w : CmdWord} (h : 0x0A ≤ (opField w).toNat) : decode w = .error .unknownOpcode := by
  unfold decode
  split
  case h_11 => rfl
  all_goals omega

/-- Every opcode is one of the ten of R78 or unassigned. -/
theorem opField_cases (w : CmdWord) : opField w = 0x00 ∨ opField w = 0x01 ∨ opField w = 0x02 ∨ opField w = 0x03 ∨
    opField w = 0x04 ∨ opField w = 0x05 ∨ opField w = 0x06 ∨ opField w = 0x07 ∨ opField w = 0x08 ∨ opField w = 0x09 ∨
    0x0A ≤ (opField w).toNat := by
  bv_omega

/-! ### The words of the commands (R75) -/

/-- The low three bytes of a word are those of its layout (R73). -/
theorem slice_rgb_layout (op : BitVec 8) (i : LedIndex) : (layout op i 0 0 0).extractLsb' 0 24 = 0 :=
  (reserved_I _).1 ((layout_and op 0 i 0 0 0xFF 0 0xFF 0 0xFF).trans (by simp [layout]))

/-- Settles O2: the opcode of a word selects its arm, and the fields of a layout are the operands. -/
theorem decodeEncodeGivesEveryInstr : Obligations.DecodeEncodeGivesEveryInstr := by
  intro i
  cases i with
  | nop => rfl
  | set idx r g b => rw [encode, decode_of_opSet (by simp)]; simp
  | setall r g b =>
    have hidx : (layout 0x02 0 r g b).extractLsb' 24 16 = 0 := idxField_layout 0x02 0 r g b
    rw [encode, decode_of_opSetall (by simp), if_pos hidx]
    simp
  | clr idx => rw [encode, decode_of_opClr (by simp), if_pos (slice_rgb_layout _ _)]; simp
  | clrall => rfl
  | flush => rfl
  | get idx => rw [encode, decode_of_opGet (by simp), if_pos (slice_rgb_layout _ _)]; simp
  | setpres v => cases v <;> rfl
  | rdstat x => cases x <;> rfl
  | cnext => rfl

/-- Settles O1: each word is evaluated. -/
theorem wordsDecodeAsWrittenOut : Obligations.WordsDecodeAsWrittenOut :=
  ⟨rfl, rfl, rfl, rfl, rfl, rfl, rfl, rfl, rfl, rfl⟩

/-- A word whose opcode and operand bits are known is the layout of its fields, spelled with them. -/
theorem layout_of_fields {w : CmdWord} {op : BitVec 8} {i : LedIndex} {r g b : Byte} (ho : opField w = op)
    (hi : idxField w = i) (hr : redField w = r) (hg : greenField w = g) (hb : blueField w = b) :
    layout op i r g b = w := by rw [← ho, ← hi, ← hr, ← hg, ← hb, layout_fields]

/-- Format `Z`: nothing but the opcode (R74). -/
theorem layout_of_Z {w : CmdWord} {op : BitVec 8} (ho : opField w = op) (h : w.extractLsb' 0 40 = 0) :
    layout op 0 0 0 0 = w :=
  layout_of_fields ho (slice_zero h (by omega) (by omega)) (slice_zero h (by omega) (by omega))
    (slice_zero h (by omega) (by omega)) (slice_zero h (by omega) (by omega))

/-- Format `I`: the opcode and an index (R74). -/
theorem layout_of_I {w : CmdWord} {op : BitVec 8} (ho : opField w = op) (h : w.extractLsb' 0 24 = 0) :
    layout op (idxField w) 0 0 0 = w :=
  layout_of_fields ho rfl (slice_zero h (by omega) (by omega)) (slice_zero h (by omega) (by omega))
    (slice_zero h (by omega) (by omega))

/-- The formats `V1` and `V3`: the opcode and the low `k` bits of the lowest byte (R74). -/
theorem layout_of_V {w : CmdWord} {op : BitVec 8} (ho : opField w = op) {k n : Nat} (hk : k ≤ 8) (hn : k + n = 40)
    (h : w.extractLsb' k n = 0) : layout op 0 0 0 ((w.extractLsb' 0 k).zeroExtend 8) = w := by
  refine layout_of_fields ho (slice_zero h (by omega) (by omega)) (slice_zero h (by omega) (by omega))
    (slice_zero h (by omega) (by omega)) (BitVec.eq_of_getLsbD_eq fun j hj => ?_)
  simp only [blueField, BitVec.getLsbD_extractLsb', BitVec.truncate_eq_setWidth, BitVec.getLsbD_setWidth, hj,
    Nat.zero_add, decide_true, Bool.true_and]
  by_cases hjk : j < k
  · simp [hjk]
  · have hbit := congrArg (fun x => x.getLsbD (j - k)) h
    simp only [BitVec.getLsbD_extractLsb', show k + (j - k) = j by omega] at hbit
    simpa [hjk, show j - k < n by omega] using hbit

/-- Bit 0 as a byte. -/
theorem zeroExtend_bit (w : CmdWord) : (w.extractLsb' 0 1).zeroExtend 8 = if w.getLsbD 0 then (1 : Byte) else 0 := by
  apply BitVec.eq_of_getLsbD_eq
  intro j hj
  simp only [BitVec.truncate_eq_setWidth, BitVec.getLsbD_setWidth, BitVec.getLsbD_extractLsb']
  rcases j with _ | j
  · cases w.getLsbD 0 <;> rfl
  · cases w.getLsbD 0 <;> simp

/-- A format that checks its reserved bits accepts a word only without them, and then as its own command. -/
theorem of_format_ok {p : Prop} [Decidable p] {w : CmdWord} {i j : Instr} {e : IllegalWord}
    (h : decode w = if p then .ok i else .error e) (hw : decode w = .ok j) : p ∧ i = j := by
  rw [h] at hw
  split at hw <;> cases hw
  exact ⟨‹p›, rfl⟩

/-- Settles O3: the reserved bits of a legal word are 0, so its layout has only the operands. -/
theorem encodeDecodeGivesTheWord : Obligations.EncodeDecodeGivesTheWord := by
  intro w i hw
  obtain ho | ho | ho | ho | ho | ho | ho | ho | ho | ho | ho := opField_cases w
  · obtain ⟨hz, rfl⟩ := of_format_ok (decode_of_opNop ho) hw
    exact layout_of_Z ho hz
  · rw [decode_of_opSet ho] at hw
    cases hw
    exact layout_of_fields ho rfl rfl rfl rfl
  · obtain ⟨hz, rfl⟩ := of_format_ok (decode_of_opSetall ho) hw
    exact layout_of_fields ho hz rfl rfl rfl
  · obtain ⟨hz, rfl⟩ := of_format_ok (decode_of_opClr ho) hw
    exact layout_of_I ho hz
  · obtain ⟨hz, rfl⟩ := of_format_ok (decode_of_opClrall ho) hw
    exact layout_of_Z ho hz
  · obtain ⟨hz, rfl⟩ := of_format_ok (decode_of_opFlush ho) hw
    exact layout_of_Z ho hz
  · obtain ⟨hz, rfl⟩ := of_format_ok (decode_of_opGet ho) hw
    exact layout_of_I ho hz
  · obtain ⟨hz, rfl⟩ := of_format_ok (decode_of_opSetpres ho) hw
    rw [encode, ← zeroExtend_bit]
    exact layout_of_V ho (by omega) rfl hz
  · obtain ⟨hz, rfl⟩ := of_format_ok (decode_of_opRdstat ho) hw
    rw [encode, selectorBits_selectorOf]
    exact layout_of_V ho (by omega) rfl hz
  · obtain ⟨hz, rfl⟩ := of_format_ok (decode_of_opCnext ho) hw
    exact layout_of_Z ho hz
  · rw [decode_of_opUnassigned ho] at hw
    cases hw

/-- A word spells a command exactly when it is the command's encoding. -/
theorem decode_eq_ok_iff {w : CmdWord} {i : Instr} : decode w = .ok i ↔ w = encode i :=
  ⟨fun h => (encodeDecodeGivesTheWord w i h).symm, fun h => h ▸ decodeEncodeGivesEveryInstr i⟩

/-! ### The opcode table (R74) -/

/-- Every encoding matches its command's row. -/
theorem encode_matches_row (i : Instr) : encode i &&& (opcodeRow i).mask = (opcodeRow i).pattern := by
  cases i with
  | nop => exact Laws.TableRow.nop
  | set idx r g b => exact Laws.TableRow.set idx r g b
  | setall r g b => exact Laws.TableRow.setall r g b
  | clr idx => exact Laws.TableRow.clr idx
  | clrall => exact Laws.TableRow.clrall
  | flush => exact Laws.TableRow.flush
  | get idx => exact Laws.TableRow.get idx
  | setpres v => exact Laws.TableRow.setpres v
  | rdstat x => exact Laws.TableRow.rdstat x
  | cnext => exact Laws.TableRow.cnext

/-- A mask of whole fields and the layout it leaves fix these fields. -/
theorem fields_of_mask {w : CmdWord} {op op' : BitVec 8} {i i' : LedIndex} {r r' g g' b b' : Byte}
    (h : w &&& layout op i r g b = layout op' i' r' g' b') : opField w &&& op = op' ∧ idxField w &&& i = i' ∧
      redField w &&& r = r' ∧ greenField w &&& g = g' ∧ blueField w &&& b = b' :=
  layout_inj.1 ((and_layout w op i r g b).symm.trans h)

/-- A full mask leaves a byte as it is. -/
theorem and_ones8 (x : BitVec 8) : x &&& 0xFF = x := BitVec.and_allOnes

/-- A full mask leaves an index as it is. -/
theorem and_ones16 (x : LedIndex) : x &&& 0xFFFF = x := BitVec.and_allOnes

/-- A byte without bits 7 to 1 is a flag. -/
theorem byte_of_and_FE {x : Byte} (h : x &&& 0xFE = 0) : ∃ v : Bool, x = if v then 1 else 0 := by
  revert x; decide

/-- A byte without bits 7 to 3 is a selector. -/
theorem byte_of_and_F8 {x : Byte} (h : x &&& 0xF8 = 0) : ∃ v : BitVec 3, x = v.zeroExtend 8 := by
  revert x; decide

/-- A word that matches a row is the encoding of a command of this row. -/
theorem encoding_of_matches {w : CmdWord} {i : Instr} (h : w &&& (opcodeRow i).mask = (opcodeRow i).pattern) :
    ∃ j, w = encode j ∧ opcodeRow j = opcodeRow i := by
  have whole (j : Instr) (hj : opcodeRow j = ⟨encode j, 0xFFFFFFFFFFFF⟩) (hij : i = j) :
      ∃ j, w = encode j ∧ opcodeRow j = opcodeRow i := by
    subst hij
    rw [hj] at h
    exact ⟨i, (BitVec.and_allOnes (x := w)).symm.trans h, rfl⟩
  cases i with
  | nop => exact whole .nop rfl rfl
  | clrall => exact whole .clrall rfl rfl
  | flush => exact whole .flush rfl rfl
  | cnext => exact whole .cnext rfl rfl
  | set =>
    obtain ⟨ho, -⟩ := fields_of_mask (op := 0xFF) (i := 0) (r := 0) (g := 0) (b := 0)
      (op' := 0x01) (i' := 0) (r' := 0) (g' := 0) (b' := 0) h
    rw [and_ones8] at ho
    exact ⟨.set (idxField w) (redField w) (greenField w) (blueField w),
      (layout_of_fields ho rfl rfl rfl rfl).symm, rfl⟩
  | setall =>
    obtain ⟨ho, hi, -⟩ := fields_of_mask (op := 0xFF) (i := 0xFFFF) (r := 0) (g := 0) (b := 0)
      (op' := 0x02) (i' := 0) (r' := 0) (g' := 0) (b' := 0) h
    rw [and_ones8] at ho
    rw [and_ones16] at hi
    exact ⟨.setall (redField w) (greenField w) (blueField w), (layout_of_fields ho hi rfl rfl rfl).symm, rfl⟩
  | clr =>
    obtain ⟨ho, -, hr, hg, hb⟩ := fields_of_mask (op := 0xFF) (i := 0) (r := 0xFF) (g := 0xFF) (b := 0xFF)
      (op' := 0x03) (i' := 0) (r' := 0) (g' := 0) (b' := 0) h
    rw [and_ones8] at ho hr hg hb
    exact ⟨.clr (idxField w), (layout_of_fields ho rfl hr hg hb).symm, rfl⟩
  | get =>
    obtain ⟨ho, -, hr, hg, hb⟩ := fields_of_mask (op := 0xFF) (i := 0) (r := 0xFF) (g := 0xFF) (b := 0xFF)
      (op' := 0x06) (i' := 0) (r' := 0) (g' := 0) (b' := 0) h
    rw [and_ones8] at ho hr hg hb
    exact ⟨.get (idxField w), (layout_of_fields ho rfl hr hg hb).symm, rfl⟩
  | setpres =>
    obtain ⟨ho, hi, hr, hg, hb⟩ := fields_of_mask (op := 0xFF) (i := 0xFFFF) (r := 0xFF) (g := 0xFF) (b := 0xFE)
      (op' := 0x07) (i' := 0) (r' := 0) (g' := 0) (b' := 0) h
    rw [and_ones8] at ho hr hg
    rw [and_ones16] at hi
    obtain ⟨v, hv⟩ := byte_of_and_FE hb
    exact ⟨.setpres v, (layout_of_fields ho hi hr hg hv).symm, rfl⟩
  | rdstat =>
    obtain ⟨ho, hi, hr, hg, hb⟩ := fields_of_mask (op := 0xFF) (i := 0xFFFF) (r := 0xFF) (g := 0xFF) (b := 0xF8)
      (op' := 0x08) (i' := 0) (r' := 0) (g' := 0) (b' := 0) h
    rw [and_ones8] at ho hr hg
    rw [and_ones16] at hi
    obtain ⟨v, hv⟩ := byte_of_and_F8 hb
    refine ⟨.rdstat (selectorOf v), ?_, rfl⟩
    rw [encode, selectorBits_selectorOf]
    exact (layout_of_fields ho hi hr hg hv).symm

/-- Settles O4: the words that match a row are the encodings of its commands, and an encoding decodes to one command. -/
theorem legalWordsMatchOneTableRow : Obligations.LegalWordsMatchOneTableRow := by
  refine ⟨fun w => ⟨fun ⟨i, hi⟩ => ⟨i, ?_⟩, fun ⟨i, hi⟩ => ?_⟩, fun w i j hi hj => ?_⟩
  · rw [decode_eq_ok_iff.1 hi]
    exact encode_matches_row i
  · obtain ⟨j, rfl, -⟩ := encoding_of_matches hi
    exact ⟨j, decodeEncodeGivesEveryInstr j⟩
  · obtain ⟨k, rfl, hk⟩ := encoding_of_matches hj
    rw [decodeEncodeGivesEveryInstr k] at hi
    cases hi
    exact hk

/-! ### Illegal words (R79) -/

/-- A format that checks its reserved bits refuses a word exactly when one of them is 1. -/
theorem exists_error_iff {p : Prop} [Decidable p] {o : Except IllegalWord Instr} {i : Instr} {e : IllegalWord}
    (h : o = if p then .ok i else .error e) : (∃ e, o = .error e) ↔ ¬ p := by
  rw [h]
  split
  case isTrue hp => exact iff_of_false (by simp) (not_not.2 hp)
  case isFalse hp => exact iff_of_true ⟨e, rfl⟩ hp

/-- Settles O5: opcode by opcode, the reserved bits of the format decide. -/
theorem illegalWordsAreThoseOfR79 : Obligations.IllegalWordsAreThoseOfR79 := by
  refine ⟨fun w => ?_, ?_, fun s w e hr hw => Machine.presentWord_illegal hr hw⟩
  · have hop : w.extractLsb' 40 8 = opField w := rfl
    rw [hop]
    obtain ho | ho | ho | ho | ho | ho | ho | ho | ho | ho | ho := opField_cases w
    · rw [exists_error_iff (decode_of_opNop ho), ho]; simp
    · rw [decode_of_opSet ho, ho]; simp
    · rw [exists_error_iff (decode_of_opSetall ho), ho]; simp
    · rw [exists_error_iff (decode_of_opClr ho), ho]; simp
    · rw [exists_error_iff (decode_of_opClrall ho), ho]; simp
    · rw [exists_error_iff (decode_of_opFlush ho), ho]; simp
    · rw [exists_error_iff (decode_of_opGet ho), ho]; simp
    · rw [exists_error_iff (decode_of_opSetpres ho), ho]; simp
    · rw [exists_error_iff (decode_of_opRdstat ho), ho]; simp
    · rw [exists_error_iff (decode_of_opCnext ho), ho]; simp
    · exact iff_of_true ⟨_, decode_of_opUnassigned ho⟩ (.inl ho)
  · simp only [List.forall_mem_cons]
    exact ⟨⟨_, rfl⟩, ⟨_, rfl⟩, ⟨_, rfl⟩, ⟨_, rfl⟩, ⟨_, rfl⟩, ⟨_, rfl⟩, by simp⟩

end Sys2Proof

namespace Sys2Proof.Machine

/-! ### The assembler (R81, R82) -/

/-- What the assembler accepts fits its fields and is the command spelled. -/
theorem assemble_eq_ok {c : AsmCommand} {i : Instr} (h : assemble c = .ok i) : c.fits = true ∧ i = c.expand := by
  unfold assemble at h
  split at h <;> cases h
  exact ⟨‹_›, rfl⟩

/-- What does not fit is refused. -/
theorem assemble_refuses {c : AsmCommand} (h : c.fits = false) : assemble c = .error .doesNotFit := if_neg (by simp [h])

/-- A number that fits a field is the field's value. -/
theorem toNat_ofNat_of_lt {w x : Nat} (h : x < 2 ^ w) : (BitVec.ofNat w x).toNat = x := by
  rw [BitVec.toNat_ofNat, Nat.mod_eq_of_lt h]

/-- The number of `SETRGB` is put together from its bytes (R82). -/
theorem rgb_bytes {rgb : Nat} (h : rgb < 16777216) : rgb / 65536 < 256 ∧ rgb / 256 % 256 < 256 ∧ rgb % 256 < 256 ∧
    65536 * (rgb / 65536) + 256 * (rgb / 256 % 256) + rgb % 256 = rgb := by omega

/-- `SETRGB` with the number of three bytes is `SET` with these bytes (R82). -/
theorem assemble_setrgb {r g b : Nat} (idx : Nat) (hr : r < 256) (hg : g < 256) (hb : b < 256) :
    assemble (.setrgb idx (65536 * r + 256 * g + b)) = assemble (.set idx r g b) := by
  have er : (65536 * r + 256 * g + b) / 65536 = r := by omega
  have eg : (65536 * r + 256 * g + b) / 256 % 256 = g := by omega
  have eb : (65536 * r + 256 * g + b) % 256 = b := by omega
  have hexp : (AsmCommand.setrgb idx (65536 * r + 256 * g + b)).expand = (AsmCommand.set idx r g b).expand := by
    simp only [AsmCommand.expand, er, eg, eb]
  have hfits : (AsmCommand.setrgb idx (65536 * r + 256 * g + b)).fits = (AsmCommand.set idx r g b).fits :=
    decide_eq_decide.2 (by omega)
  rw [assemble, assemble, hexp, hfits]

/-- Settles O6: an accepted operand is below the size of its field, so the field holds it whole. -/
theorem assemblerNeverTruncates : Obligations.AssemblerNeverTruncates := by
  refine ⟨fun idx r g b i h => ?_, fun idx r g b h => ?_, fun r g b i h => ?_, fun r g b h => ?_, fun idx i h => ?_,
    fun idx h => ?_, fun idx i h => ?_, fun idx h => ?_, fun v i h => ?_, fun v h => ?_, fun sel i h => ?_,
    fun sel h => ?_, fun idx rgb i h => ?_, fun idx rgb h => ?_, ⟨rfl, rfl, rfl, rfl⟩,
    fun idx r g b => assemble_setrgb idx, rfl, rfl⟩
  · obtain ⟨hf, rfl⟩ := assemble_eq_ok h
    obtain ⟨hi, hr, hg, hb⟩ := of_decide_eq_true hf
    exact ⟨_, _, _, _, rfl, toNat_ofNat_of_lt hi, toNat_ofNat_of_lt hr, toNat_ofNat_of_lt hg, toNat_ofNat_of_lt hb⟩
  · exact assemble_refuses (decide_eq_false (by omega))
  · obtain ⟨hf, rfl⟩ := assemble_eq_ok h
    obtain ⟨hr, hg, hb⟩ := of_decide_eq_true hf
    exact ⟨_, _, _, rfl, toNat_ofNat_of_lt hr, toNat_ofNat_of_lt hg, toNat_ofNat_of_lt hb⟩
  · exact assemble_refuses (decide_eq_false (by omega))
  · obtain ⟨hf, rfl⟩ := assemble_eq_ok h
    exact ⟨_, rfl, toNat_ofNat_of_lt (of_decide_eq_true hf)⟩
  · exact assemble_refuses (decide_eq_false (by omega))
  · obtain ⟨hf, rfl⟩ := assemble_eq_ok h
    exact ⟨_, rfl, toNat_ofNat_of_lt (of_decide_eq_true hf)⟩
  · exact assemble_refuses (decide_eq_false (by omega))
  · obtain ⟨hf, rfl⟩ := assemble_eq_ok h
    have hv : v = 0 ∨ v = 1 := by have : v < 2 := of_decide_eq_true hf; omega
    refine ⟨_, rfl, ?_⟩
    obtain rfl | rfl := hv <;> rfl
  · exact assemble_refuses (decide_eq_false (by omega))
  · obtain ⟨hf, rfl⟩ := assemble_eq_ok h
    refine ⟨_, rfl, ?_⟩
    rw [selectorBits_selectorOf]
    exact toNat_ofNat_of_lt (of_decide_eq_true hf)
  · exact assemble_refuses (decide_eq_false (by omega))
  · obtain ⟨hf, rfl⟩ := assemble_eq_ok h
    obtain ⟨hi, hrgb⟩ := of_decide_eq_true hf
    obtain ⟨hr, hg, hb, hsum⟩ := rgb_bytes hrgb
    refine ⟨_, _, _, _, rfl, toNat_ofNat_of_lt hi, ?_⟩
    rw [toNat_ofNat_of_lt hr, toNat_ofNat_of_lt hg, toNat_ofNat_of_lt hb, hsum]
  · exact assemble_refuses (decide_eq_false (by omega))

end Sys2Proof.Machine

/-!
What an accepted command does, as a total function: `commandEffect` for a command, `wordEffect` for a word, `portEffect` for
the command port at an edge. Each is tied to `exec`, to `executeWord` and to the port, and `Effect` says which state a command
may touch (R90, R195). The equations of a clock edge are stated with them.
-/

namespace Sys2Proof.Machine

/-- A strip has an LED (R8). -/
theorem pos_of_inv {s : State} (hs : s.Inv) : 1 ≤ s.params.n := by
  obtain ⟨⟨⟨hn, -⟩, -⟩, -⟩ := hs
  exact hn

/-! ### Commands -/

/-- The state an accepted command leaves (R91 to R97, R116, R151, R153, R170). -/
def commandEffect (i : Instr) (s : State) : State :=
  match i with
  | .nop => s
  | .set idx r g b =>
    if idx.toNat < s.params.n then storeLED idx.toNat r g b s else enterFault .indexRange (encode (.set idx r g b)) s
  | .setall r g b => storeAllLEDs r g b s
  | .clr idx =>
    if idx.toNat < s.params.n then storeLED idx.toNat 0 0 0 s else enterFault .indexRange (encode (.clr idx)) s
  | .clrall => storeAllLEDs 0 0 0 s
  | .flush => startPulse 0 7 0 ((s.frame.read 0).getLsbD 7) s
  | .get idx =>
    if idx.toNat < s.params.n then
      respond (colourWord (loadLED idx.toNat s).1 (loadLED idx.toNat s).2.1 (loadLED idx.toNat s).2.2) s
    else enterFault .indexRange (encode (.get idx)) s
  | .setpres v => { s with pflag := v }
  | .rdstat x => respond (statusWord s x) s
  | .cnext => { s with csel := nextColour s.params.k s.csel }

/-- In a ready block a command answers its effect; `FLUSH` needs a byte to send. -/
theorem exec_ready {s : State} {i : Instr} (h : s.cmdReady = true) (hi : i = .flush → 1 ≤ s.params.n) :
    exec i s = .next (commandEffect i s) := by
  cases i with
  | nop => exact exec_nop h
  | set => rw [exec_set h, commandEffect]; split <;> rfl
  | setall => exact exec_setall h _ _ _
  | clr => rw [exec_clr h, commandEffect]; split <;> rfl
  | clrall => exact exec_clrall h
  | flush => exact exec_flush h (hi rfl)
  | get => rw [exec_get h, commandEffect]; split <;> rfl
  | setpres => exact exec_setpres h _
  | rdstat => exact exec_rdstat h _
  | cnext => exact exec_cnext h

/-- `FLUSH` answers a next state only where the frame has a byte. -/
theorem pos_of_exec_flush {s t : State} (h : s.cmdReady = true) (ht : exec .flush s = .next t) : 1 ≤ s.params.n := by
  by_contra hn
  have hb : frameBit? s (0 : BitVec 18).toNat (7 : BitVec 3).toNat = none := frameBit?_of_ge (by omega) _
  rw [show exec .flush s = sendBit 0 7 0 s from accept_ready h _, sendBit, hb] at ht
  cases ht

/-- Every next state of a command is its effect, or in a block that is not ready the state as it was. -/
theorem exec_eq_next {s t : State} {i : Instr} (ht : exec i s = .next t) :
    (s.cmdReady = false ∧ t = s) ∨ (s.cmdReady = true ∧ t = commandEffect i s) := by
  cases h : s.cmdReady with
  | false =>
    rw [exec_notReady h] at ht
    cases ht
    exact .inl ⟨rfl, rfl⟩
  | true =>
    rw [exec_ready h fun hi => pos_of_exec_flush h (hi ▸ ht)] at ht
    cases ht
    exact .inr ⟨rfl, rfl⟩

/-! ### What a command may touch (R195) -/

/-- The kinds of effect: which command has it, and the one part of the state it writes. -/
inductive Effect (s : State) : Instr → State → Prop
  | nothing : Effect s .nop s
  | stores {i : Instr} (h : WritesFrame i) (m : Memory) : Effect s i { s with frame := m }
  | faults {i : Instr} {idx : LedIndex} (h : HasIndex i idx) (hn : s.params.n ≤ idx.toNat) :
    Effect s i (enterFault .indexRange (encode i) s)
  | answersColour {idx : LedIndex} (hn : idx.toNat < s.params.n) (v : RspWord) : Effect s (.get idx) (respond v s)
  | answersStatus (x : Selector) : Effect s (.rdstat x) (respond (statusWord s x) s)
  | setsFlag (v : Bool) : Effect s (.setpres v) { s with pflag := v }
  | movesCursor : Effect s .cnext { s with csel := nextColour s.params.k s.csel }
  | startsPulse (b : Bool) : Effect s .flush (startPulse 0 7 0 b s)

theorem commandEffect_effect (i : Instr) (s : State) : Effect s i (commandEffect i s) := by
  cases i with
  | nop => exact .nothing
  | set idx r g b =>
    rw [commandEffect]
    split
    · exact .stores (.inl ⟨_, _, _, _, rfl⟩) _
    · exact .faults (.inl ⟨_, _, _, rfl⟩) (by omega)
  | setall r g b => exact .stores (.inr (.inl ⟨_, _, _, rfl⟩)) _
  | clr idx =>
    rw [commandEffect]
    split
    · exact .stores (.inr (.inr (.inl ⟨_, rfl⟩))) _
    · exact .faults (.inr (.inl rfl)) (by omega)
  | clrall => exact .stores (.inr (.inr (.inr rfl))) _
  | flush => exact .startsPulse _
  | get idx =>
    rw [commandEffect]
    split
    · exact .answersColour ‹_› _
    · exact .faults (.inr (.inr rfl)) (by omega)
  | setpres v => exact .setsFlag v
  | rdstat x => exact .answersStatus x
  | cnext => exact .movesCursor

namespace Effect

variable {s t : State} {i : Instr}

theorem params (h : Effect s i t) : t.params = s.params := by cases h <;> rfl

theorem pres (h : Effect s i t) : t.pres = s.pres := by cases h <;> rfl

theorem inputs (h : Effect s i t) : t.inputs = s.inputs := by cases h <;> rfl

theorem frame (h : Effect s i t) (hi : ¬ WritesFrame i) : t.frame = s.frame := by
  cases h with
  | stores hw => exact absurd hw hi
  | _ => rfl

theorem line (h : Effect s i t) (hi : i ≠ .flush) : t.ser = s.ser ∧ t.trace = s.trace := by
  cases h with
  | startsPulse => exact absurd rfl hi
  | _ => exact ⟨rfl, rfl⟩

theorem pflag (h : Effect s i t) (hi : ∀ v, i ≠ .setpres v) : t.pflag = s.pflag := by
  cases h with
  | setsFlag v => exact absurd rfl (hi v)
  | _ => rfl

theorem csel (h : Effect s i t) (hi : i ≠ .cnext) : t.csel = s.csel := by
  cases h with
  | movesCursor => exact absurd rfl hi
  | _ => rfl

theorem response (h : Effect s i t) (hg : ∀ idx, i ≠ .get idx) (hx : ∀ x, i ≠ .rdstat x) :
    t.rsp = s.rsp ∧ t.rspValid = s.rspValid := by
  cases h with
  | answersColour => exact absurd rfl (hg _)
  | answersStatus => exact absurd rfl (hx _)
  | _ => exact ⟨rfl, rfl⟩

theorem fault (h : Effect s i t) (hi : ∀ idx, ¬ HasIndex i idx) : t.fault = s.fault ∧ t.finfo = s.finfo := by
  cases h with
  | faults hx => exact absurd hx (hi _)
  | _ => exact ⟨rfl, rfl⟩

/-- A changed `FAULT` is an index out of range (R92). -/
theorem of_fault_ne (h : Effect s i t) (hf : t.fault ≠ s.fault) :
    t = enterFault .indexRange (encode i) s ∧ ∃ idx, HasIndex i idx ∧ s.params.n ≤ idx.toNat := by
  cases h with
  | faults hx hn => exact ⟨rfl, _, hx, hn⟩
  | _ => exact absurd rfl hf

/-- The strobe rises with a status word or a colour in range (R42). -/
theorem rspValid (h : Effect s i t) (hs : s.rspValid = false) : (t.rspValid = true ↔
    (∃ x, i = .rdstat x) ∨ ∃ idx : LedIndex, i = .get idx ∧ idx.toNat < s.params.n) := by
  cases h with
  | answersColour hn => exact iff_of_true rfl (.inr ⟨_, rfl, hn⟩)
  | answersStatus x => exact iff_of_true rfl (.inl ⟨x, rfl⟩)
  | stores hw =>
    refine iff_of_false (by simp [hs]) ?_
    obtain ⟨_, _, _, _, rfl⟩ | ⟨_, _, _, rfl⟩ | ⟨_, rfl⟩ | rfl := hw <;> simp
  | faults hx hn =>
    refine iff_of_false (by simp [hs]) ?_
    obtain ⟨_, _, _, rfl⟩ | rfl | rfl := hx
    · simp
    · simp
    · simpa using hn
  | nothing => exact iff_of_false (by simp [hs]) (by simp)
  | setsFlag => exact iff_of_false (by simp [hs]) (by simp)
  | movesCursor => exact iff_of_false (by simp [hs]) (by simp)
  | startsPulse => exact iff_of_false (by simp [hs, startPulse]) (by simp)

/-- Without the strobe `RSP` keeps its value (R42). -/
theorem rsp (h : Effect s i t) (ht : t.rspValid = false) : t.rsp = s.rsp := by
  cases h with
  | answersColour => cases ht
  | answersStatus => cases ht
  | _ => rfl

end Effect

/-- A next state of a command is the state as it was or an effect of the command. -/
theorem exec_effect {s t : State} {i : Instr} (h : exec i s = .next t) : t = s ∨ Effect s i t := by
  obtain ⟨-, rfl⟩ | ⟨-, rfl⟩ := exec_eq_next h
  · exact .inl rfl
  · exact .inr (commandEffect_effect i s)

/-! ### Words and the port -/

/-- The state an accepted word leaves (R76, R79, R90). -/
def wordEffect (w : CmdWord) (s : State) : State :=
  match decode w with
  | .ok i => commandEffect i s
  | .error _ => enterFault .illegalCmd w s

theorem wordEffect_ok {w : CmdWord} {i : Instr} (h : decode w = .ok i) (s : State) :
    wordEffect w s = commandEffect i s := by rw [wordEffect, h]

theorem wordEffect_error {w : CmdWord} {e : IllegalWord} (h : decode w = .error e) (s : State) :
    wordEffect w s = enterFault .illegalCmd w s := by rw [wordEffect, h]

/-- In a ready block a word answers its effect; `FLUSH` needs a byte to send. -/
theorem executeWord_ready {s : State} {w : CmdWord} (h : s.cmdReady = true)
    (hw : decode w = .ok .flush → 1 ≤ s.params.n) : executeWord w s = .next (wordEffect w s) := by
  unfold executeWord wordEffect
  cases hd : decode w with
  | ok i => exact exec_ready h fun hi => hw (hi ▸ hd)
  | error e => rfl

/-- A word that spells no `FLUSH` leaves the line alone. -/
theorem wordEffect_line {w : CmdWord} (hw : decode w ≠ .ok .flush) (s : State) :
    (wordEffect w s).ser = s.ser ∧ (wordEffect w s).trace = s.trace := by
  cases hd : decode w with
  | ok i =>
    rw [wordEffect_ok hd]
    exact (commandEffect_effect i s).line fun hi => hw (hi ▸ hd)
  | error e =>
    rw [wordEffect_error hd]
    exact ⟨rfl, rfl⟩

@[simp] theorem wordEffect_params (w : CmdWord) (s : State) : (wordEffect w s).params = s.params := by
  unfold wordEffect
  split
  · exact (commandEffect_effect _ s).params
  · rfl

@[simp] theorem wordEffect_pres (w : CmdWord) (s : State) : (wordEffect w s).pres = s.pres := by
  unfold wordEffect
  split
  · exact (commandEffect_effect _ s).pres
  · rfl

/-- What the command port does at an edge (R42, R71). -/
def portEffect (p : Pins) (s : State) : State :=
  if accepts p s then wordEffect p.cmd (clearStrobe s) else clearStrobe s

/-- The three cases of the port: nothing accepted, an illegal word, a command (R71, R79, R90). -/
theorem portEffect_cases (p : Pins) (s : State) :
    (accepts p s = false ∧ portEffect p s = clearStrobe s) ∨
    (accepts p s = true ∧ (∃ e, decode p.cmd = .error e) ∧
      portEffect p s = enterFault .illegalCmd p.cmd (clearStrobe s)) ∨
    ∃ i, AcceptsCommand p s i ∧ portEffect p s = commandEffect i (clearStrobe s) := by
  cases ha : accepts p s with
  | false => exact .inl ⟨rfl, if_neg (by simp [ha])⟩
  | true =>
    have hport : portEffect p s = wordEffect p.cmd (clearStrobe s) := if_pos ha
    cases hd : decode p.cmd with
    | error e => exact .inr (.inl ⟨rfl, ⟨e, rfl⟩, hport.trans (wordEffect_error hd _)⟩)
    | ok i => exact .inr (.inr ⟨i, ⟨ha, hd⟩, hport.trans (wordEffect_ok hd _)⟩)

theorem portEffect_accepts {p : Pins} {s : State} (h : accepts p s = true) :
    portEffect p s = wordEffect p.cmd (clearStrobe s) := if_pos h

theorem portEffect_rejects {p : Pins} {s : State} (h : accepts p s = false) : portEffect p s = clearStrobe s :=
  if_neg (by simp [h])

@[simp] theorem portEffect_params (p : Pins) (s : State) : (portEffect p s).params = s.params := by
  unfold portEffect; split <;> simp

@[simp] theorem portEffect_pres (p : Pins) (s : State) : (portEffect p s).pres = s.pres := by
  unfold portEffect; split <;> simp

/-- A block that accepts a word is idle and not faulted (R41, R71). -/
theorem ready_of_accepts {p : Pins} {s : State} (h : accepts p s = true) :
    s.cmdReady = true ∧ s.ser.phase = .idle ∧ s.fault = .clear := by
  obtain ⟨-, hk, -⟩ := accepts_iff.1 h
  obtain ⟨hf, hi⟩ := (cmdReady_iff s).1 hk
  exact ⟨hk, hi, hf⟩

theorem startsFlush_iff {p : Pins} {s : State} : startsFlush p s = true ↔ AcceptsCommand p s .flush := by
  simp [startsFlush, AcceptsCommand]

/-- Where no `FLUSH` is accepted the port leaves the line alone (R195). -/
theorem portEffect_line {p : Pins} {s : State} (h : startsFlush p s = false) :
    (portEffect p s).ser = s.ser ∧ (portEffect p s).trace = s.trace := by
  cases ha : accepts p s with
  | false => rw [portEffect_rejects ha]; exact ⟨rfl, rfl⟩
  | true =>
    rw [portEffect_accepts ha]
    exact wordEffect_line (fun hd => by simp [startsFlush, ha, hd] at h) (clearStrobe s)

/-- An accepted `FLUSH` starts the first pulse (R116). -/
theorem portEffect_flush {p : Pins} {s : State} (h : startsFlush p s = true) :
    portEffect p s = startPulse 0 7 0 ((s.frame.read 0).getLsbD 7) (clearStrobe s) := by
  obtain ⟨ha, hd⟩ := startsFlush_iff.1 h
  rw [portEffect_accepts ha, wordEffect_ok hd]
  rfl

/-- The port of `clockEdge` answers `portEffect`. -/
theorem port_eq {p : Pins} {s : State} (hr : p.rst = false) (hn : startsFlush p s = true → 1 ≤ s.params.n) :
    (if p.cmdValid then presentWord p.cmd (clearStrobe s) else .next (clearStrobe s)) = .next (portEffect p s) := by
  cases hv : p.cmdValid with
  | false => rw [portEffect_rejects (by simp [accepts, hv])]; rfl
  | true =>
    rw [if_pos rfl]
    cases hk : s.cmdReady with
    | false => rw [portEffect_rejects (by simp [accepts, hk]), presentWord_notReady (s := clearStrobe s) hk]
    | true =>
      have ha : accepts p s = true := accepts_iff.2 ⟨hv, hk, hr⟩
      rw [portEffect_accepts ha, presentWord, accept_ready (s := clearStrobe s) hk]
      exact executeWord_ready (s := clearStrobe s) hk fun hd => hn (startsFlush_iff.2 ⟨ha, hd⟩)

/-- Whatever the state, a next state of the port is `portEffect`. -/
theorem port_eq_next {p : Pins} {s s1 : State} (hr : p.rst = false)
    (h : (if p.cmdValid then presentWord p.cmd (clearStrobe s) else .next (clearStrobe s)) = .next s1) :
    s1 = portEffect p s := by
  have hn : startsFlush p s = true → 1 ≤ s.params.n := fun hf => by
    obtain ⟨ha, hd⟩ := startsFlush_iff.1 hf
    obtain ⟨hv, hk, -⟩ := accepts_iff.1 ha
    rw [hv, if_pos rfl, presentWord_ok (s := clearStrobe s) hk hd] at h
    exact pos_of_exec_flush (s := clearStrobe s) hk h
  rw [port_eq hr hn] at h
  exact (Host.Outcome.next.inj h).symm

/-! ### The edge -/

/-- The presence registers after an edge without reset (R140, R188). -/
abbrev presAfter (p : Pins) (s : State) : Presence := if p.tick then tickPresence s.params s.pflag s.pres else s.pres

/-- The tick of an edge writes the presence registers and nothing else. -/
theorem tick_eq {p : Pins} {s s2 : State} (h : s2.pres = s.pres) :
    (if p.tick then tickAt s s2 else s2) = { s2 with pres := presAfter p s } := by
  unfold presAfter
  split
  · rfl
  · rw [← h]

/-- An edge without reset, but for the line, is what the port did and the tick (R188, R195). -/
theorem clockEdge_rest {p : Pins} {s t : State} (hr : p.rst = false) (h : clockEdge p s = .next t) :
    t = { portEffect p s with ser := t.ser, trace := t.trace, pres := presAfter p s } := by
  obtain ⟨s1, h1, ht⟩ := clockEdge_port hr h
  rw [port_eq_next hr h1, portEffect_pres] at ht
  exact ht

/-- An edge in `IDLE` that starts no flush (R117, R188). -/
theorem clockEdge_quiet {p : Pins} {s : State} (hr : p.rst = false) (hi : s.ser.phase = .idle)
    (hf : startsFlush p s = false) :
    clockEdge p s = .next { idleEdge (portEffect p s) with pres := presAfter p s } := by
  have hidle : (portEffect p s).ser.phase = .idle := by rw [(portEffect_line hf).1, hi]
  have hpres : (idleEdge (portEffect p s)).pres = s.pres := by
    rw [idleEdge_frame]
    exact portEffect_pres p s
  rw [clockEdge, if_neg (by simp [hr]), port_eq hr (by simp [hf]), andThen_next, hi, serializerEdge, if_pos hidle,
    andThen_next, tick_eq hpres]

/-- An edge that starts a flush (R116, R188). -/
theorem clockEdge_starts {p : Pins} {s : State} (hf : startsFlush p s = true) (hn : 1 ≤ s.params.n) :
    clockEdge p s =
      .next { startPulse 0 7 0 ((s.frame.read 0).getLsbD 7) (clearStrobe s) with pres := presAfter p s } := by
  obtain ⟨ha, -⟩ := startsFlush_iff.1 hf
  obtain ⟨-, -, hr⟩ := accepts_iff.1 ha
  obtain ⟨-, hi, -⟩ := ready_of_accepts ha
  have hpres : (startPulse 0 7 0 ((s.frame.read 0).getLsbD 7) (clearStrobe s)).pres = s.pres := rfl
  rw [clockEdge, if_neg (by simp [hr]), port_eq hr fun _ => hn, andThen_next, hi, portEffect_flush hf, serializerEdge,
    if_neg (by simp [startPulse]), andThen_next, tick_eq hpres]

end Sys2Proof.Machine

/-!
PROOF of O7 to O10, O15 to O24, O38 and O44: the commands, one at a time and in sequences, and who writes what at an edge.
The statements about all commands read the cases of `Effect`; those about an edge read `clockEdge_rest` and `portEffect_cases`.
-/

namespace Sys2Proof.Machine

/-! ### The step and the command port -/

/-- An edge that accepts a legal word runs its command, then the idle update, then the tick; a stop stays a stop. -/
theorem clockEdge_runs {p : Pins} {s : State} {i : Instr} (hr : p.rst = false) (hv : p.cmdValid = true)
    (hk : s.cmdReady = true) (hd : decode p.cmd = .ok i) :
    clockEdge p s = andThen (exec i (clearStrobe s)) fun t =>
      let u := if t.ser.phase = .idle then idleEdge t else t
      .next (if p.tick then tickAt s u else u) := by
  obtain ⟨-, hi⟩ := (cmdReady_iff s).1 hk
  rw [clockEdge, if_neg (by simp [hr]), hv, if_pos rfl, presentWord_ok (s := clearStrobe s) hk hd, hi]
  rfl

/-- Settles O7: a step is the edge with the next pins, and `clockEdge_runs` says what that edge runs. -/
theorem stepRunsTheDecodedCommand : Obligations.StepRunsTheDecodedCommand := by
  refine ⟨fun s p rest i hin hr hv hk hd => ?_, fun s nbits w i hk hd => ?_⟩
  · have hstep : step s = clockEdge p { s with inputs := rest } := by
      simp only [step, clock, nextPins, dropPins, hin, List.tail_cons]
    rw [hstep]
    exact clockEdge_runs (s := { s with inputs := rest }) hr hv hk hd
  · exact clockEdge_runs (p := Pins.present (BitVec.ofNat 48 w)) rfl rfl hk hd

/-- Settles O8: with `cmd_ready = 0` the command, the port and the event-level step each have their own lemma. -/
theorem commandNotReadyHasNoEffect : Obligations.CommandNotReadyHasNoEffect := by
  intro s hk
  refine ⟨exec_notReady hk, presentWord_notReady hk, fun p hr => ?_, eventStep_notReady hk⟩
  simp only [clockEdge, hr, presentWord_notReady (s := clearStrobe s) hk, ite_self]

/-- An edge accepts one command only. -/
theorem acceptsCommand_iff {p : Pins} {s : State} {i : Instr} (h : AcceptsCommand p s i) (j : Instr) :
    AcceptsCommand p s j ↔ i = j := by
  obtain ⟨ha, hd⟩ := h
  simp [AcceptsCommand, ha, hd]

/-- Settles O9: the strobe is cleared at every edge, and `Effect.rspValid` says which commands raise it again. -/
theorem responseStrobeLastsOneCycle : Obligations.ResponseStrobeLastsOneCycle := by
  intro s t p hr h
  rw [clockEdge_rest hr h]
  show ((portEffect p s).rspValid = true ↔ _) ∧ ((portEffect p s).rspValid = false → (portEffect p s).rsp = s.rsp)
  obtain ⟨ha, he⟩ | ⟨-, ⟨e, hd⟩, he⟩ | ⟨i, hi, he⟩ := portEffect_cases p s
  · rw [he]
    exact ⟨by simp [ha], fun _ => rfl⟩
  · rw [he]
    exact ⟨by simp [hd], fun _ => rfl⟩
  · have heff := commandEffect_effect i (clearStrobe s)
    rw [he]
    refine ⟨?_, heff.rsp⟩
    simp only [acceptsCommand_iff hi]
    exact heff.rspValid rfl

/-! ### The commands -/

/-- Settles O10: `NOP` has no effect in a ready block, and no command has one elsewhere. -/
theorem nopLeavesTheState : Obligations.NopLeavesTheState := by
  refine ⟨fun s => ?_, rfl⟩
  cases hk : s.cmdReady with
  | false => exact exec_notReady hk .nop
  | true => exact exec_nop hk

/-- Settles O15: `GET` answers `LoadLED`, which undoes the wire order. -/
theorem getRespondsTheTriple : Obligations.GetRespondsTheTriple := by
  refine ⟨fun s idx r g b hk hi ht => exec_get_in hk hi (loadLED_of_tripleAt ht),
    fun s idx _ _ => ⟨_, _, _, (perm_unperm _ _ _ _).symm⟩, fun p idx hi => ?_⟩
  exact exec_get_in (s := State.resetWith p) rfl hi (loadLED_of_tripleAt (perm_zero p.wireOrder).symm)

/-- A stored LED reads back (R52, R53). -/
theorem loadLED_storeLED_same {s : State} (h : s.frame.wf = true) (led : Nat) (r g b : Byte) :
    loadLED led (storeLED led r g b s) = (r, g, b) :=
  loadLED_of_tripleAt (s := storeLED led r g b s) (tripleAt_storeTriple h led _)

/-- A store leaves the other LEDs as they were (R93). -/
theorem loadLED_storeLED_other {s : State} (h : s.frame.wf = true) {led other : Nat} (hne : other ≠ led) (r g b : Byte) :
    loadLED other (storeLED led r g b s) = loadLED other s := by
  have hbyte (k : Nat) (hk : k < 3) : (storeLED led r g b s).frame.read (ledOffset other + k) =
      s.frame.read (ledOffset other + k) := read_storeTriple_other h _ (by unfold ledOffset; omega)
  rw [loadLED, loadLED, hbyte 1 (by omega), hbyte 2 (by omega)]
  exact congrArg (unperm _ · _ _) (hbyte 0 (by omega))

/-- The loop of `SETALL` sets every LED of the strip (R94). -/
theorem loadLED_storeAllLEDs {s : State} (h : s.frame.wf = true) {led : Nat} (hl : led < s.params.n) (r g b : Byte) :
    loadLED led (storeAllLEDs r g b s) = (r, g, b) :=
  loadLED_of_tripleAt (s := storeAllLEDs r g b s) (tripleAt_storeTriples h _ hl)

/-- `GET` in bounds answers `LoadLED` (R97). -/
theorem exec_get_loadLED {s : State} (h : s.cmdReady = true) {idx : LedIndex} (hi : idx.toNat < s.params.n) :
    exec (.get idx) s = .next
      (respond (colourWord (loadLED idx.toNat s).1 (loadLED idx.toNat s).2.1 (loadLED idx.toNat s).2.2) s) := by
  rw [exec_get h, if_pos hi]

/-- Settles O16: `GET` answers `LoadLED` of the frame after the store. -/
theorem setThenGetReadsBack : Obligations.SetThenGetReadsBack := by
  intro s i j r g b hk hw hi hj
  refine ⟨_, _, _, _, exec_set_in hk hi r g b,
    exec_get_in (s := storeLED i.toNat r g b s) hk hi (loadLED_storeLED_same hw _ r g b), rfl,
    exec_get_loadLED hk hj, exec_get_loadLED (s := storeLED i.toNat r g b s) hk hj, fun hne => ?_⟩
  rw [respond_rsp, respond_rsp, loadLED_storeLED_other hw (fun he => hne (BitVec.eq_of_toNat_eq he))]

/-- What one command leaves in an LED: its own colour where it covers the LED. -/
theorem loadLED_commandEffect {s : State} {i : Instr} (hw : s.frame.wf = true) (hi : i.WellFormed s.params) {led : Nat}
    (hl : led < s.params.n) :
    loadLED led (commandEffect i s) = (lastColour led [i]).getD (loadLED led s) := by
  have store (idx : LedIndex) (r g b : Byte) : loadLED led (storeLED idx.toNat r g b s) =
      (if idx.toNat = led then some (r, g, b) else none).getD (loadLED led s) := by
    split
    case isTrue he => rw [he]; exact loadLED_storeLED_same hw led r g b
    case isFalse hne => exact loadLED_storeLED_other hw (Ne.symm hne) r g b
  cases i with
  | set idx r g b => rw [commandEffect, if_pos hi]; exact store idx r g b
  | clr idx => rw [commandEffect, if_pos hi]; exact store idx 0 0 0
  | get idx => rw [commandEffect, if_pos hi]; rfl
  | setall r g b => exact loadLED_storeAllLEDs hw hl r g b
  | clrall => exact loadLED_storeAllLEDs hw hl 0 0 0
  | _ => rfl

/-- The last write of a list is that of its tail, or else that of its head. -/
theorem lastColour_cons (led : Nat) (i : Instr) (is : List Instr) (c : Byte × Byte × Byte) :
    (lastColour led (i :: is)).getD c = (lastColour led is).getD ((lastColour led [i]).getD c) := by
  cases h : lastColour led is <;> simp [lastColour, h]

/-- A command that keeps its contract keeps the block ready; `FLUSH` is left out (R92). -/
theorem cmdReady_commandEffect {s : State} {i : Instr} (hk : s.cmdReady = true) (hi : i.WellFormed s.params)
    (hf : i ≠ .flush) : (commandEffect i s).cmdReady = true := by
  cases i with
  | set => rw [commandEffect, if_pos hi]; exact hk
  | clr => rw [commandEffect, if_pos hi]; exact hk
  | get => rw [commandEffect, if_pos hi]; exact hk
  | flush => exact absurd rfl hf
  | _ => exact hk

/-- Settles O17: by induction on the commands, each of which is `loadLED_commandEffect`. -/
theorem lastWriteToALedWins : Obligations.LastWriteToALedWins := by
  intro is
  induction is with
  | nil => exact fun s _ hk _ => ⟨s, rfl, hk, fun led _ => rfl⟩
  | cons i is ih =>
    intro s hs hk hwf
    obtain ⟨⟨hi, hf⟩, hwf⟩ := List.forall_mem_cons.1 hwf
    have hexec := exec_ready hk fun h => absurd h hf
    have hp := (commandEffect_effect i s).params
    obtain ⟨t, ht, hkt, hled⟩ := ih _ (inv_exec hs hf hexec) (cmdReady_commandEffect hk hi hf) (by rw [hp]; exact hwf)
    refine ⟨t, by rw [execAll, hexec, andThen_next, ht], hkt, fun led hl => ?_⟩
    obtain ⟨-, ⟨hw, -⟩, -⟩ := hs
    rw [hled led (by rw [hp]; exact hl), loadLED_commandEffect hw hi hl]
    exact (lastColour_cons led i is _).symm

/-- Settles O18: the bound check of each command with an index; the other writers have none. -/
theorem indexOutOfRangeFaults : Obligations.IndexOutOfRangeFaults := by
  refine ⟨fun s i idx hi hk hn => ?_, fun s t r g b h => ?_, rfl, rfl⟩
  · obtain ⟨r, g, b, rfl⟩ | rfl | rfl := hi
    · exact exec_set_out hk hn r g b
    · exact exec_clr_out hk hn
    · rw [exec_get hk, if_neg (by omega)]
      rfl
  · have key {i : Instr} (hi : ∀ idx, ¬ HasIndex i idx) (ht : exec i s = .next t) : t.fault = s.fault := by
      obtain rfl | heff := exec_effect ht
      · rfl
      · exact (heff.fault hi).1
    obtain h | h := h
    · exact key (by simp [HasIndex]) h
    · exact key (by simp [HasIndex]) h

/-- Settles O19: the second write of the flag hides the first. -/
theorem setpresWritesTheFlag : Obligations.SetpresWritesTheFlag := by
  intro s u v hk
  refine ⟨exec_setpres hk v, ?_⟩
  rw [execAll, exec_setpres hk, andThen_next, execAll, exec_setpres (s := { s with pflag := u }) hk, exec_setpres hk]
  rfl

/-- A register zero-extended to a response has its value (R72). -/
theorem toNat_zeroExtend24 {n : Nat} (h : n ≤ 24) (x : BitVec n) : (x.zeroExtend 24).toNat = x.toNat :=
  BitVec.toNat_setWidth_of_le h

theorem toNat_bitValue (b : Bool) : (bitValue b).toNat = b.toNat := by cases b <;> rfl

/-- Settles O20: register by register, zero-extension keeps the value. -/
theorem rdstatRespondsTheRegister : Obligations.RdstatRespondsTheRegister := by
  intro s x hk
  refine ⟨_, exec_rdstat hk x, rfl, ?_⟩
  rw [respond_rsp]
  cases x with
  | state =>
    rw [statusWord, toNat_zeroExtend24 (by omega)]
    cases s.pres.mode <;> rfl
  | subtick => exact toNat_zeroExtend24 (by omega) _
  | seconds => exact toNat_zeroExtend24 (by omega) _
  | minutes => exact toNat_zeroExtend24 (by omega) _
  | grace => exact toNat_zeroExtend24 (by omega) _
  | pflag => exact (toNat_zeroExtend24 (by omega) _).trans (toNat_bitValue _)
  | csel => exact toNat_zeroExtend24 (by omega) _
  | latched =>
    rw [statusWord, toNat_zeroExtend24 (by omega), toNat_bitValue]
    show (decide _).toNat = if _ then 1 else 0
    split <;> simp [*]

/-- Settles O21: the explicit test of R170 is counting modulo K. -/
theorem cnextAdvancesModuloK : Obligations.CnextAdvancesModuloK := by
  intro s hs hk
  obtain ⟨⟨-, -, -, -, -, -, -, ⟨-, hK⟩, -⟩, -, -, -, hc, -⟩ := hs
  exact ⟨_, exec_cnext hk, rfl, nextColour_toNat hK hc⟩

/-- `n` commands `CNEXT` on any cursor below K, the rest of the state as it was. -/
theorem execAll_cnexts {s : State} (hk : s.cmdReady = true) (hK : s.params.k ≤ 256) (n : Nat) {c : BitVec 8}
    (hc : c.toNat < s.params.k) :
    ∃ c' : BitVec 8, execAll (List.replicate n .cnext) { s with csel := c } = .next { s with csel := c' } ∧
      c'.toNat = (c.toNat + n) % s.params.k := by
  induction n generalizing c with
  | zero => exact ⟨c, rfl, (Nat.mod_eq_of_lt hc).symm⟩
  | succ n ih =>
    have hnext := nextColour_toNat hK hc
    obtain ⟨c', hrun, hc'⟩ := ih (c := nextColour s.params.k c) (by rw [hnext]; exact Nat.mod_lt _ (by omega))
    refine ⟨c', ?_, ?_⟩
    · rw [List.replicate_succ, execAll, exec_cnext (s := { s with csel := c }) hk, andThen_next]
      exact hrun
    · rw [hc', hnext, Nat.mod_add_mod, Nat.add_right_comm, Nat.add_assoc]

/-- The cursor after reset is `COLOR_DEFAULT` (R7, R49). -/
theorem csel_resetWith {p : Params} (hp : p.ok) : (State.resetWith p).csel.toNat = p.colorDefault := by
  obtain ⟨-, -, -, -, -, -, -, ⟨-, hK⟩, hd⟩ := hp
  exact toNat_ofNat_of_lt (by omega)

/-- Settles O22: `execAll_cnexts` from the reset state. -/
theorem cnextCountsFromTheDefault : Obligations.CnextCountsFromTheDefault := by
  intro p n hp
  have hcsel := csel_resetWith hp
  obtain ⟨-, -, -, -, -, -, -, ⟨-, hK⟩, hd⟩ := hp
  obtain ⟨c', hrun, hc'⟩ := execAll_cnexts (s := State.resetWith p) rfl hK n (c := (State.resetWith p).csel)
    (hcsel.trans_lt hd)
  exact ⟨_, hrun, by rw [hc', hcsel]; rfl, rfl⟩

/-- Settles O23: clause by clause, the part of the state that `Effect` says the command leaves alone. -/
theorem commandsChangeOnlyTheirState : Obligations.CommandsChangeOnlyTheirState := by
  intro s t i h
  obtain rfl | heff := exec_effect h
  · exact ⟨rfl, rfl, rfl, fun _ _ => rfl, fun _ => ⟨rfl, rfl⟩, fun _ => rfl, fun _ => rfl, fun _ _ => ⟨rfl, rfl⟩,
      fun _ => ⟨rfl, rfl⟩, fun hne => absurd rfl hne⟩
  · exact ⟨heff.params, heff.pres, heff.inputs, fun hi a => by rw [heff.frame hi], heff.line, heff.pflag, heff.csel,
      heff.response, heff.fault, fun hne => (heff.of_fault_ne hne).1⟩

/-- Settles O24: the first pulse is that of bit 7 of byte 0. -/
theorem flushStartsTheFirstPulse : Obligations.FlushStartsTheFirstPulse := by
  intro s hs hk
  exact exec_flush hk (pos_of_inv hs)

/-! ### Who writes what at an edge (R195) -/

/-- A port that changes the frame accepted a write. -/
theorem portEffect_frame_ne {p : Pins} {s : State} (h : (portEffect p s).frame ≠ s.frame) :
    ∃ i, AcceptsCommand p s i ∧ WritesFrame i := by
  obtain ⟨-, he⟩ | ⟨-, -, he⟩ | ⟨i, hi, he⟩ := portEffect_cases p s
  · exact absurd (by rw [he]; rfl) h
  · exact absurd (by rw [he]; rfl) h
  · refine ⟨i, hi, ?_⟩
    by_contra hw
    exact h (by rw [he, (commandEffect_effect i _).frame hw]; rfl)

/-- A port that changes the flag accepted a `SETPRES` of the new value. -/
theorem portEffect_pflag_ne {p : Pins} {s : State} (h : (portEffect p s).pflag ≠ s.pflag) :
    ∃ v, AcceptsCommand p s (.setpres v) ∧ (portEffect p s).pflag = v := by
  obtain ⟨-, he⟩ | ⟨-, -, he⟩ | ⟨i, hi, he⟩ := portEffect_cases p s
  · exact absurd (by rw [he]; rfl) h
  · exact absurd (by rw [he]; rfl) h
  · by_cases hv : ∃ v, i = .setpres v
    · obtain ⟨v, rfl⟩ := hv
      exact ⟨v, hi, by rw [he]; rfl⟩
    · exact absurd (by rw [he, (commandEffect_effect i _).pflag (not_exists.1 hv)]; rfl) h

/-- A port that changes the cursor accepted a `CNEXT`. -/
theorem portEffect_csel_ne {p : Pins} {s : State} (h : (portEffect p s).csel ≠ s.csel) : AcceptsCommand p s .cnext := by
  obtain ⟨-, he⟩ | ⟨-, -, he⟩ | ⟨i, hi, he⟩ := portEffect_cases p s
  · exact absurd (by rw [he]; rfl) h
  · exact absurd (by rw [he]; rfl) h
  · by_cases hc : i = .cnext
    · exact hc ▸ hi
    · exact absurd (by rw [he, (commandEffect_effect i _).csel hc]; rfl) h

/-- A command other than `FLUSH` leaves the line as an edge without a command would. -/
theorem clockEdge_line_of_no_flush {p : Pins} {s t : State} (hr : p.rst = false) (h : clockEdge p s = .next t)
    (hf : startsFlush p s = false) :
    ∃ u, clockEdge { p with cmdValid := false } s = .next u ∧ t.ser = u.ser ∧ t.trace = u.trace := by
  by_cases hi : s.ser.phase = .idle
  · have hq : startsFlush { p with cmdValid := false } s = false := by simp [startsFlush, accepts]
    have hline := portEffect_line hf
    have hline' := portEffect_line hq
    rw [clockEdge_quiet hr hi hf] at h
    cases h
    exact ⟨_, clockEdge_quiet (p := { p with cmdValid := false }) hr hi hq,
      idleEdge_congr (hline.1.trans hline'.1.symm) (hline.2.trans hline'.2.symm) (by simp)⟩
  · refine ⟨t, ?_, rfl, rfl⟩
    rw [clockEdge_busy hr hi] at h
    rw [clockEdge_busy (p := { p with cmdValid := false }) hr hi]
    exact h

/-- A tick changes nothing but the presence registers. -/
theorem clockEdge_retick {p : Pins} {s t : State} (hr : p.rst = false) (h : clockEdge p s = .next t) (b : Bool) :
    clockEdge { p with tick := b } s = .next { t with pres := presAfter { p with tick := b } s } := by
  obtain ⟨s1, s2, h1, h2, rfl⟩ := (clockEdge_eq_next hr).1 h
  have hpres : s2.pres = s.pres := by
    rw [serializerEdge_frame h2, port_eq_next hr h1]
    exact portEffect_pres p s
  refine (clockEdge_eq_next (p := { p with tick := b }) hr).2 ⟨s1, s2, h1, h2, ?_⟩
  rw [tick_eq hpres, tick_eq (p := { p with tick := b }) hpres]

/-- Settles O38: each clause is a lemma about the port, the line or the tick. -/
theorem eachUnitKeepsToItsState : Obligations.EachUnitKeepsToItsState := by
  intro s t p hr h
  have hrest := clockEdge_rest hr h
  have hframe : t.frame = (portEffect p s).frame := by rw [hrest]
  have hpflag : t.pflag = (portEffect p s).pflag := by rw [hrest]
  have hcsel : t.csel = (portEffect p s).csel := by rw [hrest]
  refine ⟨fun hne => portEffect_frame_ne (hframe ▸ hne), by rw [hrest], fun hne => ?_,
    fun hne => portEffect_csel_ne (hcsel ▸ hne), fun hf => clockEdge_line_of_no_flush hr h ?_, fun hne => ?_,
    fun b => ⟨_, clockEdge_retick hr h b, rfl⟩⟩
  · rw [hpflag] at hne ⊢
    exact portEffect_pflag_ne hne
  · exact Bool.eq_false_iff.2 fun hs => hf (startsFlush_iff.1 hs)
  · by_contra ha
    rw [hrest, portEffect_rejects (Bool.eq_false_iff.2 ha)] at hne
    exact hne.elim (· rfl) (· rfl)

/-- Settles O44: of the cases of the port, an illegal word and an index out of range write `FAULT`. -/
theorem onlyCommandsRaiseFaults : Obligations.OnlyCommandsRaiseFaults := by
  intro s t p hr h hne
  have hrest := clockEdge_rest hr h
  have hfault : t.fault = (portEffect p s).fault := by rw [hrest]
  have hfinfo : t.finfo = (portEffect p s).finfo := by rw [hrest]
  have clear_of (ha : accepts p s = true) : s.fault = .clear := by
    obtain ⟨-, -, hclear⟩ := ready_of_accepts ha
    exact hclear
  rw [hfault] at hne
  rw [hfault, hfinfo]
  obtain ⟨-, he⟩ | ⟨ha, herr, he⟩ | ⟨i, ⟨ha, hd⟩, he⟩ := portEffect_cases p s
  · exact absurd (by rw [he]; rfl) hne
  · rw [he]
    exact ⟨ha, clear_of ha, rfl, .inl ⟨herr, rfl⟩⟩
  · rw [he] at hne
    obtain ⟨hc, idx, hx, hn⟩ := (commandEffect_effect i (clearStrobe s)).of_fault_ne hne
    rw [he, hc]
    exact ⟨ha, clear_of ha, (decode_eq_ok_iff.1 hd).symm, .inr ⟨⟨i, idx, hd, hx, hn⟩, rfl⟩⟩

end Sys2Proof.Machine

/-!
PROOF of O32, O41, O43, O45 to O54: what every edge keeps. First the invariant of R48 along edges, then the trace read along
the cases of `LineStep`, then `LATCH` and the edges that fault.
-/

namespace Sys2Proof.Machine

/-! ### Reset -/

/-- Settles O45: the first branch of an edge. -/
theorem resetWinsOverEverything : Obligations.ResetWinsOverEverything := fun s _ hr => clockEdge_reset hr s

/-- After reset the gap has not passed (R8: `RESET_CYC >= 1`). -/
theorem latched_resetWith {p : Params} (hp : p.ok) : (State.resetWith p).latched = false := by
  obtain ⟨-, -, -, -, hgap, -⟩ := hp
  exact decide_eq_false (Nat.not_le.2 hgap)

/-- Settles O46: all but `LATCHED` and `CSEL` are the same for every parameter set. -/
theorem resetTableHolds : Obligations.ResetTableHolds := by
  refine ⟨fun p a hp => ⟨rfl, rfl, rfl, rfl, rfl, rfl, latched_resetWith hp, rfl, rfl, rfl, rfl, rfl, rfl, rfl,
    csel_resetWith hp, rfl, rfl, rfl, rfl, rfl, ?_⟩, rfl⟩
  rw [State.outputs, latched_resetWith hp]
  rfl

theorem inv_resetWith {p : Params} (hp : p.ok) : (State.resetWith p).Inv := by
  have hcsel := csel_resetWith hp
  have hphase := highCycles_bound hp false
  have ⟨_, _, _, _, _, ⟨htps, _⟩, ⟨hgrace, _⟩, _, hdefault⟩ := hp
  refine ⟨hp, ⟨rfl, by simp [State.resetWith]⟩, ⟨fun _ => rfl, fun _ => rfl, fun h => (by cases h), ?_, ?_, ?_, ?_⟩,
    ⟨by simp [State.resetWith, Serializer.reset], fun h => absurd rfl h, ?_, Nat.zero_le _⟩, ?_,
    ⟨fun _ => rfl, fun h => absurd rfl h⟩⟩
  · exact Nat.lt_of_lt_of_le Nat.zero_lt_two htps
  · exact Nat.zero_lt_succ _
  · exact Nat.zero_lt_succ _
  · exact hgrace
  · show 0 < longestPhase p
    omega
  · exact hcsel.trans_lt hdefault

theorem traceOk_resetWith {p : Params} (hp : p.ok) : (State.resetWith p).TraceOk :=
  ⟨rfl, by rw [latched_resetWith hp]; simp [State.resetWith]⟩

theorem pulsesOk_resetWith (p : Params) : (State.resetWith p).PulsesOk := Nat.zero_mod _

/-- Settles O47: each invariant of the empty trace and the reset table. -/
theorem resetMeetsTheInvariant : Obligations.ResetMeetsTheInvariant :=
  ⟨fun p hp => ⟨inv_resetWith hp, traceOk_resetWith hp, pulsesOk_resetWith p, rfl⟩, inv_resetWith (by decide)⟩

/-! ### The invariant along edges (R48) -/

theorem inv_resetEdge {s : State} (hs : s.Inv) : (resetEdge s).Inv := inv_resetWith (p := s.params) hs.1

/-- A serializer edge of the phase the state is in answers a next state, and keeps the invariant and the parameters. -/
theorem serializerEdge_next {s : State} (hs : s.Inv) :
    ∃ t, serializerEdge s.ser.phase s = .next t ∧ t.Inv ∧ t.params = s.params := by
  have params {t : State} (h : serializerEdge s.ser.phase s = .next t) : t.params = s.params := by
    rw [serializerEdge_frame h]
  cases hph : s.ser.phase with
  | idle =>
    rw [hph] at params
    have h : serializerEdge .idle s = .next (idleEdge s) := by rw [serializerEdge, if_pos hph]
    exact ⟨_, h, inv_idleEdge hs hph, params h⟩
  | high =>
    rw [hph] at params
    obtain ⟨t, h, ht⟩ := highEdge_next hs hph
    exact ⟨t, h, ht, params h⟩
  | low =>
    rw [hph] at params
    obtain ⟨t, h, ht⟩ := lowEdge_next hs hph
    exact ⟨t, h, ht, params h⟩

/-- Presence registers a tick may have written keep the invariant. -/
theorem inv_withPres {s : State} (hs : s.Inv) {q : Presence} (hq : PresenceOk s.params q) :
    ({ s with pres := q }).Inv := by
  obtain ⟨hp, hf, -, hx, hc, hfa⟩ := hs
  exact ⟨hp, hf, hq, hx, hc, hfa⟩

theorem presenceOk_presAfter {s : State} (hs : s.Inv) (p : Pins) : PresenceOk s.params (presAfter p s) := by
  obtain ⟨hp, -, hq, -⟩ := hs
  unfold presAfter
  split
  · exact presenceOk_tick hp hq _
  · exact hq

/-- An accepted word keeps the invariant; a block that accepts one is idle. -/
theorem inv_wordEffect {s : State} (hs : s.Inv) (hk : s.cmdReady = true) (w : CmdWord) : (wordEffect w s).Inv := by
  obtain ⟨t, ht, hinv, -⟩ := presentWord_next hs w
  rw [presentWord, accept_ready hk, executeWord_ready hk fun _ => pos_of_inv hs] at ht
  cases ht
  exact hinv

theorem inv_portEffect {s : State} (hs : s.Inv) (p : Pins) : (portEffect p s).Inv := by
  cases ha : accepts p s with
  | false => rw [portEffect_rejects ha]; exact hs
  | true =>
    obtain ⟨hk, -, -⟩ := ready_of_accepts ha
    rw [portEffect_accepts ha]
    exact inv_wordEffect (s := clearStrobe s) hs hk p.cmd

/-- From a legal state every edge answers a legal state with the same parameters, whatever the pins (R48). -/
theorem clockEdge_next {s : State} (hs : s.Inv) (p : Pins) :
    ∃ t, clockEdge p s = .next t ∧ t.Inv ∧ t.params = s.params := by
  have hpres := presenceOk_presAfter hs p
  cases hr : p.rst with
  | true => exact ⟨_, clockEdge_reset hr s, inv_resetEdge hs, rfl⟩
  | false =>
    cases hf : startsFlush p s with
    | true =>
      have hinv := inv_portEffect hs p
      rw [portEffect_flush hf] at hinv
      exact ⟨_, clockEdge_starts hf (pos_of_inv hs), inv_withPres hinv hpres, rfl⟩
    | false =>
      by_cases hi : s.ser.phase = .idle
      · have hidle : (portEffect p s).ser.phase = .idle := by rw [(portEffect_line hf).1, hi]
        have hp : (idleEdge (portEffect p s)).params = s.params := by
          rw [idleEdge_frame]
          exact portEffect_params p s
        exact ⟨_, clockEdge_quiet hr hi hf,
          inv_withPres (inv_idleEdge (inv_portEffect hs p) hidle) (by rw [hp]; exact hpres), hp⟩
      · obtain ⟨t, ht, hinv, hp⟩ := serializerEdge_next (s := clearStrobe s) hs
        have htp : t.pres = s.pres := by rw [serializerEdge_frame ht]; rfl
        refine ⟨{ t with pres := presAfter p s }, ?_, inv_withPres hinv (by rw [hp]; exact hpres), hp⟩
        rw [clockEdge_busy hr hi]
        exact (congrArg (andThen · _) ht).trans (congrArg Host.Outcome.next (tick_eq htp))

theorem inv_clockEdge {s t : State} {p : Pins} (hs : s.Inv) (h : clockEdge p s = .next t) :
    t.Inv ∧ t.params = s.params := by
  obtain ⟨u, hu, hinv⟩ := clockEdge_next hs p
  rw [hu] at h
  cases h
  exact hinv

/-- Settles O48: a step is an edge of a state with the same registers. -/
theorem stepKeepsTheInvariant : Obligations.StepKeepsTheInvariant :=
  fun s _ hs h => inv_clockEdge (s := dropPins s) hs h

/-- Settles O49: an edge always answers, and so does a command's effect. -/
theorem legalStatesAlwaysRunOn : Obligations.LegalStatesAlwaysRunOn := by
  refine ⟨fun s hs => ?_, fun s i hs => ?_, fun s _ => ⟨_, rfl⟩, fun s w hs hf hb => ?_⟩
  · obtain ⟨t, ht, -⟩ := clockEdge_next (s := dropPins s) hs (nextPins s)
    exact ⟨t, ht⟩
  · cases hk : s.cmdReady with
    | false => exact ⟨s, exec_notReady hk i⟩
    | true => exact ⟨_, exec_ready hk fun _ => pos_of_inv hs⟩
  · have hk : s.cmdReady = true := by
      refine (cmdReady_iff s).2 ⟨hf, ?_⟩
      by_contra hi
      rw [(busy_iff s).2 hi] at hb
      cases hb
    rw [eventStep_ready hk, executeWordWhole]
    split
    · exact ⟨_, rfl⟩
    · exact ⟨_, executeWord_ready (s := clearStrobe s) hk fun _ => pos_of_inv hs⟩

/-! ### Widths (R20) -/

/-- The least width holds its number, and so every smaller one (R20). -/
theorem lt_two_pow_leastWidth {x v : Nat} (h : x ≤ v) : x < 2 ^ leastWidth v := by
  unfold leastWidth
  split
  case isTrue h0 => omega
  case isFalse h0 => exact h.trans_lt Nat.lt_log2_self

/-- Settles O54: the invariant's bounds are below the widths of R20. -/
theorem countersFitTheirRegisters : Obligations.CountersFitTheirRegisters := by
  intro s hs
  obtain ⟨⟨-, -, -, -, -, ⟨-, htps⟩, ⟨-, hgrace⟩, -⟩, -, ⟨-, -, -, hsub, hsec, hmin, hg⟩, ⟨-, -, hcyc, hgap⟩, -⟩ := hs
  exact ⟨lt_two_pow_leastWidth (by omega), lt_two_pow_leastWidth hgap, succ8_toNat (by omega), succ6_toNat (by omega),
    succ6_toNat (by omega), succ8_toNat (by omega)⟩

/-! ### The trace along edges -/

/-- A symbol more keeps the rule unless it is a second `RST`. -/
theorem noTwoRst_append {t : List Symbol} {y : Symbol} (ht : noTwoRst t = true)
    (hy : y = .RST → t.getLast? ≠ some .RST) : noTwoRst (t ++ [y]) = true := by
  induction t with
  | nil => simp [noTwoRst]
  | cons x t ih =>
    simp only [noTwoRst, Bool.and_eq_true] at ht
    simp only [List.cons_append, noTwoRst, Bool.and_eq_true]
    cases t with
    | nil =>
      have hxy : ¬ (x = .RST ∧ y = .RST) := fun ⟨hx, h⟩ => hy h (by simp [hx])
      simpa [noTwoRst] using not_and_or.1 hxy
    | cons z t =>
      exact ⟨ht.1, ih ht.2 fun h => by simpa using hy h⟩

/-- A pulse is no `RST` (R111). -/
theorem sym_ne_RST (b : Bool) : sym b ≠ .RST := by cases b <;> decide

/-- A state that has just emitted a pulse, with the gap count at 0. -/
theorem traceOk_pulse {s t : State} (hs : s.TraceOk) (hp : 1 ≤ t.params.resetCyc) (hg : t.ser.gapcnt = 0) (b : Bool)
    (ht : t.trace = s.trace ++ [sym b]) : t.TraceOk := by
  obtain ⟨htwo, -⟩ := hs
  refine ⟨ht ▸ noTwoRst_append htwo fun h => absurd h (sym_ne_RST b), ?_⟩
  have hl : ¬ t.latched = true := fun h => by
    have := (latched_iff t).1 h
    omega
  exact iff_of_false (by simp [ht, sym_ne_RST]) hl

/-- A state with the trace and `LATCHED` of another. -/
theorem traceOk_congr {s t : State} (hs : s.TraceOk) (ht : t.trace = s.trace) (hl : t.latched = s.latched) :
    t.TraceOk := by
  rw [State.TraceOk, ht, hl]
  exact hs

/-- `LATCHED` is a matter of the gap count and the parameters (R33). -/
theorem latched_congr {s t : State} (hp : t.params = s.params) (hg : t.ser.gapcnt = s.ser.gapcnt) :
    t.latched = s.latched := by
  rw [State.latched, State.latched, hp, hg]

/-- An idle edge emits `RST` exactly where `LATCHED` rises (R33, R121). -/
theorem traceOk_idles {s t : State} (hs : s.TraceOk) (hp : t.params = s.params)
    (hg : t.ser.gapcnt = min (s.ser.gapcnt + 1) s.params.resetCyc) (ht : t.trace = s.trace ++ gapSymbols s) :
    t.TraceOk := by
  by_cases h : s.ser.gapcnt + 1 = s.params.resetCyc
  · have hl : s.latched ≠ true := fun hl => by
      have := (latched_iff s).1 hl
      omega
    obtain ⟨htwo, hlast⟩ := hs
    rw [gapSymbols, if_pos h] at ht
    refine ⟨ht ▸ noTwoRst_append htwo fun _ h => hl (hlast.1 h), iff_of_true (by simp [ht]) ?_⟩
    rw [latched_iff, hp, hg]
    omega
  · rw [gapSymbols, if_neg h, List.append_nil] at ht
    refine traceOk_congr hs ht (Bool.eq_iff_iff.2 ?_)
    rw [latched_iff, latched_iff, hp, hg]
    omega

/-- An edge keeps the trace and `LATCHED` together. -/
theorem traceOk_clockEdge {p : Pins} {s t : State} (hs : s.Inv) (hto : s.TraceOk) (h : clockEdge p s = .next t) :
    t.TraceOk := by
  obtain ⟨-, hp⟩ := inv_clockEdge hs h
  have ⟨hok, _, _, ⟨_, hbusy, _, _⟩, _⟩ := hs
  have ⟨_, _, _, _, hgap, _⟩ := hok
  cases hr : p.rst with
  | true =>
    rw [clockEdge_reset hr] at h
    cases h
    exact traceOk_resetWith (p := s.params) hok
  | false =>
    cases clockEdge_line hs hr h with
    | idles _ _ hx ht => exact traceOk_idles hto hp (by rw [hx]) ht
    | starts _ _ hx ht => exact traceOk_pulse hto (hp ▸ hgap) (by rw [hx]) _ ht
    | counts _ _ hx ht => exact traceOk_congr hto ht (latched_congr hp (by rw [hx]))
    | falls _ _ hx ht => exact traceOk_congr hto ht (latched_congr hp (by rw [hx]))
    | ends hb _ _ hx ht =>
      obtain ⟨-, hg⟩ := hbusy (by simp [hb])
      exact traceOk_congr hto ht (latched_congr hp (by rw [hx, hg]))
    | rises _ _ _ _ hx ht => exact traceOk_pulse hto (hp ▸ hgap) (by rw [hx]) _ ht

/-- Settles O50: a step is an edge of a state with the same registers. -/
theorem stepKeepsTraceAndLatchTogether : Obligations.StepKeepsTraceAndLatchTogether :=
  fun s _ hs ht h => traceOk_clockEdge (s := dropPins s) hs ht h

theorem pulseCount_append (t u : List Symbol) : pulseCount (t ++ u) = pulseCount t + pulseCount u := List.countP_append

theorem pulseCount_sym (b : Bool) : pulseCount [sym b] = 1 := by cases b <;> rfl

theorem pulseCount_gapSymbols (s : State) : pulseCount (gapSymbols s) = 0 := by
  unfold gapSymbols
  split <;> rfl

theorem pulsesOk_idle {s : State} (hi : s.ser.phase = .idle) :
    s.PulsesOk ↔ pulseCount s.trace % (24 * s.params.n) = 0 := by rw [State.PulsesOk, if_pos hi]

theorem pulsesOk_busy {s : State} (hb : s.ser.phase ≠ .idle) :
    s.PulsesOk ↔ pulseCount s.trace % (24 * s.params.n) = (bitIndex s + 1) % (24 * s.params.n) := by
  rw [State.PulsesOk, if_neg hb]

/-- An edge keeps the pulse count at the bit on the line (R114). -/
theorem pulsesOk_clockEdge {p : Pins} {s t : State} (hs : s.Inv) (hpo : s.PulsesOk) (h : clockEdge p s = .next t) :
    t.PulsesOk := by
  obtain ⟨-, hp⟩ := inv_clockEdge hs h
  cases hr : p.rst with
  | true =>
    rw [clockEdge_reset hr] at h
    cases h
    exact pulsesOk_resetWith s.params
  | false =>
    cases clockEdge_line hs hr h with
    | idles hi _ hx ht =>
      rw [pulsesOk_idle hi] at hpo
      rw [pulsesOk_idle (by rw [hx]; exact hi), ht, pulseCount_append, pulseCount_gapSymbols, hp]
      exact hpo
    | starts hi _ hx ht =>
      rw [pulsesOk_idle hi] at hpo
      have hbit : bitIndex t = 0 := by rw [bitIndex, hx]; rfl
      rw [pulsesOk_busy (by rw [hx]; simp), ht, pulseCount_append, pulseCount_sym, hp, hbit]
      exact Nat.ModEq.add_right 1 (hpo.trans (Nat.zero_mod _).symm)
    | counts hb _ hx ht =>
      rw [pulsesOk_busy hb] at hpo
      rw [pulsesOk_busy (by rw [hx]; exact hb), ht, hp, bitIndex, hx]
      exact hpo
    | falls hb _ hx ht =>
      rw [pulsesOk_busy (by simp [hb])] at hpo
      rw [pulsesOk_busy (by rw [hx]; simp), ht, hp, bitIndex, hx]
      exact hpo
    | ends hb _ hl hx ht =>
      rw [pulsesOk_busy (by simp [hb]), hl, Nat.mod_self] at hpo
      rw [pulsesOk_idle (by rw [hx]), ht, hp]
      exact hpo
    | rises hb _ _ hn hx ht =>
      rw [pulsesOk_busy (by simp [hb])] at hpo
      rw [pulsesOk_busy (by rw [hx]; simp), ht, pulseCount_append, pulseCount_sym, hp, hn]
      exact Nat.ModEq.add_right 1 hpo

/-- Settles O51: a step is an edge of a state with the same registers. -/
theorem stepKeepsPulsesWhole : Obligations.StepKeepsPulsesWhole :=
  fun s _ hs hpo h => pulsesOk_clockEdge (s := dropPins s) hs hpo h

/-! ### The gap before each frame (R217) -/

theorem getLast?_cons_eq_RST {x : Symbol} {t : List Symbol} :
    (x :: t).getLast? = some .RST ↔ (t = [] ∧ x = .RST) ∨ t.getLast? = some .RST := by
  cases t <;> simp

theorem pulseCount_cons (x : Symbol) (t : List Symbol) :
    pulseCount (x :: t) = pulseCount t + if x = .RST then 0 else 1 := by
  rw [pulseCount, List.countP_cons]
  cases x <;> rfl

/-- A symbol more: a pulse that begins a frame needs an `RST` right before it. -/
theorem framesAfterGap_append {len sent : Nat} {gap : Bool} {t : List Symbol} {y : Symbol}
    (ht : framesAfterGap len sent gap t = true)
    (hy : y = .RST ∨ (t = [] ∧ gap = true) ∨ t.getLast? = some .RST ∨ (sent + pulseCount t) % len ≠ 0) :
    framesAfterGap len sent gap (t ++ [y]) = true := by
  induction t generalizing sent gap with
  | nil =>
    rw [List.nil_append, framesAfterGap]
    split
    case isTrue => rfl
    case isFalse hne => simpa [hne, framesAfterGap, pulseCount] using hy
  | cons x t ih =>
    rw [getLast?_cons_eq_RST, pulseCount_cons] at hy
    rw [framesAfterGap] at ht
    rw [List.cons_append, framesAfterGap]
    split at ht
    case isTrue hx =>
      rw [if_pos hx]
      refine ih ht ?_
      simp only [hx, if_true, reduceCtorEq, false_and, false_or, Nat.add_zero] at hy
      tauto
    case isFalse hx =>
      rw [if_neg hx]
      rw [Bool.and_eq_true] at ht ⊢
      refine ⟨ht.1, ih ht.2 ?_⟩
      simp only [hx, if_false, reduceCtorEq, false_and, and_false, false_or, ← Nat.add_assoc, Nat.add_right_comm] at hy
      tauto

/-- An edge keeps the gaps, where the host waits for the gap (R217). -/
theorem gapsKept_clockEdge {p : Pins} {s t : State} (hs : s.Inv) (hto : s.TraceOk) (hpo : s.PulsesOk) (hgk : s.GapsKept)
    (hkeep : KeepsGap p s) (h : clockEdge p s = .next t) : t.GapsKept := by
  obtain ⟨-, hp⟩ := inv_clockEdge hs h
  obtain ⟨-, hlast⟩ := hto
  cases hr : p.rst with
  | true =>
    rw [clockEdge_reset hr] at h
    cases h
    rfl
  | false =>
    rw [State.GapsKept, hp]
    cases clockEdge_line hs hr h with
    | idles _ _ _ ht =>
      rw [ht, gapSymbols]
      split
      · exact framesAfterGap_append hgk (.inl rfl)
      · rw [List.append_nil]
        exact hgk
    | starts _ hf _ ht =>
      rw [ht]
      exact framesAfterGap_append hgk (.inr (.inr (.inl (hlast.2 (hkeep hf)))))
    | counts _ _ _ ht => rw [ht]; exact hgk
    | falls _ _ _ ht => rw [ht]; exact hgk
    | ends _ _ _ _ ht => rw [ht]; exact hgk
    | rises hb _ hl _ _ ht =>
      rw [pulsesOk_busy (by simp [hb]), Nat.mod_eq_of_lt hl] at hpo
      rw [ht]
      exact framesAfterGap_append hgk (.inr (.inr (.inr (by rw [Nat.zero_add, hpo]; omega))))

/-- Settles O52: a step is an edge of a state with the same registers. -/
theorem hostThatWaitsKeepsGaps : Obligations.HostThatWaitsKeepsGaps :=
  fun s _ hs hto hpo hgk hkeep h => gapsKept_clockEdge (s := dropPins s) hs hto hpo hgk hkeep h

/-! ### `LATCH` (R121) -/

theorem latchEnabled_iff {s : State} : latchEnabled s = true ↔ s.latched = false ∧ s.ser.phase = .idle := by
  simp [latchEnabled]

theorem idle_of_not_busy {s : State} (h : s.busy = false) : s.ser.phase = .idle := by
  by_contra hi
  rw [(busy_iff s).2 hi] at h
  cases h

theorem eventStep_latch {s : State} (h : latchEnabled s = true) : eventStep .latch s = .next (latchStep s) := if_pos h

theorem eventStep_latch_refused {s : State} (h : s.latched = true) :
    eventStep .latch s = .refused .latchNotEnabled := by simp [eventStep, latchEnabled, h]

theorem latchStep_latched (s : State) : (latchStep s).latched = true := decide_eq_true (Nat.le_refl s.params.resetCyc)

/-- Settles O32: `LATCH` sets `LATCHED`, which then disables it. -/
theorem latchStepEmitsRstOnce : Obligations.LatchStepEmitsRstOnce := by
  refine fun s hb => ⟨fun hl => ?_, eventStep_latch_refused⟩
  exact ⟨_, eventStep_latch (latchEnabled_iff.2 ⟨hl, idle_of_not_busy hb⟩), latchStep_latched s, rfl, rfl,
    eventStep_latch_refused (latchStep_latched s)⟩

theorem RST_notMem_flushSymbols (s : State) : Symbol.RST ∉ flushSymbols s := by
  rw [flushSymbols, List.mem_map]
  rintro ⟨b, -, hb⟩
  exact sym_ne_RST b hb

/-- Settles O53: the trace ends in `RST`, the flush puts its symbols behind it, and `LATCH` another `RST`. -/
theorem waitedFlushIsBracketed : Obligations.WaitedFlushIsBracketed := by
  intro s hs hto hk hl
  have ⟨hok, _⟩ := hs
  obtain ⟨-, hlast⟩ := hto
  obtain ⟨before, hbefore⟩ := List.getLast?_eq_some_iff.1 (hlast.2 hl)
  have hen : latchEnabled (flushWhole (clearStrobe s)) = true :=
    latchEnabled_iff.2 ⟨flushWhole_latched hok, rfl⟩
  have hrun : eventSteps [.cmd 0x050000000000, .latch] s = .next (latchStep (flushWhole (clearStrobe s))) := by
    rw [eventSteps, eventStep_flush hk, andThen_next, eventSteps, eventStep_latch hen, andThen_next, eventSteps]
  refine ⟨_, hrun, RST_notMem_flushSymbols s, before, [], ?_⟩
  have htrace : (latchStep (flushWhole (clearStrobe s))).trace = (s.trace ++ flushSymbols s) ++ [.RST] := rfl
  rw [htrace, hbefore]
  simp

/-! ### Fault entry (R189, R190) -/

/-- A fault waits for no part of the idle update (R190). -/
theorem idleEdge_enterFault (c : FaultCause) (w : CmdWord) (s : State) :
    idleEdge (enterFault c w s) = enterFault c w (idleEdge s) := by
  rcases Nat.lt_or_ge s.ser.gapcnt s.params.resetCyc with h | h
  · rw [idleEdge_counts h, idleEdge_counts (s := enterFault c w s) h]
    rfl
  · rw [idleEdge_saturated h, idleEdge_saturated (s := enterFault c w s) h]
    rfl

/-- An edge whose accepted word faults is the edge without a command, but for `FAULT` and `FINFO` (R190). -/
theorem clockEdge_faults {p : Pins} {s : State} {c : FaultCause} (ha : accepts p s = true)
    (he : portEffect p s = enterFault c p.cmd (clearStrobe s)) :
    ∃ u, clockEdge { p with cmdValid := false } s = .next u ∧
      clockEdge p s = .next { u with fault := c, finfo := p.cmd } ∧ u.pres = presAfter p s := by
  obtain ⟨-, -, hr⟩ := accepts_iff.1 ha
  obtain ⟨-, hi, -⟩ := ready_of_accepts ha
  have hn : accepts { p with cmdValid := false } s = false := rfl
  have hf : startsFlush p s = false := by
    by_contra hf
    rw [Bool.not_eq_false] at hf
    rw [portEffect_flush hf] at he
    have hph := congrArg (fun x : State => x.ser.phase) he
    simp [startPulse, hi] at hph
  refine ⟨_, clockEdge_quiet (p := { p with cmdValid := false }) hr hi (by simp [startsFlush, hn]), ?_, rfl⟩
  rw [clockEdge_quiet hr hi hf, he, idleEdge_enterFault, portEffect_rejects hn]
  rfl

/-- The port at an edge that accepts an illegal word. -/
theorem portEffect_illegal {p : Pins} {s : State} {e : IllegalWord} (ha : accepts p s = true)
    (hd : decode p.cmd = .error e) : portEffect p s = enterFault .illegalCmd p.cmd (clearStrobe s) :=
  (portEffect_accepts ha).trans (wordEffect_error hd _)

/-- The port at an edge that accepts a command. -/
theorem portEffect_ok {p : Pins} {s : State} {i : Instr} (h : AcceptsCommand p s i) :
    portEffect p s = commandEffect i (clearStrobe s) := (portEffect_accepts h.1).trans (wordEffect_ok h.2 _)

/-- An index out of range is a fault with the command's word (R92). -/
theorem commandEffect_out {s : State} {i : Instr} {idx : LedIndex} (hi : HasIndex i idx) (hn : s.params.n ≤ idx.toNat) :
    commandEffect i s = enterFault .indexRange (encode i) s := by
  obtain ⟨r, g, b, rfl⟩ | rfl | rfl := hi <;> exact if_neg (by omega)

/-- Settles O41: both kinds of fault are `clockEdge_faults`. -/
theorem faultEntryIsPrecise : Obligations.FaultEntryIsPrecise := by
  refine fun s p _ ha => ⟨fun e hd => ?_, fun i idx hd hi hn => ?_⟩
  · obtain ⟨u, hu, ht, -⟩ := clockEdge_faults ha (portEffect_illegal ha hd)
    exact ⟨u, hu, ht⟩
  · have he : portEffect p s = enterFault .indexRange p.cmd (clearStrobe s) := by
      rw [portEffect_ok ⟨ha, hd⟩, commandEffect_out (s := clearStrobe s) hi hn, ← decode_eq_ok_iff.1 hd]
    obtain ⟨u, hu, ht, -⟩ := clockEdge_faults ha he
    exact ⟨u, hu, ht⟩

/-- Settles O43: the reserved bit makes the word illegal before any index is looked at. -/
theorem illegalBeatsIndexRange : Obligations.IllegalBeatsIndexRange := by
  intro s p _ ha hop hz _
  have hd : decode p.cmd = .error .reservedBit := by
    obtain hop | hop := hop
    · exact (decode_of_opClr hop).trans (if_neg hz)
    · exact (decode_of_opGet hop).trans (if_neg hz)
  obtain ⟨u, -, ht, hpres⟩ := clockEdge_faults ha (portEffect_illegal ha hd)
  exact ⟨_, ht, rfl, rfl, hpres⟩

end Sys2Proof.Machine

/-!
PROOF of O39 and O40: ticks beside commands. `wholeEffect` is what an accepted word does at the event level; only `RDSTAT`
reads the presence registers, so every other word has the same effect whatever they hold (R188, R195).
-/

namespace Sys2Proof.Machine

/-! ### Words at the event level (R110) -/

/-- The state an accepted word leaves at the event level: `FLUSH` is one step, every other word is as at an edge. -/
def wholeEffect (w : CmdWord) (s : State) : State := if decode w = .ok .flush then flushWhole s else wordEffect w s

theorem wholeEffect_flush {w : CmdWord} (h : decode w = .ok .flush) (s : State) : wholeEffect w s = flushWhole s := if_pos h

theorem wholeEffect_word {w : CmdWord} (h : decode w ≠ .ok .flush) (s : State) : wholeEffect w s = wordEffect w s :=
  if_neg h

/-- A command's step of the event level in a ready block (R71, R110). -/
theorem eventStep_cmd {s : State} (h : s.cmdReady = true) (w : CmdWord) :
    eventStep (.cmd w) s = .next (wholeEffect w (clearStrobe s)) := by
  rw [eventStep_ready h, executeWordWhole, wholeEffect]
  split
  · rfl
  · exact executeWord_ready (s := clearStrobe s) h fun hd => absurd hd ‹_›

/-- But for the line, a word has one effect at both levels. -/
theorem wholeEffect_rest (w : CmdWord) (s : State) :
    wholeEffect w s = { wordEffect w s with ser := (wholeEffect w s).ser, trace := (wholeEffect w s).trace } := by
  by_cases h : decode w = .ok .flush
  · rw [wholeEffect_flush h, wordEffect_ok h]
    rfl
  · rw [wholeEffect_word h]

@[simp] theorem wholeEffect_params (w : CmdWord) (s : State) : (wholeEffect w s).params = s.params := by
  rw [wholeEffect_rest]; exact wordEffect_params w s

@[simp] theorem wholeEffect_pres (w : CmdWord) (s : State) : (wholeEffect w s).pres = s.pres := by
  rw [wholeEffect_rest]; exact wordEffect_pres w s

/-- Only `SETPRES` writes the flag (R195). -/
theorem wholeEffect_pflag {w : CmdWord} (hw : ∀ v, decode w ≠ .ok (.setpres v)) (s : State) :
    (wholeEffect w s).pflag = s.pflag := by
  rw [wholeEffect_rest]
  show (wordEffect w s).pflag = s.pflag
  cases hd : decode w with
  | ok i =>
    rw [wordEffect_ok hd]
    exact (commandEffect_effect i s).pflag fun v hi => hw v (hi ▸ hd)
  | error e => rw [wordEffect_error hd]; rfl

theorem isRdstat_iff {w : CmdWord} : isRdstat w = true ↔ ∃ x, decode w = .ok (.rdstat x) := by
  unfold isRdstat
  split
  case h_1 x h => exact iff_of_true rfl ⟨x, h⟩
  case h_2 h => exact iff_of_false (by simp) fun ⟨x, hx⟩ => h x hx

/-- A command other than `RDSTAT` neither reads nor writes the presence registers (R195). -/
theorem commandEffect_withPres {i : Instr} (hi : ∀ x, i ≠ .rdstat x) (s : State) (q : Presence) :
    commandEffect i { s with pres := q } = { commandEffect i s with pres := q } := by
  cases i with
  | rdstat x => exact absurd rfl (hi x)
  | set => simp only [commandEffect]; split <;> rfl
  | clr => simp only [commandEffect]; split <;> rfl
  | get => simp only [commandEffect]; split <;> rfl
  | _ => rfl

theorem wholeEffect_withPres {w : CmdWord} (hw : isRdstat w = false) (s : State) (q : Presence) :
    wholeEffect w { s with pres := q } = { wholeEffect w s with pres := q } := by
  by_cases h : decode w = .ok .flush
  · rw [wholeEffect_flush h, wholeEffect_flush h]
    rfl
  · rw [wholeEffect_word h, wholeEffect_word h]
    cases hd : decode w with
    | error e => rw [wordEffect_error hd, wordEffect_error hd]; rfl
    | ok i =>
      rw [wordEffect_ok hd, wordEffect_ok hd]
      refine commandEffect_withPres (fun x hx => ?_) s q
      rw [isRdstat_iff.2 ⟨x, hx ▸ hd⟩] at hw
      cases hw

/-! ### A tick and a command at one edge (R188) -/

/-- The tick, then the command: the presence registers of the tick, all else of the command. -/
theorem eventSteps_tick_cmd {s : State} (hk : s.cmdReady = true) {w : CmdWord} (hw : isRdstat w = false) :
    eventSteps [.tick, .cmd w] s =
      .next { wholeEffect w (clearStrobe s) with pres := tickPresence s.params s.pflag s.pres } := by
  rw [eventSteps, eventStep, andThen_next, eventSteps, eventStep_cmd (s := tickAt s s) hk, andThen_next, eventSteps]
  exact congrArg Host.Outcome.next (wholeEffect_withPres hw (clearStrobe s) _)

/-- The command, then the tick, where the command leaves the flag: the same. -/
theorem eventSteps_cmd_tick {s : State} (hk : s.cmdReady = true) {w : CmdWord} (hw : ∀ v, decode w ≠ .ok (.setpres v)) :
    eventSteps [.cmd w, .tick] s =
      .next { wholeEffect w (clearStrobe s) with pres := tickPresence s.params s.pflag s.pres } := by
  have htick : tickPresence (wholeEffect w (clearStrobe s)).params (wholeEffect w (clearStrobe s)).pflag
      (wholeEffect w (clearStrobe s)).pres = tickPresence s.params s.pflag s.pres := by
    rw [wholeEffect_params, wholeEffect_pres, wholeEffect_pflag hw]
    rfl
  rw [eventSteps, eventStep_cmd hk, andThen_next, eventSteps, eventStep, andThen_next, eventSteps, tickAt, htick]

/-- Settles O40: the edge is `clockEdge_rest`, and each order of the event level has its lemma above. -/
theorem tickAndCommandAtOneEdge : Obligations.TickAndCommandAtOneEdge := by
  intro s p hs ha htick
  obtain ⟨-, hk, hr⟩ := accepts_iff.1 ha
  obtain ⟨t, ht, -⟩ := clockEdge_next hs p
  have hrest := clockEdge_rest hr ht
  have hpres : t.pres = tickPresence s.params s.pflag s.pres := by rw [hrest]; exact if_pos htick
  refine ⟨fun v hd => ⟨t, ht, ?_, hpres⟩, fun x hd => ⟨t, ht, ?_, hpres⟩, fun hsp hrd => ?_⟩
  · rw [hrest, portEffect_ok ⟨ha, hd⟩]
    rfl
  · rw [hrest, portEffect_ok ⟨ha, hd⟩]
    rfl
  · have hw : isRdstat p.cmd = false := Bool.eq_false_iff.2 fun h => (isRdstat_iff.1 h).elim hrd
    refine ⟨t, _, eventSteps_tick_cmd hk hw, eventSteps_cmd_tick hk hsp, ht, hpres, ?_⟩
    rw [hrest, portEffect_accepts ha, wholeEffect_rest]
    exact ⟨rfl, rfl, rfl, rfl, rfl, rfl⟩

/-! ### Runs that differ in ticks only (R125) -/

/-- What the presence registers and `RSP` hold has no influence on a command, but for the `RSP` it leaves. -/
theorem commandEffect_blind (i : Instr) (s : State) (q : Presence) (v : RspWord) :
    ∃ v', commandEffect i { s with pres := q, rsp := v } = { commandEffect i s with pres := q, rsp := v' } := by
  cases i with
  | set => simp only [commandEffect]; split <;> exact ⟨_, rfl⟩
  | clr => simp only [commandEffect]; split <;> exact ⟨_, rfl⟩
  | get => simp only [commandEffect]; split <;> exact ⟨_, rfl⟩
  | _ => exact ⟨_, rfl⟩

theorem portEffect_blind (p : Pins) (s : State) (b : Bool) (q : Presence) (v : RspWord) :
    ∃ v', portEffect { p with tick := b } { s with pres := q, rsp := v } =
      { portEffect p s with pres := q, rsp := v' } := by
  have hacc : accepts { p with tick := b } { s with pres := q, rsp := v } = accepts p s := rfl
  cases ha : accepts p s with
  | false =>
    rw [portEffect_rejects (hacc.trans ha), portEffect_rejects ha]
    exact ⟨v, rfl⟩
  | true =>
    rw [portEffect_accepts (hacc.trans ha), portEffect_accepts ha]
    cases hd : decode p.cmd with
    | error e => rw [wordEffect_error hd, wordEffect_error hd]; exact ⟨v, rfl⟩
    | ok i =>
      rw [wordEffect_ok hd, wordEffect_ok hd]
      exact commandEffect_blind i (clearStrobe s) q v

/-- What the presence registers and `RSP` hold has no influence on the rest of an edge, and neither has the tick. -/
theorem clockEdge_blind {p : Pins} {s t : State} (hs : s.Inv) (h : clockEdge p s = .next t) (b : Bool) (q : Presence)
    (v : RspWord) : ∃ q' v', clockEdge { p with tick := b } { s with pres := q, rsp := v } =
      .next { t with pres := q', rsp := v' } := by
  rcases Bool.eq_false_or_eq_true p.rst with hr | hr
  · rw [clockEdge_reset hr] at h
    cases h
    exact ⟨.reset, 0, clockEdge_reset (p := { p with tick := b }) hr _⟩
  · obtain ⟨s1, s2, h1, h2, rfl⟩ := (clockEdge_eq_next hr).1 h
    obtain rfl := port_eq_next hr h1
    have hn := pos_of_inv hs
    obtain ⟨v', hv'⟩ := portEffect_blind p s b q v
    obtain ⟨u, hu, hser, htrace⟩ := serializerEdge_congr
      (s' := portEffect { p with tick := b } { s with pres := q, rsp := v })
      (by rw [hv']) (by rw [hv']) (by rw [hv']) (by rw [hv']) h2
    have hsame : u = { s2 with pres := q, rsp := v' } := by
      rw [serializerEdge_frame hu, serializerEdge_frame h2, ← hser, ← htrace, hv']
    refine ⟨presAfter { p with tick := b } { s with pres := q, rsp := v }, v', ?_⟩
    refine (clockEdge_eq_next (p := { p with tick := b }) (s := { s with pres := q, rsp := v }) hr).2
      ⟨_, u, port_eq hr fun _ => hn, hu, ?_⟩
    rw [tick_eq (p := { p with tick := b }) (s := { s with pres := q, rsp := v }) (by rw [hsame]), hsame]
    cases p.tick <;> rfl

/-- Runs from states that differ in the presence registers and `RSP` only, with pins that differ in ticks only. -/
theorem clockEdges_blind {ps qs : List Pins} (hpq : List.Forall₂ (fun p q : Pins => { p with tick := q.tick } = q) ps qs)
    {s : State} (hs : s.Inv) (q : Presence) (v : RspWord) :
    ∃ t q' v', clockEdges ps s = .next t ∧
      clockEdges qs { s with pres := q, rsp := v } = .next { t with pres := q', rsp := v' } := by
  induction hpq generalizing s q v with
  | nil => exact ⟨s, q, v, rfl, rfl⟩
  | @cons p p' ps qs hp _ ih =>
    obtain ⟨t, ht, hinv, -⟩ := clockEdge_next hs p
    obtain ⟨q1, v1, h1⟩ := clockEdge_blind hs ht p'.tick q v
    rw [hp] at h1
    obtain ⟨u, q', v', hu, hu'⟩ := ih hinv q1 v1
    exact ⟨u, q', v', by rw [clockEdges, ht, andThen_next, hu], by rw [clockEdges, h1, andThen_next, hu']⟩

/-- Settles O39: both runs start in the same state. -/
theorem ticksNeverDisturbTheLine : Obligations.TicksNeverDisturbTheLine := by
  intro s ps qs hs hpq
  obtain ⟨t, q', v', ht, hu⟩ := clockEdges_blind hpq hs s.pres s.rsp
  exact ⟨t, _, ht, hu, rfl, rfl, rfl, rfl, rfl, rfl, rfl, rfl, rfl⟩

end Sys2Proof.Machine

/-!
PROOF of O55: the cycle level refines the event level (R124). `SameRegs` relates states that differ in the line and the response
only; a word, a tick and a reset keep it. One edge and the steps it stands for end with the same view; a list of cycles follows by
induction.
-/

namespace Sys2Proof.Machine

/-! ### States with the same registers -/

/-- The states agree but for the line, the response and the pins to come. -/
def SameRegs (s e : State) : Prop :=
  ∃ x y v r z, e = { s with ser := x, trace := y, rsp := v, rspValid := r, inputs := z }

namespace SameRegs

variable {s e : State}

theorem iff_fields : SameRegs s e ↔ e.params = s.params ∧ e.frame = s.frame ∧ e.pres = s.pres ∧ e.pflag = s.pflag ∧
    e.csel = s.csel ∧ e.fault = s.fault ∧ e.finfo = s.finfo := by
  constructor
  · rintro ⟨x, y, v, r, z, rfl⟩
    exact ⟨rfl, rfl, rfl, rfl, rfl, rfl, rfl⟩
  · rintro ⟨hp, hf, hq, hg, hc, ha, hi⟩
    exact ⟨e.ser, e.trace, e.rsp, e.rspValid, e.inputs, by rw [← hp, ← hf, ← hq, ← hg, ← hc, ← ha, ← hi]⟩

theorem params (h : SameRegs s e) : e.params = s.params := (iff_fields.1 h).1

theorem frame (h : SameRegs s e) : e.frame = s.frame := (iff_fields.1 h).2.1

theorem fault (h : SameRegs s e) : e.fault = s.fault := by
  obtain ⟨x, y, v, r, z, rfl⟩ := h
  rfl

theorem clearStrobe (h : SameRegs s e) : SameRegs (clearStrobe s) (clearStrobe e) := by
  obtain ⟨x, y, v, r, z, rfl⟩ := h
  exact ⟨x, y, v, false, z, rfl⟩

theorem presAfter (h : SameRegs s e) (p : Pins) : presAfter p e = presAfter p s := by
  obtain ⟨x, y, v, r, z, rfl⟩ := h
  rfl

theorem cmdReady (h : SameRegs s e) (hs : s.ser.phase = .idle) (he : e.ser.phase = .idle) : e.cmdReady = s.cmdReady := by
  rw [State.cmdReady, State.cmdReady, h.fault, hs, he]

/-- No command reads the line but `RDSTAT LATCHED`. -/
theorem commandEffect (h : SameRegs s e) (i : Instr) :
    SameRegs (commandEffect i s) (commandEffect i e) ∧
      (e.rsp = s.rsp → (i = .rdstat .latched → e.latched = s.latched) →
        (Machine.commandEffect i e).rsp = (Machine.commandEffect i s).rsp) := by
  obtain ⟨x, y, v, r, z, rfl⟩ := h
  cases i with
  | set =>
    simp only [Machine.commandEffect]
    split <;> exact ⟨⟨_, _, _, _, _, rfl⟩, fun hr _ => hr⟩
  | clr =>
    simp only [Machine.commandEffect]
    split <;> exact ⟨⟨_, _, _, _, _, rfl⟩, fun hr _ => hr⟩
  | get =>
    simp only [Machine.commandEffect]
    split
    · exact ⟨⟨_, _, _, _, _, rfl⟩, fun _ _ => rfl⟩
    · exact ⟨⟨_, _, _, _, _, rfl⟩, fun hr _ => hr⟩
  | rdstat sel =>
    refine ⟨⟨_, _, _, _, _, rfl⟩, fun _ hl => ?_⟩
    cases sel with
    | latched => exact congrArg (fun b => (bitValue b).zeroExtend 24) (hl rfl)
    | _ => rfl
  | _ => exact ⟨⟨_, _, _, _, _, rfl⟩, fun hr _ => hr⟩

theorem wordEffect (h : SameRegs s e) (w : CmdWord) :
    SameRegs (wordEffect w s) (wordEffect w e) ∧
      (e.rsp = s.rsp → (decode w = .ok (.rdstat .latched) → e.latched = s.latched) →
        (Machine.wordEffect w e).rsp = (Machine.wordEffect w s).rsp) := by
  cases hd : decode w with
  | error c =>
    obtain ⟨x, y, v, r, z, rfl⟩ := h
    rw [wordEffect_error hd, wordEffect_error hd]
    exact ⟨⟨_, _, _, _, _, rfl⟩, fun hr _ => hr⟩
  | ok i =>
    rw [wordEffect_ok hd, wordEffect_ok hd]
    obtain ⟨hsame, hrsp⟩ := h.commandEffect i
    exact ⟨hsame, fun hr hl => hrsp hr fun hi => hl (by rw [hi])⟩

theorem trans {a : State} (h : SameRegs s e) (h' : SameRegs e a) : SameRegs s a := by
  obtain ⟨x, y, v, r, z, rfl⟩ := h
  obtain ⟨x, y, v, r, z, rfl⟩ := h'
  exact ⟨_, _, _, _, _, rfl⟩

end SameRegs

/-- A word keeps the line of an idle block idle at the event level. -/
theorem wholeEffect_idle {s : State} (hi : s.ser.phase = .idle) (w : CmdWord) : (wholeEffect w s).ser.phase = .idle := by
  by_cases h : decode w = .ok .flush
  · rw [wholeEffect_flush h]
    rfl
  · rw [wholeEffect_word h, (wordEffect_line h s).1, hi]

/-! ### Views (R124) -/

theorem unsentSymbols_idle {s : State} (h : s.ser.phase = .idle) : unsentSymbols s = [] := by
  simp [unsentSymbols, State.busy, h]

/-- States have the same view when they have the same registers, response and `LATCHED`, and the same trace once a flush in
progress is done. -/
theorem eventView_eq_iff {s e : State} : eventView e = eventView s ↔ SameRegs s e ∧ e.rsp = s.rsp ∧
    e.latched = s.latched ∧ e.trace ++ unsentSymbols e = s.trace ++ unsentSymbols s := by
  rw [SameRegs.iff_fields, eventView, eventView, EventView.mk.injEq]
  tauto

/-- A tick the two levels share keeps the views the same. -/
theorem eventView_withPres {s e : State} (hv : eventView e = eventView s) (q : Presence) :
    eventView { e with pres := q } = eventView { s with pres := q } :=
  congrArg (fun v : EventView => { v with pres := q }) hv

theorem eventView_idle_trace {s : State} (h : s.ser.phase = .idle) : (eventView s).trace = s.trace := by
  rw [eventView, unsentSymbols_idle h, List.append_nil]

/-- The view once `LATCH` has happened (R121). -/
def EventView.latch (v : EventView) : EventView := { v with latched := true, trace := v.trace ++ [.RST] }

theorem eventView_latchStep {e : State} (hi : e.ser.phase = .idle) : eventView (latchStep e) = (eventView e).latch := by
  have hi' : (latchStep e).ser.phase = .idle := hi
  rw [eventView, latchStep_latched, unsentSymbols_idle hi', EventView.latch, eventView_idle_trace hi, List.append_nil]
  rfl

/-- An idle edge looks like nothing, or like `LATCH` where the gap ends at it (R117, R121). -/
theorem eventView_idleEdge {s : State} (hi : s.ser.phase = .idle) (hg : s.ser.gapcnt ≤ s.params.resetCyc) :
    eventView (idleEdge s) =
      if s.ser.gapcnt + 1 = s.params.resetCyc then (eventView s).latch else eventView s := by
  obtain ⟨hser, htrace⟩ := idleEdge_line hg
  have hrest := idleEdge_frame s
  have hp : (idleEdge s).params = s.params := by rw [hrest]
  have hi' : (idleEdge s).ser.phase = .idle := by rw [hser]; exact hi
  have hsame : SameRegs s (idleEdge s) := ⟨_, _, _, _, _, hrest⟩
  have hrsp : (idleEdge s).rsp = s.rsp := by rw [hrest]
  split
  case isTrue h =>
    rw [← eventView_latchStep hi, eventView_eq_iff]
    refine ⟨⟨_, _, _, _, _, hrest⟩, hrsp, ?_, ?_⟩
    · rw [latchStep_latched, latched_iff, hp, hser]
      exact (Nat.min_eq_right h.ge).ge
    · rw [unsentSymbols_idle hi', unsentSymbols_idle (s := latchStep s) hi, htrace, gapSymbols, if_pos h]
      rfl
  case isFalse h =>
    refine eventView_eq_iff.2 ⟨hsame, hrsp, ?_, ?_⟩
    · rw [Bool.eq_iff_iff, latched_iff, latched_iff, hp, hser]
      show _ ≤ min _ _ ↔ _
      omega
    · rw [unsentSymbols_idle hi', unsentSymbols_idle hi, htrace, gapSymbols, if_neg h, List.append_nil]

/-- The flush that starts looks done (R124): its first symbol is emitted, the others are unsent. -/
theorem eventView_startPulse {s e : State} (hp : s.params.ok) (hi : s.ser.phase = .idle) (he : e.ser.phase = .idle)
    (hv : eventView e = eventView s) :
    eventView (flushWhole e) = eventView (startPulse 0 7 0 ((s.frame.read 0).getLsbD 7) s) := by
  obtain ⟨hsame, hrsp, -, htrace⟩ := eventView_eq_iff.1 hv
  have ⟨⟨hn, _⟩, _, _, _, hgap, _⟩ := hp
  have hsyms : flushSymbols e = flushSymbols s := flushSymbols_congr hsame.params hsame.frame
  have hregs : SameRegs (startPulse 0 7 0 ((s.frame.read 0).getLsbD 7) s) (flushWhole e) := by
    obtain ⟨x, y, v, r, z, rfl⟩ := hsame
    exact ⟨_, _, _, _, _, rfl⟩
  rw [unsentSymbols_idle hi, unsentSymbols_idle he, List.append_nil, List.append_nil] at htrace
  refine eventView_eq_iff.2 ⟨hregs, hrsp, ?_, ?_⟩
  · rw [flushWhole_latched (hsame.params ▸ hp)]
    exact (decide_eq_false (Nat.not_le.2 hgap)).symm
  · have hlen := length_flushSymbols s
    have hfirst := flushSymbols_getElem? s (k := 0) (by omega)
    have hunsent : unsentSymbols (startPulse 0 7 0 ((s.frame.read 0).getLsbD 7) s) = (flushSymbols s).drop 1 := rfl
    rw [unsentSymbols_idle (s := flushWhole e) rfl, hunsent, flushWhole_trace, htrace, hsyms, List.append_nil]
    cases hl : flushSymbols s with
    | nil => rw [hl] at hlen; simp at hlen; omega
    | cons y ys =>
      rw [hl] at hfirst
      obtain rfl : y = sym ((s.frame.read 0).getLsbD 7) := by simpa using hfirst
      show s.trace ++ _ = (s.trace ++ [_]) ++ ys
      simp

/-- During a flush the gap count is 0 (R33). -/
theorem gapcnt_of_busy {s : State} (hs : s.Inv) (hb : s.ser.phase ≠ .idle) : s.ser.gapcnt = 0 := by
  obtain ⟨-, -, -, ⟨-, hbusy, -⟩, -⟩ := hs
  exact (hbusy hb).2

/-- The gap count saturates at `RESET_CYC` (R33). -/
theorem gapcnt_le {s : State} (hs : s.Inv) : s.ser.gapcnt ≤ s.params.resetCyc := by
  obtain ⟨-, -, -, ⟨-, -, -, hgap⟩, -⟩ := hs
  exact hgap

/-- The symbols of a flush from the bit on the line on (R113). -/
theorem flushSymbols_drop_bitIndex {s : State} (hs : s.Inv) (hb : s.ser.phase ≠ .idle) :
    (flushSymbols s).drop (bitIndex s) = sym (currentBit s) :: (flushSymbols s).drop (bitIndex s + 1) := by
  have hget : (flushSymbols s)[bitIndex s]? = some (sym (currentBit s)) := by
    rw [flushSymbols, List.getElem?_map, frameBits_bitIndex (bitIndex_lt hs hb), Option.map_some]
  obtain ⟨hlt, hget⟩ := List.getElem?_eq_some_iff.1 hget
  rw [List.drop_eq_getElem_cons hlt, hget]

/-- A flush in progress goes on unseen (R124). -/
theorem eventView_busyEdge {p : Pins} {s t : State} (hs : s.Inv) (hb : s.busy = true) (hr : p.rst = false)
    (h : clockEdge p s = .next t) : eventView t = eventView { s with pres := presAfter p s } := by
  have hph := (busy_iff s).1 hb
  have hrest := clockEdge_busy_rest hr hb h
  have hg := gapcnt_of_busy hs hph
  obtain ⟨hinv, hp⟩ := inv_clockEdge hs h
  have hsyms : flushSymbols t = flushSymbols s := flushSymbols_congr hp (by rw [hrest])
  have hunsent : unsentSymbols s = (flushSymbols s).drop (bitIndex s + 1) := if_pos hb
  have hlatched {g : Nat} (hx : t.ser.gapcnt = g) (h0 : g = s.ser.gapcnt) : t.latched = s.latched :=
    latched_congr hp (hx.trans h0)
  have stays (ht : t.ser.phase ≠ .idle) (hbit : bitIndex t = bitIndex s) (htrace : t.trace = s.trace) :
      t.trace ++ unsentSymbols t = s.trace ++ unsentSymbols s := by
    rw [unsentSymbols, if_pos ((busy_iff t).2 ht), hsyms, hbit, htrace, hunsent]
  refine eventView_eq_iff.2 ⟨⟨_, _, _, _, _, hrest⟩, by rw [hrest], ?_⟩
  show t.latched = s.latched ∧ t.trace ++ unsentSymbols t = s.trace ++ unsentSymbols s
  cases clockEdge_line hs hr h with
  | idles hi => exact absurd hi hph
  | starts hi => exact absurd hi hph
  | counts hb' _ hx ht =>
    exact ⟨hlatched (by rw [hx]) rfl, stays (by rw [hx]; exact hb') (by simp only [bitIndex, hx]) ht⟩
  | falls _ _ hx ht => exact ⟨hlatched (by rw [hx]) rfl, stays (by rw [hx]; simp) (by simp only [bitIndex, hx]) ht⟩
  | ends _ _ hl hx ht =>
    refine ⟨hlatched (by rw [hx]) hg.symm, ?_⟩
    rw [unsentSymbols_idle (by rw [hx]), hunsent, hl, List.drop_eq_nil_of_le (length_flushSymbols s).le, ht]
  | rises _ _ _ hn hx ht =>
    have hb' : t.ser.phase ≠ .idle := by rw [hx]; simp
    refine ⟨hlatched (by rw [hx]) hg.symm, ?_⟩
    rw [hunsent, ← hn, ← hsyms, flushSymbols_drop_bitIndex hinv hb', unsentSymbols, if_pos ((busy_iff t).2 hb'), ht,
      List.append_assoc]
    rfl

/-- A word the two levels both accept leaves the same view; `FLUSH` looks done (R124). -/
theorem eventView_word {w : CmdWord} {s e : State} (hp : s.params.ok) (hi : s.ser.phase = .idle)
    (he : e.ser.phase = .idle) (hv : eventView e = eventView s) : eventView (wholeEffect w e) = eventView (wordEffect w s) := by
  by_cases hd : decode w = .ok .flush
  · rw [wholeEffect_flush hd, wordEffect_ok hd]
    exact eventView_startPulse hp hi he hv
  · obtain ⟨hsame, hrsp, hlatched, htrace⟩ := eventView_eq_iff.1 hv
    obtain ⟨hregs, hresp⟩ := hsame.wordEffect w
    obtain ⟨hser, htr⟩ := wordEffect_line hd s
    obtain ⟨hser', htr'⟩ := wordEffect_line hd e
    have hi' : (wordEffect w s).ser.phase = .idle := by rw [hser, hi]
    have he' : (wordEffect w e).ser.phase = .idle := by rw [hser', he]
    rw [unsentSymbols_idle hi, unsentSymbols_idle he] at htrace
    rw [wholeEffect_word hd]
    refine eventView_eq_iff.2 ⟨hregs, hresp hrsp fun _ => hlatched, ?_, ?_⟩
    · rw [latched_congr (wordEffect_params w e) (by rw [hser']), hlatched]
      exact (latched_congr (wordEffect_params w s) (by rw [hser])).symm
    · rw [unsentSymbols_idle hi', unsentSymbols_idle he', htr, htr', htrace]

/-! ### One edge and its steps (R124) -/

/-- The steps of an edge but for `LATCH`, in the order of R188 (3). -/
def portEvents (p : Pins) (s : State) : List Event :=
  let c := if accepts p s then [.cmd p.cmd] else []
  let t := if p.tick then [.tick] else []
  if isRdstat p.cmd then c ++ t else t ++ c

theorem eventsOfEdge_reset {p : Pins} (hr : p.rst = true) (s : State) : eventsOfEdge p s = [.reset] := if_pos hr

theorem eventsOfEdge_eq {p : Pins} (hr : p.rst = false) (s : State) :
    eventsOfEdge p s = portEvents p s ++ if reachesGap p s then [.latch] else [] := if_neg (by simp [hr])

theorem eventSteps_singleton (v : Event) (e : State) : eventSteps [v] e = eventStep v e := by
  rw [eventSteps]
  cases h : eventStep v e <;> rfl

/-- The event-level state after the port and the tick of an edge from `s`, from the event-level state `e`. -/
def portWhole (p : Pins) (s e : State) : State :=
  { (if accepts p s then wholeEffect p.cmd (clearStrobe e) else e) with pres := presAfter p e }

theorem portWhole_rejects {p : Pins} {s : State} (h : accepts p s = false) (e : State) :
    portWhole p s e = { e with pres := presAfter p e } := by rw [portWhole, if_neg (by simp [h])]

theorem portWhole_accepts {p : Pins} {s : State} (h : accepts p s = true) (e : State) :
    portWhole p s e = { wholeEffect p.cmd (clearStrobe e) with pres := presAfter p e } := by rw [portWhole, if_pos h]

theorem portWhole_idle {e : State} (he : e.ser.phase = .idle) (p : Pins) (s : State) :
    (portWhole p s e).ser.phase = .idle := by
  cases ha : accepts p s with
  | false => rw [portWhole_rejects ha]; exact he
  | true => rw [portWhole_accepts ha]; exact wholeEffect_idle (s := clearStrobe e) he p.cmd

/-- The steps of the port and the tick, in whichever order R188 puts them. -/
theorem eventSteps_port {p : Pins} {s e : State} (hk : accepts p s = true → e.cmdReady = true) :
    eventSteps (portEvents p s) e = .next (portWhole p s e) := by
  cases ha : accepts p s with
  | false =>
    have hev : portEvents p s = if p.tick then [.tick] else [] := by simp [portEvents, ha]
    rw [hev, portWhole_rejects ha]
    unfold presAfter
    split <;> rfl
  | true =>
    rw [portWhole_accepts ha]
    cases htick : p.tick with
    | false =>
      have hev : portEvents p s = [.cmd p.cmd] := by simp [portEvents, ha, htick]
      have hpres : (wholeEffect p.cmd (clearStrobe e)).pres = e.pres := wholeEffect_pres _ _
      rw [hev, eventSteps_singleton, eventStep_cmd (hk ha), presAfter, htick, if_neg (by simp), ← hpres]
    | true =>
      rw [presAfter, htick, if_pos rfl]
      cases hw : isRdstat p.cmd with
      | false =>
        have hev : portEvents p s = [.tick, .cmd p.cmd] := by simp [portEvents, ha, htick, hw]
        rw [hev, eventSteps_tick_cmd (hk ha) hw]
      | true =>
        have hev : portEvents p s = [.cmd p.cmd, .tick] := by simp [portEvents, ha, htick, hw]
        obtain ⟨x, hx⟩ := isRdstat_iff.1 hw
        rw [hev, eventSteps_cmd_tick (hk ha) (by simp [hx])]

theorem reachesGap_iff {p : Pins} {s : State} : reachesGap p s = true ↔
    s.ser.phase = .idle ∧ startsFlush p s = false ∧ s.ser.gapcnt + 1 = s.params.resetCyc := by
  simp [reachesGap, and_assoc]

theorem idle_of_reachesGap {p : Pins} {s : State} (h : reachesGap p s = true) : s.ser.phase = .idle :=
  (reachesGap_iff.1 h).1

theorem gap_of_reachesGap {p : Pins} {s : State} (h : reachesGap p s = true) :
    s.ser.gapcnt + 1 = s.params.resetCyc := by
  obtain ⟨-, -, hgap⟩ := reachesGap_iff.1 h
  exact hgap

/-- An edge at which the gap does not end stands for the steps of the port and the tick. -/
theorem eventsOfEdge_noGap {p : Pins} {s : State} (hr : p.rst = false) (h : reachesGap p s ≠ true) :
    eventsOfEdge p s = portEvents p s := by rw [eventsOfEdge_eq hr, if_neg h, List.append_nil]

/-- An edge at which the gap ends stands for `LATCH` too. -/
theorem eventsOfEdge_gap {p : Pins} {s : State} (hr : p.rst = false) (h : reachesGap p s = true) :
    eventsOfEdge p s = portEvents p s ++ [.latch] := by rw [eventsOfEdge_eq hr, if_pos h]

theorem eventView_resetEdge {s e : State} (h : e.params = s.params) :
    eventView (resetEdge e) = eventView (resetEdge s) := by
  have hview (a : State) : eventView (resetEdge a) = eventView (State.resetWith a.params) := rfl
  rw [hview, hview, h]

/-- Where an edge accepts a word, an event-level state with the same registers is ready too. -/
theorem cmdReady_of_accepts {p : Pins} {s e : State} (he : e.ser.phase = .idle) (hsame : SameRegs s e)
    (ha : accepts p s = true) : e.cmdReady = true := by
  obtain ⟨hk, hi, -⟩ := ready_of_accepts ha
  rw [hsame.cmdReady hi he, hk]

/-- The view after the port and the tick, at both levels: in `IDLE`. -/
theorem eventView_port {p : Pins} {s e : State} (hp : s.params.ok) (hi : s.ser.phase = .idle) (he : e.ser.phase = .idle)
    (hv : eventView e = eventView s) :
    eventView (portWhole p s e) = eventView { portEffect p s with pres := presAfter p s } := by
  have hpres := (eventView_eq_iff.1 hv).1.presAfter p
  cases ha : accepts p s with
  | false =>
    rw [portWhole_rejects ha, portEffect_rejects ha, hpres]
    exact eventView_withPres (s := clearStrobe s) hv _
  | true =>
    rw [portWhole_accepts ha, portEffect_accepts ha, hpres]
    exact eventView_withPres (eventView_word (s := clearStrobe s) (e := clearStrobe e) hp hi he hv) _

/-- The idle update does not look at the presence registers (R195). -/
theorem idleEdge_withPres (s : State) (q : Presence) :
    idleEdge { s with pres := q } = { idleEdge s with pres := q } := by
  rcases Nat.lt_or_ge s.ser.gapcnt s.params.resetCyc with h | h
  · rw [idleEdge_counts h, idleEdge_counts (s := { s with pres := q }) h]
  · rw [idleEdge_saturated h, idleEdge_saturated (s := { s with pres := q }) h]

/-- An edge in `IDLE` that starts no flush: the port and the tick, and `LATCH` where the gap ends. -/
theorem eventView_quietEdge {p : Pins} {s t : State} (hs : s.Inv) (hr : p.rst = false) (hi : s.ser.phase = .idle)
    (hf : startsFlush p s = false) (h : clockEdge p s = .next t) :
    eventView t = if s.ser.gapcnt + 1 = s.params.resetCyc
      then (eventView { portEffect p s with pres := presAfter p s }).latch
      else eventView { portEffect p s with pres := presAfter p s } := by
  obtain ⟨hser, -⟩ := portEffect_line hf
  have hpp := portEffect_params p s
  rw [clockEdge_quiet hr hi hf, ← idleEdge_withPres] at h
  cases h
  have hidle : (portEffect p s).ser.phase = .idle := by rw [hser, hi]
  have hgap : (portEffect p s).ser.gapcnt ≤ (portEffect p s).params.resetCyc := by rw [hser, hpp]; exact gapcnt_le hs
  refine (eventView_idleEdge (s := { portEffect p s with pres := presAfter p s }) hidle hgap).trans (if_congr ?_ rfl rfl)
  show (portEffect p s).ser.gapcnt + 1 = (portEffect p s).params.resetCyc ↔ _
  rw [hser, hpp]

/-- One edge: its steps answer, and leave the same view with no flush in progress (R124). -/
theorem edge_refines {p : Pins} {s t e : State} (hs : s.Inv) (he : e.ser.phase = .idle) (hv : eventView e = eventView s)
    (h : clockEdge p s = .next t) :
    ∃ u, eventSteps (eventsOfEdge p s) e = .next u ∧ u.ser.phase = .idle ∧ eventView u = eventView t := by
  have ⟨hsame, _⟩ := eventView_eq_iff.1 hv
  have ⟨hok, _⟩ := hs
  rcases Bool.eq_false_or_eq_true p.rst with hr | hr
  · rw [clockEdge_reset hr] at h
    cases h
    rw [eventsOfEdge_reset hr, eventSteps_singleton]
    exact ⟨_, rfl, rfl, eventView_resetEdge hsame.params⟩
  have hport := eventSteps_port (p := p) (s := s) (cmdReady_of_accepts he hsame)
  have hidle := portWhole_idle he p s
  by_cases hi : s.ser.phase = .idle
  · have hview := eventView_port (p := p) hok hi he hv
    cases hf : startsFlush p s with
    | true =>
      rw [clockEdge_starts hf (pos_of_inv hs), ← portEffect_flush hf] at h
      cases h
      rw [eventsOfEdge_noGap hr fun hg => by simp [reachesGap, hf] at hg]
      exact ⟨_, hport, hidle, hview⟩
    | false =>
      have hquiet := eventView_quietEdge hs hr hi hf h
      by_cases hgap : s.ser.gapcnt + 1 = s.params.resetCyc
      · obtain ⟨-, -, hlatched, -⟩ := eventView_eq_iff.1 hview
        have hl : (portWhole p s e).latched = false := by
          have hgp : (portEffect p s).latched = s.latched :=
            latched_congr (portEffect_params p s) (by rw [(portEffect_line hf).1])
          have hsl : s.latched = false := decide_eq_false (by omega)
          exact (hlatched.trans hgp).trans hsl
        rw [if_pos hgap] at hquiet
        rw [eventsOfEdge_gap hr (reachesGap_iff.2 ⟨hi, hf, hgap⟩), eventSteps_append, hport, andThen_next,
          eventSteps_singleton, eventStep_latch (latchEnabled_iff.2 ⟨hl, hidle⟩)]
        exact ⟨_, rfl, hidle, by rw [eventView_latchStep hidle, hview, hquiet]⟩
      · rw [if_neg hgap] at hquiet
        rw [eventsOfEdge_noGap hr fun hg => hgap (gap_of_reachesGap hg)]
        exact ⟨_, hport, hidle, hview.trans hquiet.symm⟩
  · have hb := (busy_iff s).2 hi
    have ha : accepts p s = false := by simp [accepts, cmdReady_of_busy hb]
    rw [eventsOfEdge_noGap hr fun hg => hi (idle_of_reachesGap hg)]
    refine ⟨_, hport, hidle, ?_⟩
    rw [eventView_busyEdge hs hb hr h, portWhole_rejects ha, hsame.presAfter p]
    exact eventView_withPres hv _

/-! ### Lists of cycles (R124) -/

theorem eventsOfEdges_cons {p : Pins} {s t : State} (h : clockEdge p s = .next t) (ps : List Pins) :
    eventsOfEdges (p :: ps) s = eventsOfEdge p s ++ eventsOfEdges ps t := by
  rw [eventsOfEdges, h]
  rfl

theorem clockEdges_cons {p : Pins} {s t : State} (h : clockEdge p s = .next t) (ps : List Pins) :
    clockEdges (p :: ps) s = clockEdges ps t := by rw [clockEdges, h, andThen_next]

/-- The edges of a list of cycles and the steps they stand for end with the same view, and the edges keep the invariant. -/
theorem edges_refine (ps : List Pins) {s e : State} (hs : s.Inv) (he : e.ser.phase = .idle)
    (hv : eventView e = eventView s) :
    ∃ t u, clockEdges ps s = .next t ∧ t.Inv ∧ eventSteps (eventsOfEdges ps s) e = .next u ∧ u.ser.phase = .idle ∧
      eventView u = eventView t := by
  induction ps generalizing s e with
  | nil => exact ⟨s, e, rfl, hs, rfl, he, hv⟩
  | cons p ps ih =>
    obtain ⟨t, ht, hinv, -⟩ := clockEdge_next hs p
    obtain ⟨u, hu, hui, huv⟩ := edge_refines hs he hv ht
    obtain ⟨t', u', ht', hinv', hu', hrest⟩ := ih hinv hui huv
    refine ⟨t', u', by rw [clockEdges_cons ht, ht'], hinv', ?_, hrest⟩
    rw [eventsOfEdges_cons ht, eventSteps_append, hu, andThen_next, hu']

/-- Settles O55: `edges_refine`. -/
theorem cycleLevelRefinesEventLevel : Obligations.CycleLevelRefinesEventLevel := by
  intro ps s e hs _ he hv
  obtain ⟨t, u, ht, -, hu, hi, huv⟩ := edges_refine ps hs he hv
  exact ⟨t, u, ht, hu, hi, huv⟩

end Sys2Proof.Machine

/-!
PROOF of O28 to O31 and O42: runs of the serializer. `busyCycles` counts down edge by edge while a flush is on the line
(`busyRun`), and `idleFor` is the state after idle cycles (`quietRun`).
-/

namespace Sys2Proof.Machine

/-! ### The cycles a flush still takes (R112, R118) -/

/-- The cycles of the pulses after the one on the line. -/
abbrev laterCycles (s : State) : Nat := (((frameBits s).drop (bitIndex s + 1)).map (slot s.params)).sum

theorem busyCycles_idle {s : State} (h : s.ser.phase = .idle) : busyCycles s = 0 := by rw [busyCycles, h]

theorem busyCycles_high {s : State} (h : s.ser.phase = .high) :
    busyCycles s = s.ser.cyc + 1 + lowCycles s.params (currentBit s) + laterCycles s := by rw [busyCycles, h]

theorem busyCycles_low {s : State} (h : s.ser.phase = .low) : busyCycles s = s.ser.cyc + 1 + laterCycles s := by
  rw [busyCycles, h]

theorem busyCycles_pos {s : State} (h : s.busy = true) : 1 ≤ busyCycles s := by
  cases hph : s.ser.phase with
  | idle => exact absurd hph ((busy_iff s).1 h)
  | high => rw [busyCycles_high hph]; omega
  | low => rw [busyCycles_low hph]; omega

theorem busyCycles_eq_zero {s : State} : busyCycles s = 0 ↔ s.busy = false := by
  constructor
  · intro h
    by_contra hb
    have := busyCycles_pos (Bool.eq_true_of_not_eq_false hb)
    omega
  · exact fun h => busyCycles_idle (idle_of_not_busy h)

/-- The bits of the frame from the bit on the line on (R113). -/
theorem frameBits_drop_bitIndex {s : State} (hs : s.Inv) (hb : s.ser.phase ≠ .idle) :
    (frameBits s).drop (bitIndex s) = currentBit s :: (frameBits s).drop (bitIndex s + 1) := by
  obtain ⟨hlt, hget⟩ := List.getElem?_eq_some_iff.1 (frameBits_bitIndex (bitIndex_lt hs hb))
  rw [List.drop_eq_getElem_cons hlt, hget]

/-- The line of two states with the same parameters and frame, at the same bit. -/
theorem sameBit {s t : State} (hp : t.params = s.params) (hf : t.frame = s.frame) (ha : t.ser.bytePtr = s.ser.bytePtr)
    (hj : t.ser.bitPtr = s.ser.bitPtr) : currentBit t = currentBit s ∧ laterCycles t = laterCycles s := by
  simp only [currentBit, laterCycles, bitIndex, hp, hf, ha, hj, frameBits_congr hp hf, and_self]

/-- While a flush is on the line every edge takes one of its cycles (R117). -/
theorem busyCycles_edge {p : Pins} {s t : State} (hs : s.Inv) (hb : s.busy = true) (hr : p.rst = false)
    (h : clockEdge p s = .next t) : busyCycles t + 1 = busyCycles s := by
  have hph := (busy_iff s).1 hb
  obtain ⟨hinv, hp⟩ := inv_clockEdge hs h
  have hf : t.frame = s.frame := by rw [clockEdge_busy_rest hr hb h]
  have ⟨hok, _⟩ := hs
  cases clockEdge_line hs hr h with
  | idles hi => exact absurd hi hph
  | starts hi => exact absurd hi hph
  | counts _ hc hx =>
    obtain ⟨hbit, hlater⟩ := sameBit hp hf (by rw [hx]) (by rw [hx])
    have hcyc : t.ser.cyc = s.ser.cyc - 1 := by rw [hx]
    cases hph' : s.ser.phase with
    | idle => exact absurd hph' hph
    | high => rw [busyCycles_high hph', busyCycles_high (by rw [hx]; exact hph'), hp, hbit, hlater, hcyc]; omega
    | low => rw [busyCycles_low hph', busyCycles_low (by rw [hx]; exact hph'), hlater, hcyc]; omega
  | falls hh hc hx =>
    obtain ⟨-, hlater⟩ := sameBit hp hf (by rw [hx]) (by rw [hx])
    have hlow := lowCycles_bound hok (currentBit s)
    have hcyc : t.ser.cyc = lowCycles s.params (currentBit s) - 1 := by rw [hx]
    rw [busyCycles_high hh, busyCycles_low (by rw [hx]), hlater, hcyc, hc]
    omega
  | ends hl hc hlast hx =>
    have hnone : laterCycles s = 0 := by
      rw [laterCycles, hlast, List.drop_eq_nil_of_le (length_frameBits s).le]
      rfl
    rw [busyCycles_low hl, busyCycles_idle (by rw [hx]), hnone, hc]
  | rises hl hc _ hn hx =>
    have hhigh := highCycles_bound hok (currentBit t)
    have hcyc : t.ser.cyc = highCycles s.params (currentBit t) - 1 := by rw [hx]
    have hlater : laterCycles s = slot s.params (currentBit t) + laterCycles t := by
      have hdrop := frameBits_drop_bitIndex hinv (by rw [hx]; simp)
      rw [frameBits_congr hp hf, hn] at hdrop
      rw [laterCycles, hdrop, List.map_cons, List.sum_cons, laterCycles, frameBits_congr hp hf, hn, hp]
    rw [busyCycles_low hl, busyCycles_high (by rw [hx]), hlater, hcyc, hc, hp, slot]
    omega

/-- The gap count stays 0 through the last edge of a flush (R120). -/
theorem gapcnt_busyEdge {p : Pins} {s t : State} (hs : s.Inv) (hb : s.busy = true) (hr : p.rst = false)
    (h : clockEdge p s = .next t) : t.ser.gapcnt = 0 := by
  have hph := (busy_iff s).1 hb
  have hg := gapcnt_of_busy hs hph
  cases clockEdge_line hs hr h with
  | idles hi => exact absurd hi hph
  | starts hi => exact absurd hi hph
  | counts _ _ hx => rw [hx]; exact hg
  | falls _ _ hx => rw [hx]; exact hg
  | ends _ _ _ hx => rw [hx]
  | rises _ _ _ _ hx => rw [hx]

/-- The run of a flush: for as many cycles as it takes, whatever the pins bring but a reset. `P` is what the busy edges of
the run keep. -/
theorem busyRun {P : State → Prop} {ps : List Pins}
    (hP : ∀ (p : Pins) (s t : State), p ∈ ps → s.Inv → s.busy = true → clockEdge p s = .next t → P s → P t)
    (hr : ∀ x ∈ ps, x.rst = false) {s : State} (hs : s.Inv) (h0 : P s) (hlen : ps.length ≤ busyCycles s) :
    ∃ t, clockEdges ps s = .next t ∧ t.Inv ∧ busyCycles t + ps.length = busyCycles s ∧ P t := by
  induction ps generalizing s with
  | nil => exact ⟨s, rfl, hs, rfl, h0⟩
  | cons p ps ih =>
    rw [List.length_cons] at hlen
    obtain ⟨hrp, hr⟩ := List.forall_mem_cons.1 hr
    have hb : s.busy = true := by
      by_contra hb
      have := busyCycles_eq_zero.2 (Bool.eq_false_iff.2 hb)
      omega
    obtain ⟨t, ht, hinv, -⟩ := clockEdge_next hs p
    have hcyc := busyCycles_edge hs hb hrp ht
    obtain ⟨u, hu, huinv, hucyc, huP⟩ := ih (fun q a b hq => hP q a b (List.mem_cons_of_mem p hq)) hr hinv
      (hP p s t List.mem_cons_self hs hb ht h0) (by omega)
    exact ⟨u, by rw [clockEdges_cons ht, hu], huinv, by rw [List.length_cons]; omega, huP⟩

/-- A pulse takes at most two longest phases (R20, R112). -/
theorem slot_le {p : Params} (hp : p.ok) (b : Bool) : slot p b ≤ 2 * longestPhase p := by
  have hhigh := highCycles_bound hp b
  have hlow := lowCycles_bound hp b
  unfold slot
  omega

theorem laterCycles_le {s : State} (hs : s.Inv) :
    laterCycles s ≤ (24 * s.params.n - (bitIndex s + 1)) * (2 * longestPhase s.params) := by
  obtain ⟨hok, -⟩ := hs
  have hsum := List.sum_le_card_nsmul (((frameBits s).drop (bitIndex s + 1)).map (slot s.params))
    (2 * longestPhase s.params) fun x hx => by
      obtain ⟨b, -, rfl⟩ := List.mem_map.1 hx
      exact slot_le hok b
  rwa [List.length_map, List.length_drop, length_frameBits, smul_eq_mul] at hsum

/-- A flush takes at most two longest phases for each bit of the frame (R119). -/
theorem busyCycles_le {s : State} (hs : s.Inv) (hb : s.busy = true) :
    busyCycles s ≤ 24 * s.params.n * (2 * longestPhase s.params) := by
  have hlater := laterCycles_le hs
  have hbit := bitIndex_lt hs ((busy_iff s).1 hb)
  have ⟨hok, _, _, ⟨_, _, hcyc, _⟩, _⟩ := hs
  have hlow := lowCycles_bound hok (currentBit s)
  have hthis : busyCycles s ≤ 2 * longestPhase s.params + laterCycles s := by
    cases hph : s.ser.phase with
    | idle => exact absurd hph ((busy_iff s).1 hb)
    | high => rw [busyCycles_high hph]; omega
    | low => rw [busyCycles_low hph]; omega
  calc busyCycles s
      ≤ (24 * s.params.n - (bitIndex s + 1) + 1) * (2 * longestPhase s.params) := by rw [Nat.succ_mul]; omega
    _ ≤ 24 * s.params.n * (2 * longestPhase s.params) := Nat.mul_le_mul_right _ (by omega)

/-- Settles O30: the flush ends after exactly `busyCycles` edges. -/
theorem everyFlushEnds : Obligations.EveryFlushEnds := by
  refine fun s hs hb => ⟨busyCycles s, busyCycles_pos hb, busyCycles_le hs hb, fun ps hlen hr => ?_⟩
  obtain ⟨t, ht, -, hcyc, -⟩ := busyRun (P := fun _ => True) (fun _ _ _ _ _ _ _ _ => trivial) hr hs trivial hlen.le
  exact ⟨t, ht, busyCycles_eq_zero.1 (by omega)⟩

/-! ### From the accepting edge to the end of a flush -/

/-- The counter of a phase is below the length of this phase for the bit on the line (R117). -/
def PhaseOk (t : State) : Prop :=
  (t.ser.phase = .high → t.ser.cyc < highCycles t.params (currentBit t)) ∧
    (t.ser.phase = .low → t.ser.cyc < lowCycles t.params (currentBit t))

theorem phaseOk_edge {p : Pins} {s t : State} (hs : s.Inv) (hb : s.busy = true) (hr : p.rst = false)
    (h : clockEdge p s = .next t) (hok : PhaseOk s) : PhaseOk t := by
  have hph := (busy_iff s).1 hb
  obtain ⟨hhigh, hlow⟩ := hok
  obtain ⟨-, hp⟩ := inv_clockEdge hs h
  have hf : t.frame = s.frame := by rw [clockEdge_busy_rest hr hb h]
  have ⟨hparams, _⟩ := hs
  cases clockEdge_line hs hr h with
  | idles hi => exact absurd hi hph
  | starts hi => exact absurd hi hph
  | counts _ _ hx =>
    obtain ⟨hbit, -⟩ := sameBit hp hf (by rw [hx]) (by rw [hx])
    rw [PhaseOk, hp, hbit, hx]
    exact ⟨fun h => Nat.lt_of_le_of_lt (Nat.sub_le _ _) (hhigh h), fun h => Nat.lt_of_le_of_lt (Nat.sub_le _ _) (hlow h)⟩
  | falls _ _ hx =>
    obtain ⟨hbit, -⟩ := sameBit hp hf (by rw [hx]) (by rw [hx])
    have := lowCycles_bound hparams (currentBit s)
    rw [PhaseOk, hp, hbit, hx]
    exact ⟨fun h => (by cases h), fun _ => by show _ - 1 < _; omega⟩
  | ends _ _ _ hx =>
    rw [PhaseOk, hx]
    exact ⟨fun h => (by cases h), fun h => (by cases h)⟩
  | rises _ _ _ _ hx =>
    have := highCycles_bound hparams (currentBit t)
    have hcyc : t.ser.cyc = highCycles s.params (currentBit t) - 1 := by rw [hx]
    have hphase : t.ser.phase = .high := by rw [hx]
    exact ⟨fun _ => by rw [hcyc, hp]; omega, fun h => by rw [hphase] at h; cases h⟩

/-- The serializer's registers that a finished flush leaves (R117, log 14). -/
def flushedLine (p : Params) : Serializer where
  phase := .idle
  bytePtr := BitVec.ofNat 18 (3 * p.n - 1)
  bitPtr := 0
  cyc := 0
  gapcnt := 0
  dout := false

/-- A state in the course of a flush accepted in `s`, or at its end. -/
structure Sending (s t : State) : Prop where
  rest : t = { s with ser := t.ser, trace := t.trace, pres := t.pres, rspValid := false }
  emitted : t.trace ++ unsentSymbols t = s.trace ++ flushSymbols s
  phase : PhaseOk t
  gap : t.ser.gapcnt = 0
  done : t.ser.phase = .idle → t.ser = flushedLine s.params

theorem sending_edge {p : Pins} {s a b : State} (ha : a.Inv) (hb : a.busy = true) (hr : p.rst = false)
    (h : clockEdge p a = .next b) (hs : Sending s a) : Sending s b := by
  have hph := (busy_iff a).1 hb
  have hrest := clockEdge_busy_rest hr hb h
  obtain ⟨hsr, hemitted, hphase, -, -⟩ := hs
  have hp : a.params = s.params := by rw [hsr]
  refine ⟨?_, ?_, phaseOk_edge ha hb hr h hphase, gapcnt_busyEdge ha hb hr h, fun hi => ?_⟩
  · rw [hrest, hsr]
  · rw [← hemitted]
    exact congrArg EventView.trace (eventView_busyEdge ha hb hr h)
  · cases clockEdge_line ha hr h with
    | idles hi => exact absurd hi hph
    | starts hi => exact absurd hi hph
    | counts hb' _ hx => rw [hx] at hi; exact absurd hi hb'
    | falls _ _ hx => rw [hx] at hi; cases hi
    | ends _ hc hl hx =>
      obtain ⟨hbyte, hbit⟩ := pointers_of_lastBitIndex hl
      have hbyte' : a.ser.bytePtr = BitVec.ofNat 18 (3 * s.params.n - 1) := by
        rw [← hp, ← hbyte, BitVec.ofNat_toNat, BitVec.setWidth_eq]
      rw [hx, hbit, hc, hbyte', flushedLine]
    | rises _ _ _ _ hx => rw [hx] at hi; cases hi

/-- The state after the accepting edge is at the first bit, with the whole flush before it. -/
theorem sending_start {p : Pins} {s t : State} (hs : s.Inv) (hf : startsFlush p s = true) (h : clockEdge p s = .next t) :
    Sending s t ∧ busyCycles t = flushCycles s ∧ t.pres = presAfter p s := by
  obtain ⟨hinv, -⟩ := inv_clockEdge hs h
  have ⟨hok, _⟩ := hs
  obtain ⟨ha, -⟩ := startsFlush_iff.1 hf
  obtain ⟨-, hi, -⟩ := ready_of_accepts ha
  have hhigh := highCycles_bound hok ((s.frame.read 0).getLsbD 7)
  rw [clockEdge_starts hf (pos_of_inv hs)] at h
  cases h
  have hemitted := congrArg EventView.trace (eventView_startPulse (s := clearStrobe s) (e := s) hok hi hi rfl)
  refine ⟨⟨rfl, ?_, ⟨fun _ => ?_, fun h => (by cases h)⟩, rfl, fun h => (by cases h)⟩, ?_, rfl⟩
  · refine hemitted.symm.trans ?_
    rw [eventView_idle_trace (s := flushWhole s) rfl, flushWhole_trace]
  · show highCycles s.params ((s.frame.read 0).getLsbD 7) - 1 < highCycles s.params ((s.frame.read 0).getLsbD 7)
    omega
  · have hdrop := frameBits_drop_bitIndex hinv (fun h => (by cases h))
    have hbits : frameBits s = (s.frame.read 0).getLsbD 7 :: (frameBits s).drop 1 := hdrop
    rw [busyCycles_high rfl]
    show highCycles s.params ((s.frame.read 0).getLsbD 7) - 1 + 1 + lowCycles s.params ((s.frame.read 0).getLsbD 7) +
      (((frameBits s).drop 1).map (slot s.params)).sum = _
    rw [flushCycles]
    conv_rhs => rw [hbits]
    rw [List.map_cons, List.sum_cons, slot]
    omega

/-- The accepting edge and at most `O_end` edges after it. -/
theorem sendingRun {p : Pins} {ps : List Pins} {s : State} (hs : s.Inv) (hf : startsFlush p s = true)
    (hr : ∀ x ∈ ps, x.rst = false) (hlen : ps.length ≤ flushCycles s) :
    ∃ t, clockEdges (p :: ps) s = .next t ∧ t.Inv ∧ busyCycles t + ps.length = flushCycles s ∧ Sending s t := by
  obtain ⟨t0, h0, hinv0, -⟩ := clockEdge_next hs p
  obtain ⟨hsend, hcyc, -⟩ := sending_start hs hf h0
  rw [← hcyc] at hlen ⊢
  rw [clockEdges_cons h0]
  exact busyRun (fun q a b hq ha hb => sending_edge ha hb (hr q hq)) hr hinv0 hsend hlen

/-! ### The waveform (R115) -/

theorem flushCycles_bounds (s : State) :
    24 * s.params.n * min (slot s.params false) (slot s.params true) ≤ flushCycles s ∧
      flushCycles s ≤ 24 * s.params.n * max (slot s.params false) (slot s.params true) := by
  have hle := List.card_nsmul_le_sum ((frameBits s).map (slot s.params))
    (min (slot s.params false) (slot s.params true)) fun x hx => by
      obtain ⟨b, -, rfl⟩ := List.mem_map.1 hx
      cases b <;> omega
  have hge := List.sum_le_card_nsmul ((frameBits s).map (slot s.params))
    (max (slot s.params false) (slot s.params true)) fun x hx => by
      obtain ⟨b, -, rfl⟩ := List.mem_map.1 hx
      cases b <;> omega
  rw [List.length_map, length_frameBits, smul_eq_mul] at hle hge
  exact ⟨hle, hge⟩

theorem pulseOffset_succ {s : State} {j : Nat} {b : Bool} (h : (frameBits s)[j]? = some b) :
    pulseOffset s (j + 1) = pulseOffset s j + slot s.params b := by
  rw [pulseOffset, List.take_add_one, h, List.map_append, List.sum_append, Option.toList_some, List.map_singleton,
    List.sum_singleton]

theorem pulseOffset_mono (s : State) : Monotone (pulseOffset s) :=
  monotone_nat_of_le_succ fun j => by
    rw [pulseOffset, pulseOffset, List.take_add_one, List.map_append, List.sum_append]
    omega

/-- The pulses before the bit on the line, its own and the later ones make up the flush. -/
theorem flushCycles_split {t : State} (ht : t.Inv) (hb : t.ser.phase ≠ .idle) :
    flushCycles t = pulseOffset t (bitIndex t) + slot t.params (currentBit t) + laterCycles t := by
  have hsplit := congrArg (fun l => (l.map (slot t.params)).sum) (List.take_append_drop (bitIndex t) (frameBits t))
  simp only [List.map_append, List.sum_append, frameBits_drop_bitIndex ht hb, List.map_cons, List.sum_cons] at hsplit
  rw [flushCycles, ← hsplit, Nat.add_assoc]

/-- With `k` cycles of a flush gone by, its bit's pulse covers cycle `k`: the high phase where `DOUT` is high, the low phase
where it is low. -/
theorem phase_covers {t : State} (ht : t.Inv) (hok : PhaseOk t) (hb : t.ser.phase ≠ .idle) {k : Nat}
    (hk : busyCycles t + k = flushCycles t) :
    (t.ser.phase = .high ∧ pulseOffset t (bitIndex t) ≤ k ∧
      k < pulseOffset t (bitIndex t) + highCycles t.params (currentBit t)) ∨
    (t.ser.phase = .low ∧ pulseOffset t (bitIndex t) + highCycles t.params (currentBit t) ≤ k ∧
      k < pulseOffset t (bitIndex t + 1)) := by
  obtain ⟨hhigh, hlow⟩ := hok
  have hsplit := flushCycles_split ht hb
  have hsucc := pulseOffset_succ (frameBits_bitIndex (bitIndex_lt ht hb))
  rw [slot] at hsplit hsucc
  cases hph : t.ser.phase with
  | idle => exact absurd hph hb
  | high =>
    have hc := hhigh hph
    rw [busyCycles_high hph] at hk
    exact .inl ⟨rfl, by omega, by omega⟩
  | low =>
    have hc := hlow hph
    rw [busyCycles_low hph] at hk
    exact .inr ⟨rfl, by omega, by omega⟩

/-- `DOUT` is 1 exactly inside a high phase of the closed form (R115). -/
theorem dout_iff {t : State} (ht : t.Inv) (hok : PhaseOk t) (hb : t.ser.phase ≠ .idle) {k : Nat}
    (hk : busyCycles t + k = flushCycles t) : t.ser.dout = true ↔
      ∃ j b, (frameBits t)[j]? = some b ∧ pulseOffset t j ≤ k ∧ k < pulseOffset t j + highCycles t.params b := by
  have hget := frameBits_bitIndex (bitIndex_lt ht hb)
  have ⟨_, _, _, ⟨hdout, _⟩, _⟩ := ht
  obtain ⟨hph, hle, hlt⟩ | ⟨hph, hle, hlt⟩ := phase_covers ht hok hb hk
  · exact iff_of_true (hdout.2 hph) ⟨_, _, hget, hle, hlt⟩
  · refine iff_of_false (fun h => by rw [hdout.1 h] at hph; cases hph) ?_
    rintro ⟨j, b, hj, hjle, hjlt⟩
    rcases lt_trichotomy j (bitIndex t) with hlt' | rfl | hgt
    · have hnext := pulseOffset_mono t (show j + 1 ≤ bitIndex t by omega)
      rw [pulseOffset_succ hj, slot] at hnext
      omega
    · rw [hget] at hj
      cases hj
      omega
    · have hnext := pulseOffset_mono t (show bitIndex t + 1 ≤ j by omega)
      omega

/-- The line is low outside a flush (R47). -/
theorem dout_of_idle {s : State} (hs : s.Inv) (hi : s.ser.phase = .idle) : s.ser.dout = false := by
  obtain ⟨-, -, -, ⟨hdout, -⟩, -⟩ := hs
  exact Bool.eq_false_iff.2 fun h => by rw [hdout.1 h] at hi; cases hi

/-- Settles O28: the run is `sendingRun`, and `dout_iff` reads the pulse that covers the cycle. -/
theorem flushWaveformInClosedForm : Obligations.FlushWaveformInClosedForm := by
  intro s p ps hs hacc hr hlen
  refine ⟨?_, flushCycles_bounds s⟩
  obtain ⟨t, ht, hinv, hcyc, hrest, hemitted, hphase, hgap, -⟩ := sendingRun hs (startsFlush_iff.2 hacc) hr hlen
  have hp : t.params = s.params := by rw [hrest]
  have hf : t.frame = s.frame := by rw [hrest]
  have hfault : t.fault = .clear := by
    obtain ⟨-, -, hclear⟩ := ready_of_accepts hacc.1
    rw [hrest, hclear]
  have hbits := frameBits_congr hp hf
  have hall : flushCycles t = flushCycles s := by rw [flushCycles, flushCycles, hbits, hp]
  refine ⟨t, ht, hf, fun hlt => ?_, fun heq => ?_⟩
  · have hb : t.busy = true := by
      by_contra hb
      have := busyCycles_eq_zero.2 (Bool.eq_false_iff.2 hb)
      omega
    have hdout := dout_iff hinv hphase ((busy_iff t).1 hb) (hcyc.trans hall.symm)
    simp only [pulseOffset, hbits, hp] at hdout
    exact ⟨hb, cmdReady_of_busy hb, hdout⟩
  · have hb : t.busy = false := busyCycles_eq_zero.1 (by omega)
    have hi := idle_of_not_busy hb
    rw [unsentSymbols_idle hi, List.append_nil] at hemitted
    exact ⟨hb, (cmdReady_iff t).2 ⟨hfault, hi⟩, dout_of_idle hinv hi, hgap, hemitted⟩

/-- Settles O29: idle pins leave the presence registers, and `Sending` gives the line at the end. -/
theorem flushRunIsTheWholeFlush : Obligations.FlushRunIsTheWholeFlush := by
  intro s hs hk
  have hf : startsFlush (Pins.present (encode .flush)) s = true := startsFlush_iff.2 ⟨accepts_iff.2 ⟨rfl, hk, rfl⟩, rfl⟩
  obtain ⟨t0, h0, hinv0, -⟩ := clockEdge_next hs (Pins.present (encode .flush))
  obtain ⟨hsend, hcyc, hpres⟩ := sending_start hs hf h0
  have hidle : ∀ x ∈ List.replicate (flushCycles s) Pins.idle, x = Pins.idle := fun x => List.eq_of_mem_replicate
  obtain ⟨t, ht, -, htcyc, ⟨hrest, hemitted, -, -, hdone⟩, htpres⟩ := busyRun
    (P := fun t => Sending s t ∧ t.pres = s.pres) (ps := List.replicate (flushCycles s) Pins.idle)
    (fun q a b hq ha hb hab hP => by
      obtain rfl := hidle q hq
      exact ⟨sending_edge ha hb rfl hab hP.1, by rw [clockEdge_busy_rest rfl hb hab]; exact hP.2⟩)
    (fun x hx => by rw [hidle x hx]; rfl) hinv0 ⟨hsend, hpres⟩ (by rw [List.length_replicate, hcyc])
  have hi : t.ser.phase = .idle := idle_of_not_busy (busyCycles_eq_zero.1 (by rw [List.length_replicate] at htcyc; omega))
  rw [unsentSymbols_idle hi, List.append_nil] at hemitted
  rw [clockEdges_cons h0, ht, hrest, hdone hi, hemitted, htpres]
  rfl

/-! ### Idle cycles (R33, R120) -/

/-- The state after idle cycles without an accepted command: the gap count, its one `RST`, and the ticks. -/
def idleFor (ps : List Pins) (s : State) : State :=
  { s with
    ser := { s.ser with gapcnt := min (s.ser.gapcnt + ps.length) s.params.resetCyc }
    trace := s.trace ++
      (if s.ser.gapcnt < s.params.resetCyc ∧ s.params.resetCyc ≤ s.ser.gapcnt + ps.length then [.RST] else [])
    pres := ticksOf s.params s.pflag ps s.pres
    rspValid := s.rspValid && ps.isEmpty }

theorem idleFor_nil {s : State} (hs : s.Inv) : idleFor [] s = s := by
  have hgap := gapcnt_le hs
  have hn : ¬ (s.ser.gapcnt < s.params.resetCyc ∧ s.params.resetCyc ≤ s.ser.gapcnt) := by omega
  simp only [idleFor, List.length_nil, Nat.add_zero, if_neg hn, Nat.min_eq_left hgap, List.append_nil, ticksOf,
    List.isEmpty_nil, Bool.and_true]

/-- One idle edge (R117). -/
theorem clockEdge_idleFor {p : Pins} {s : State} (hs : s.Inv) (hi : s.ser.phase = .idle) (hr : p.rst = false)
    (ha : accepts p s = false) : clockEdge p s = .next (idleFor [p] s) := by
  have hgap := gapcnt_le hs
  have hf : startsFlush p s = false := by simp [startsFlush, ha]
  obtain ⟨hser, htrace⟩ := idleEdge_line (s := clearStrobe s) hgap
  have hsyms : gapSymbols (clearStrobe s) =
      if s.ser.gapcnt < s.params.resetCyc ∧ s.params.resetCyc ≤ s.ser.gapcnt + 1 then [.RST] else [] := by
    refine if_congr ?_ rfl rfl
    show s.ser.gapcnt + 1 = s.params.resetCyc ↔ _
    omega
  rw [clockEdge_quiet hr hi hf, portEffect_rejects ha, idleEdge_frame, hser, htrace, hsyms, idleFor]
  simp only [clearStrobe, List.length_singleton, ticksOf, List.isEmpty_cons, Bool.and_false, dout_of_idle hs hi]

theorem idleFor_cons (p : Pins) (ps : List Pins) (s : State) : idleFor ps (idleFor [p] s) = idleFor (p :: ps) s := by
  have hcount : min (min (s.ser.gapcnt + 1) s.params.resetCyc + ps.length) s.params.resetCyc =
      min (s.ser.gapcnt + (ps.length + 1)) s.params.resetCyc := by omega
  have hsyms : (if s.ser.gapcnt < s.params.resetCyc ∧ s.params.resetCyc ≤ s.ser.gapcnt + 1 then [Symbol.RST] else []) ++
      (if min (s.ser.gapcnt + 1) s.params.resetCyc < s.params.resetCyc ∧
        s.params.resetCyc ≤ min (s.ser.gapcnt + 1) s.params.resetCyc + ps.length then [.RST] else []) =
      if s.ser.gapcnt < s.params.resetCyc ∧ s.params.resetCyc ≤ s.ser.gapcnt + (ps.length + 1) then [.RST] else [] := by
    by_cases hend : s.ser.gapcnt < s.params.resetCyc ∧ s.params.resetCyc ≤ s.ser.gapcnt + 1
    · rw [if_pos hend, if_neg (by omega), if_pos (by omega), List.append_nil]
    · rw [if_neg hend, List.nil_append]
      exact if_congr (by omega) rfl rfl
  simp only [idleFor, List.length_cons, List.length_nil, Nat.zero_add, hcount, List.append_assoc, hsyms, ticksOf,
    List.isEmpty_cons, Bool.and_false, Bool.false_and]

/-- A run of idle cycles in which no command can be accepted. -/
theorem quietRun {ps : List Pins} {s : State} (hs : s.Inv) (hi : s.ser.phase = .idle)
    (hq : ∀ x ∈ ps, x.rst = false ∧ (x.cmdValid = false ∨ s.fault ≠ .clear)) :
    clockEdges ps s = .next (idleFor ps s) := by
  induction ps generalizing s with
  | nil => rw [idleFor_nil hs]; rfl
  | cons p ps ih =>
    obtain ⟨⟨hr, hp⟩, hq⟩ := List.forall_mem_cons.1 hq
    have ha : accepts p s = false := by
      obtain h | h := hp
      · simp [accepts, h]
      · simp [accepts, State.cmdReady, h]
    have hedge := clockEdge_idleFor hs hi hr ha
    rw [clockEdges_cons hedge, ih (inv_clockEdge hs hedge).1 hi hq, idleFor_cons]

/-- Settles O31: the run is `quietRun`, and `LATCHED` compares its gap count. -/
theorem idleCyclesMeasureTheGap : Obligations.IdleCyclesMeasureTheGap := by
  intro s ps hs hb hq
  have hi := idle_of_not_busy hb
  have hlatched : (idleFor ps s).latched = true ↔ s.params.resetCyc ≤ s.ser.gapcnt + ps.length := by
    rw [latched_iff]
    show s.params.resetCyc ≤ min _ _ ↔ _
    omega
  refine ⟨_, quietRun hs hi fun x hx => ⟨(hq x hx).1, .inl (hq x hx).2⟩, dout_of_idle (s := s) hs hi, hb, rfl, hlatched, ?_⟩
  refine congrArg (s.trace ++ ·) (if_congr ?_ rfl rfl)
  rw [hlatched, State.latched, decide_eq_false_iff_not, Nat.not_le]

/-- Settles O42: with `FAULT` set no word is accepted, so every cycle without reset is an idle one. -/
theorem faultFreezesTheCommandPort : Obligations.FaultFreezesTheCommandPort := by
  intro s ps hs hfault hr
  have ⟨_, _, _, _, _, _, hidle⟩ := hs
  have hi := hidle hfault
  refine ⟨_, quietRun hs hi fun x hx => ⟨hr x hx, .inr hfault⟩, ?_, rfl, rfl, rfl, rfl, rfl, ?_,
    dout_of_idle (s := s) hs hi, rfl, rfl⟩
  · exact Bool.eq_false_iff.2 fun hk => hfault ((cmdReady_iff _).1 hk).1
  · simp [State.busy, idleFor, hi]

end Sys2Proof.Machine

/-!
PROOF of O33, O36 and O37: the presence unit. The transition table is the lemmas of the tick case by case; the session of R150 and
R161 is a second state the registers follow tick by tick; the grace window is an induction on the absent ticks.
-/

namespace Sys2Proof.Machine

/-! ### The transition table (R148) -/

/-- Settles O33: each row is the lemma of its case of the tick. -/
theorem presenceTransitionTable : Obligations.PresenceTransitionTable := by
  intro p q hp hq
  obtain ⟨-, -, -, -, -, ⟨htps, -⟩, -⟩ := hp
  obtain ⟨habsent, hpresent, -, -, -, -, -⟩ := hq
  have session {m : PresenceMode} (hm : q.mode = m) (hne : m ≠ .absent) : tickPresence p false q = graceTick p q :=
    tickPresence_session p (hm ▸ hne)
  refine ⟨tickPresence_absent p, fun hm => ?_, fun hm => ?_, fun hm hlt => ?_, fun hm h1 => ?_, fun _ => rfl,
    fun hm hlt => ?_, fun hm heq => ?_⟩
  · rw [habsent hm, tickPresence_true, presentTick, countTick, if_neg]
    · rfl
    · show 0 ≠ p.tps - 1
      omega
  · have hg := hpresent hm
    rw [tickPresence_present hm hg, countTick_mode, countTick_grace]
    exact ⟨hm, hg, rfl⟩
  · have hg := hpresent hm
    rw [session hm (by simp), graceTick_goesOn (by rw [hg]; exact hlt), hg]
    rfl
  · rw [session hm (by simp), graceTick_ends (by omega)]
  · rw [session hm (by simp), graceTick_goesOn hlt, ← hm]
  · rw [session hm (by simp), graceTick_ends (by omega)]

/-! ### The session (R150, R161, R162) -/

/-- The registers hold the session: its mode, its counted ticks as a mixed-radix number, its consecutive absent ticks. -/
structure HoldsSession (p : Params) (x : Session) (q : Presence) : Prop where
  off : x.on = false → x = ⟨0, 0, false⟩
  mode : q.mode = if x.on = false then .absent else if x.missed = 0 then .present else .grace
  grace : q.grace.toNat = x.missed
  subtick : q.subtick.toNat = x.counted % p.tps
  seconds : q.seconds.toNat = (x.counted / p.tps) % 60
  minutes : q.minutes.toNat = (x.counted / (60 * p.tps)) % 60

theorem holdsSession_reset (p : Params) : HoldsSession p ⟨0, 0, false⟩ .reset :=
  ⟨fun _ => rfl, rfl, rfl, (Nat.zero_mod _).symm, by rw [Nat.zero_div]; rfl, by rw [Nat.zero_div]; rfl⟩

/-- One more, by quotient and remainder. -/
theorem succ_div_mod (c : Nat) {m : Nat} (hm : 0 < m) : (c + 1) / m = (if c % m = m - 1 then c / m + 1 else c / m) ∧
    (c + 1) % m = (if c % m = m - 1 then 0 else c % m + 1) := by
  have hlt := Nat.mod_lt c hm
  have hc := Nat.mod_add_div c m
  refine (Nat.div_mod_unique hm).2 ?_
  split
  case isTrue h => rw [Nat.mul_succ]; omega
  case isFalse h => omega

/-- One counted tick more: the carries of R142 are those of the number of counted ticks (R161). -/
theorem counted_succ (c : Nat) {m : Nat} (hm : 0 < m) :
    (if c % m = m - 1 then 0 else c % m + 1) = (c + 1) % m ∧
    (if c % m = m - 1 then (if c / m % 60 = 59 then 0 else c / m % 60 + 1) else c / m % 60) = (c + 1) / m % 60 ∧
    (if c % m = m - 1 ∧ c / m % 60 = 59 then (if c / (60 * m) % 60 = 59 then 0 else c / (60 * m) % 60 + 1)
      else c / (60 * m) % 60) = (c + 1) / (60 * m) % 60 := by
  obtain ⟨hdiv, hmod⟩ := succ_div_mod c hm
  rw [Nat.mul_comm 60 m, ← Nat.div_div_eq_div_mul, ← Nat.div_div_eq_div_mul, hdiv, hmod]
  by_cases h : c % m = m - 1
  · simp only [h, if_true, true_and]
    exact ⟨by split <;> omega, by split_ifs <;> omega⟩
  · simp only [h, if_false, false_and, and_self]

/-- A counted tick of the session (R161). -/
theorem holdsSession_present {p : Params} (hp : p.ok) {x : Session} {q : Presence} (h : HoldsSession p x q) :
    HoldsSession p ⟨x.counted + 1, 0, true⟩ (presentTick p q) := by
  obtain ⟨-, -, -, -, -, ⟨ht2, ht255⟩, -⟩ := hp
  obtain ⟨-, -, -, hsub, hsec, hmin⟩ := h
  have hm : 0 < p.tps := by omega
  have hcount := countTick_toNat (q := { q with mode := .present, grace := 0 }) ⟨hm, ht255⟩
    (by rw [hsub]; exact Nat.mod_lt _ hm) (by rw [hsec]; omega) (by rw [hmin]; omega)
  simp only [hsub, hsec, hmin] at hcount
  obtain ⟨hsub', hsec', hmin'⟩ := counted_succ x.counted hm
  obtain ⟨csub, csec, cmin⟩ := hcount
  exact ⟨fun h => (by cases h), presentTick_mode p q, by rw [presentTick_grace]; rfl, csub.trans hsub', csec.trans hsec',
    cmin.trans hmin'⟩

/-- The registers follow the session tick by tick (R161, R162). -/
theorem holdsSession_tick {p : Params} (hp : p.ok) {x : Session} {q : Presence} (h : HoldsSession p x q) (f : Bool) :
    HoldsSession p (sessionTick p.graceTicks x f) (tickPresence p f q) := by
  have ⟨_, _, _, _, _, _, ⟨_, hg255⟩, _⟩ := hp
  have ⟨hoff, hmode, hgrace, hsub, hsec, hmin⟩ := h
  cases f with
  | true => exact holdsSession_present hp h
  | false =>
    cases hon : x.on with
    | false =>
      have hm : q.mode = .absent := by rw [hmode, hon]; rfl
      rw [tickPresence_absent p hm, sessionTick, hon]
      simpa [hoff hon] using h
    | true =>
      have hm : q.mode ≠ .absent := by
        rw [hmode, hon, if_neg (by simp)]
        split <;> simp
      rw [tickPresence_session p hm, sessionTick, hon]
      rcases Nat.lt_or_ge (x.missed + 1) p.graceTicks with hlt | hge
      · have hnext : (q.grace + 1).toNat = x.missed + 1 := by rw [succ8_toNat (by omega), hgrace]
        rw [graceTick_goesOn (by omega), if_neg (by simp), if_pos ⟨rfl, hlt⟩]
        exact ⟨fun h => (by cases h), rfl, hnext, hsub, hsec, hmin⟩
      · rw [graceTick_ends (by omega), if_neg (by simp), if_neg (by omega)]
        exact holdsSession_reset p

/-- `SETPRES` and a tick at the event level: the tick reads the flag just written (R141, R151). -/
theorem eventSteps_setpres_tick {s : State} (hk : s.cmdReady = true) (f : Bool) :
    eventSteps [.cmd (encode (.setpres f)), .tick] s =
      .next { s with pflag := f, rspValid := false, pres := tickPresence s.params f s.pres } := by
  have hd := decodeEncodeGivesEveryInstr (.setpres f)
  rw [eventSteps, eventStep_cmd hk, andThen_next, wholeEffect_word (by rw [hd]; simp), wordEffect_ok hd, eventSteps,
    eventStep, andThen_next, eventSteps]
  rfl

theorem flagScript_cons (f : Bool) (fs : List Bool) :
    flagScript (f :: fs) = [.cmd (encode (.setpres f)), .tick] ++ flagScript fs := rfl

/-- The script of R161 from any ready state whose registers hold a session. -/
theorem flagScript_holdsSession (flags : List Bool) {s : State} {x : Session} (hp : s.params.ok) (hk : s.cmdReady = true)
    (hx : HoldsSession s.params x s.pres) :
    ∃ t, eventSteps (flagScript flags) s = .next t ∧
      HoldsSession s.params (flags.foldl (sessionTick s.params.graceTicks) x) t.pres := by
  induction flags generalizing s x with
  | nil => exact ⟨s, rfl, hx⟩
  | cons f fs ih =>
    obtain ⟨t, ht, hsession⟩ := ih (s := { s with pflag := f, rspValid := false, pres := tickPresence s.params f s.pres })
      hp hk (holdsSession_tick hp hx f)
    exact ⟨t, by rw [flagScript_cons, eventSteps_append, eventSteps_setpres_tick hk, andThen_next, ht], hsession⟩

/-- Settles O36: the registers after reset hold the session that has not begun. -/
theorem presenceRefinesTheSession : Obligations.PresenceRefinesTheSession := by
  intro p flags hp
  obtain ⟨t, ht, -, hmode, hgrace, hsub, hsec, hmin⟩ :=
    flagScript_holdsSession flags (s := State.resetWith p) hp rfl (holdsSession_reset p)
  exact ⟨t, ht, hmode, hgrace, hsub, hsec, hmin⟩

/-! ### The grace window (R150, R162) -/

/-- The ticks of `holdFlag`, the last one last. -/
theorem holdFlag_succ (p : Params) (f : Bool) (n : Nat) (q : Presence) :
    holdFlag p f (n + 1) q = tickPresence p f (holdFlag p f n q) := by
  induction n generalizing q with
  | zero => rfl
  | succ n ih => rw [holdFlag, ih, holdFlag]

/-- Absent ticks within the grace window count in `GRACE` and change nothing else. -/
theorem holdFlag_grace {p : Params} (hp : p.ok) {q : Presence} (hm : q.mode = .present) (hg : q.grace = 0) {n : Nat}
    (hn : n + 1 < p.graceTicks) :
    holdFlag p false (n + 1) q = { q with mode := .grace, grace := BitVec.ofNat 8 (n + 1) } := by
  have ⟨_, _, _, _, _, _, ⟨_, hg255⟩, _⟩ := hp
  induction n with
  | zero =>
    rw [holdFlag_succ, holdFlag, tickPresence_session p (by rw [hm]; simp), graceTick_goesOn (by rw [hg]; exact hn), hg]
    rfl
  | succ n ih =>
    have hnat : (BitVec.ofNat 8 (n + 1)).toNat = n + 1 := toNat_ofNat_of_lt (by omega)
    rw [holdFlag_succ, ih (by omega), tickPresence_session p (by simp), graceTick_goesOn (by rw [hnat]; exact hn)]
    simp only [Presence.mk.injEq, true_and]
    refine BitVec.eq_of_toNat_eq ?_
    rw [succ8_toNat (by omega), hnat, toNat_ofNat_of_lt (by omega)]

/-- The `GRACE_TICKS`-th absent tick ends the session. -/
theorem holdFlag_ends {p : Params} (hp : p.ok) {q : Presence} (hm : q.mode = .present) (hg : q.grace = 0) :
    holdFlag p false p.graceTicks q = .reset := by
  have ⟨_, _, _, _, _, _, ⟨hg1, hg255⟩, _⟩ := hp
  obtain ⟨n, hn⟩ : ∃ n, p.graceTicks = n + 1 := ⟨p.graceTicks - 1, by omega⟩
  rw [hn, holdFlag_succ]
  cases n with
  | zero => rw [holdFlag, tickPresence_session p (by rw [hm]; simp), graceTick_ends (by omega)]
  | succ n =>
    have hnat : (BitVec.ofNat 8 (n + 1)).toNat = n + 1 := toNat_ofNat_of_lt (by omega)
    rw [holdFlag_grace hp hm hg (by omega), tickPresence_session p (by simp), graceTick_ends (by rw [hnat]; omega)]

/-- Once ended, the session stays ended: absent ticks in `ABSENT` are no-ops (R147). -/
theorem holdFlag_ended {p : Params} (hp : p.ok) {q : Presence} (hm : q.mode = .present) (hg : q.grace = 0) (k : Nat) :
    holdFlag p false (p.graceTicks + k) q = .reset := by
  induction k with
  | zero => exact holdFlag_ends hp hm hg
  | succ k ih => rw [← Nat.add_assoc, holdFlag_succ, ih]; rfl

/-- Settles O37: inside the window `holdFlag_grace`, past it `holdFlag_ended`. -/
theorem graceWindowAbsorbsShortAbsences : Obligations.GraceWindowAbsorbsShortAbsences := by
  intro p q n hp hq hm
  obtain ⟨-, hpresent, -⟩ := hq
  have hg := hpresent hm
  refine ⟨fun h1 hlt => ?_, fun hge => ?_⟩
  · obtain ⟨k, rfl⟩ : ∃ k, n = k + 1 := ⟨n - 1, by omega⟩
    have hhold := holdFlag_grace hp hm hg hlt
    refine ⟨hhold, ?_⟩
    rw [hhold, tickPresence_true, presentTick, ← hm, ← hg]
  · rw [← Nat.add_sub_cancel' hge]
    exact holdFlag_ended hp hm hg _

end Sys2Proof.Machine

/-!
PROOF of O56 to O58: the cycle level can follow the event level (R124). A run whose edges stand for given steps ends in the view
those steps leave (`edges_refine`), so O56 and O57 are about choosing the cycles: wait for a flush to end, wait for the gap, or one
edge with the step on its pins. O58 follows an event-level run whatever its gaps, with `MatchesUpToGap` between the levels.
-/

namespace Sys2Proof.Machine

/-! ### Runs of edges and their steps -/

theorem inv_clockEdges {ps : List Pins} {s t : State} (hs : s.Inv) (h : clockEdges ps s = .next t) : t.Inv := by
  induction ps generalizing s with
  | nil => cases h; exact hs
  | cons p ps ih =>
    obtain ⟨u, hu, hinv, -⟩ := clockEdge_next hs p
    rw [clockEdges_cons hu] at h
    exact ih hinv h

theorem clockEdges_append_next {ps qs : List Pins} {s t : State} (h : clockEdges ps s = .next t) :
    clockEdges (ps ++ qs) s = clockEdges qs t := by rw [clockEdges_append, h, andThen_next]

theorem eventsOfEdges_append {ps qs : List Pins} {s t : State} (hs : s.Inv) (h : clockEdges ps s = .next t) :
    eventsOfEdges (ps ++ qs) s = eventsOfEdges ps s ++ eventsOfEdges qs t := by
  induction ps generalizing s with
  | nil => cases h; rfl
  | cons p ps ih =>
    obtain ⟨u, hu, hinv, -⟩ := clockEdge_next hs p
    rw [clockEdges_cons hu] at h
    rw [List.cons_append, eventsOfEdges_cons hu, eventsOfEdges_cons hu, ih hinv h, List.append_assoc]

theorem clockEdges_singleton (p : Pins) (s : State) : clockEdges [p] s = clockEdge p s := by
  rw [clockEdges]
  cases h : clockEdge p s <;> rfl

theorem eventsOfEdges_singleton {p : Pins} {s : State} (hs : s.Inv) : eventsOfEdges [p] s = eventsOfEdge p s := by
  obtain ⟨t, ht, -⟩ := clockEdge_next hs p
  rw [eventsOfEdges_cons ht]
  exact List.append_nil _

/-- A script's first step, where the script answers. -/
theorem eventSteps_cons_next {v : Event} {es : List Event} {e t : State} (h : eventSteps (v :: es) e = .next t) :
    ∃ u, eventStep v e = .next u ∧ eventSteps es u = .next t := by
  rw [eventSteps] at h
  exact andThen_eq_next.1 h

/-! ### Pins that put one step on an edge -/

/-- The pins with which the host, the tick source or the reset source puts a step on an edge; `LATCH` takes none. -/
def eventPins : Event → Pins
  | .cmd w => .present w
  | .tick => { Pins.idle with tick := true }
  | .latch => .idle
  | .reset => { Pins.idle with rst := true }

theorem accepts_of_not_valid {p : Pins} (h : p.cmdValid = false) (s : State) : accepts p s = false := by simp [accepts, h]

theorem portEvents_idle (s : State) : portEvents .idle s = [] := by
  rw [portEvents, accepts_of_not_valid rfl s]
  simp [Pins.idle]

theorem portEvents_tick (s : State) : portEvents (eventPins .tick) s = [.tick] := by
  rw [portEvents, accepts_of_not_valid (p := eventPins .tick) rfl s]
  simp [eventPins]

theorem accepts_cmd {s : State} (hk : s.cmdReady = true) (w : CmdWord) : accepts (eventPins (.cmd w)) s = true :=
  accepts_iff.2 ⟨rfl, hk, rfl⟩

theorem portEvents_cmd {s : State} (hk : s.cmdReady = true) (w : CmdWord) : portEvents (eventPins (.cmd w)) s = [.cmd w] := by
  rw [portEvents, accepts_cmd hk w]
  simp [eventPins, Pins.present, Pins.idle]

theorem startsFlush_of_not_valid {p : Pins} (h : p.cmdValid = false) (s : State) : startsFlush p s = false := by
  simp [startsFlush, accepts_of_not_valid h]

theorem startsFlush_cmd {s : State} {w : CmdWord} (hw : decode w ≠ .ok .flush) : startsFlush (eventPins (.cmd w)) s = false :=
  Bool.eq_false_iff.2 fun h => hw (startsFlush_iff.1 h).2

/-- A step of the event level that is a command is one in a ready block. -/
theorem cmdReady_of_eventStep {w : CmdWord} {e t : State} (h : eventStep (.cmd w) e = .next t) : e.cmdReady = true := by
  by_contra hk
  rw [eventStep_notReady (Bool.eq_false_iff.2 hk)] at h
  cases h

theorem latchEnabled_of_eventStep {e t : State} (h : eventStep .latch e = .next t) : latchEnabled e = true := by
  by_contra hl
  rw [eventStep, if_neg hl] at h
  cases h

/-! ### Waiting -/

/-- A flush that is on the line ends with idle cycles that stand for no step. -/
theorem waitFlush {s : State} (hs : s.Inv) : ∃ t, clockEdges (List.replicate (busyCycles s) .idle) s = .next t ∧
    eventsOfEdges (List.replicate (busyCycles s) .idle) s = [] ∧ t.ser.phase = .idle ∧ t.ser.gapcnt = s.ser.gapcnt := by
  induction hn : busyCycles s generalizing s with
  | zero => exact ⟨s, rfl, rfl, idle_of_not_busy (busyCycles_eq_zero.1 hn), rfl⟩
  | succ n ih =>
    have hb : s.busy = true := by
      by_contra hb
      have := busyCycles_eq_zero.2 (Bool.eq_false_iff.2 hb)
      omega
    have hph := (busy_iff s).1 hb
    obtain ⟨u, hu, hinv, -⟩ := clockEdge_next hs .idle
    have hcyc := busyCycles_edge hs hb rfl hu
    have hgap : u.ser.gapcnt = s.ser.gapcnt := (gapcnt_busyEdge hs hb rfl hu).trans (gapcnt_of_busy hs hph).symm
    obtain ⟨t, ht, hev, hi, hg⟩ := ih hinv (by omega)
    refine ⟨t, by rw [List.replicate_succ, clockEdges_cons hu, ht], ?_, hi, hg.trans hgap⟩
    rw [List.replicate_succ, eventsOfEdges_cons hu, hev, eventsOfEdge_noGap rfl fun h => hph (idle_of_reachesGap h),
      portEvents_idle]
    rfl

/-- An edge in `IDLE` that starts no flush stays in `IDLE` and counts the gap, with `RST` at its end (R117). -/
theorem quietEdge_line {p : Pins} {s t : State} (hs : s.Inv) (hr : p.rst = false) (hi : s.ser.phase = .idle)
    (hf : startsFlush p s = false) (h : clockEdge p s = .next t) :
    t.ser.phase = .idle ∧ t.ser.gapcnt = min (s.ser.gapcnt + 1) s.params.resetCyc ∧
      t.trace = s.trace ++ gapSymbols s := by
  cases clockEdge_line hs hr h with
  | idles _ _ hx ht => rw [hx]; exact ⟨hi, rfl, ht⟩
  | starts _ hf' => rw [hf] at hf'; cases hf'
  | counts hb => exact absurd hi hb
  | falls hb => rw [hi] at hb; cases hb
  | ends hb => rw [hi] at hb; cases hb
  | rises hb => rw [hi] at hb; cases hb

/-- The rest of the gap, in idle cycles, stands for `LATCH` alone (R121). -/
theorem waitGap {n : Nat} {s : State} (hs : s.Inv) (hi : s.ser.phase = .idle) (hn : s.ser.gapcnt + (n + 1) = s.params.resetCyc) :
    ∃ t, clockEdges (List.replicate (n + 1) .idle) s = .next t ∧
      eventsOfEdges (List.replicate (n + 1) .idle) s = [.latch] ∧ t.ser.phase = .idle ∧ t.ser.gapcnt = s.params.resetCyc := by
  have hf := startsFlush_of_not_valid (p := .idle) rfl s
  obtain ⟨u, hu, hinv, hp⟩ := clockEdge_next hs .idle
  obtain ⟨hui, hug, -⟩ := quietEdge_line hs rfl hi hf hu
  induction n generalizing s u with
  | zero =>
    refine ⟨u, by rw [List.replicate_one, clockEdges_singleton, hu], ?_, hui, by rw [hug]; omega⟩
    rw [List.replicate_one, eventsOfEdges_singleton hs, eventsOfEdge_gap rfl (reachesGap_iff.2 ⟨hi, hf, hn⟩), portEvents_idle]
    rfl
  | succ n ih =>
    have hf' := startsFlush_of_not_valid (p := .idle) rfl u
    obtain ⟨v, hv, hvinv, hvp⟩ := clockEdge_next hinv .idle
    obtain ⟨hvi, hvg, -⟩ := quietEdge_line hinv rfl hui hf' hv
    obtain ⟨t, ht, hev, hti, htg⟩ := ih hinv hui (by rw [hug, hp]; omega) hf' v hv hvinv hvp hvi hvg
    refine ⟨t, by rw [List.replicate_succ, clockEdges_cons hu, ht], ?_, hti, by rw [htg, hp]⟩
    rw [List.replicate_succ, eventsOfEdges_cons hu, hev, eventsOfEdge_noGap rfl fun h => by
      have := gap_of_reachesGap h
      omega, portEvents_idle]
    rfl

/-! ### Steps one by one (O56) -/

/-- A run whose edges stand for a script ends in the view the script leaves. -/
theorem run_matches {ps : List Pins} {es : List Event} {s e t : State} (hs : s.Inv) (he : e.ser.phase = .idle)
    (hv : eventView e = eventView s) (hev : eventsOfEdges ps s = es) (ht : eventSteps es e = .next t) :
    ∃ u, clockEdges ps s = .next u ∧ u.Inv ∧ t.ser.phase = .idle ∧ eventView t = eventView u := by
  obtain ⟨u, t', hu, hinv, ht', hi, hview⟩ := edges_refine ps hs he hv
  rw [hev, ht] at ht'
  cases ht'
  exact ⟨u, hu, hinv, hi, hview⟩

/-- In a block with no flush on the line, one edge with the step's pins stands for the step, where the gap does not end. -/
theorem eventsOfEdges_one {s : State} {v : Event} (hs : s.Inv) (hne : v ≠ .latch)
    (hv : ∀ w, v = .cmd w → s.cmdReady = true) (hgap : v ≠ .reset → reachesGap (eventPins v) s ≠ true) :
    eventsOfEdges [eventPins v] s = [v] := by
  rw [eventsOfEdges_singleton hs]
  cases v with
  | latch => exact absurd rfl hne
  | reset => exact eventsOfEdge_reset rfl s
  | tick => rw [eventsOfEdge_noGap rfl (hgap (by simp)), portEvents_tick]
  | cmd w => rw [eventsOfEdge_noGap rfl (hgap (by simp)), portEvents_cmd (hv w rfl)]

/-- The cycles of `LATCH` in a block with no flush on the line. -/
theorem eventsOfEdges_latch {s : State} (hs : s.Inv) (hi : s.ser.phase = .idle) (hl : s.latched = false) :
    ∃ ps t, clockEdges ps s = .next t ∧ eventsOfEdges ps s = [.latch] ∧ t.ser.phase = .idle ∧
      t.ser.gapcnt = s.params.resetCyc := by
  have hlt : s.ser.gapcnt < s.params.resetCyc := by
    by_contra h
    rw [(latched_iff s).2 (by omega)] at hl
    cases hl
  obtain ⟨t, ht⟩ := waitGap (n := s.params.resetCyc - s.ser.gapcnt - 1) hs hi (by omega)
  exact ⟨_, t, ht⟩

/-- Settles O56: the cycles of a step are one edge with its pins, and for `LATCH` the rest of the gap; `run_matches` gives the view.
The second half is the `idles` case of `LineStep`. -/
theorem eventStepsHaveCycleRuns : Obligations.EventStepsHaveCycleRuns := by
  refine ⟨fun s t v hs hb ht hcond => ?_, fun s p hs hb hgap hr hf => ?_⟩
  · have hi := idle_of_not_busy hb
    obtain ⟨ps, hps⟩ : ∃ ps, eventsOfEdges ps s = [v] := by
      by_cases hl : v = .latch
      · subst hl
        obtain ⟨ps, -, -, hps, -⟩ := eventsOfEdges_latch hs hi (latchEnabled_iff.1 (latchEnabled_of_eventStep ht)).1
        exact ⟨ps, hps⟩
      · have hk : ∀ w, v = .cmd w → s.cmdReady = true := by
          rintro w rfl
          exact cmdReady_of_eventStep ht
        refine ⟨_, eventsOfEdges_one hs hl hk fun hreset hreach => ?_⟩
        obtain ⟨-, hns, hend⟩ := reachesGap_iff.1 hreach
        obtain h | h | h | ⟨w, rfl, hw⟩ := hcond
        · exact h hend
        · exact hl h
        · exact hreset h
        · rw [startsFlush_iff.2 ⟨accepts_cmd (hk w rfl) w, hw⟩] at hns
          cases hns
    obtain ⟨u, hu, -, -, hview⟩ := run_matches hs hi rfl hps ((eventSteps_singleton v s).trans ht)
    exact ⟨ps, u, hu, hview.symm⟩
  · have hi := idle_of_not_busy hb
    have hns : startsFlush p s = false := Bool.eq_false_iff.2 fun h => hf (startsFlush_iff.1 h)
    obtain ⟨t, ht, -, hp⟩ := clockEdge_next hs p
    obtain ⟨-, hg, htrace⟩ := quietEdge_line hs hr hi hns ht
    exact ⟨t, ht, (latched_iff t).2 (by rw [hp, hg]; omega), by rw [htrace, gapSymbols, if_pos hgap]⟩

/-! ### Whole runs that have time (O57) -/

theorem eventStep_params {v : Event} {e u : State} (h : eventStep v e = .next u) : u.params = e.params := by
  cases v with
  | cmd w =>
    rw [eventStep_cmd (cmdReady_of_eventStep h)] at h
    cases h
    exact wholeEffect_params w (clearStrobe e)
  | tick => cases h; rfl
  | latch =>
    rw [eventStep_latch (latchEnabled_of_eventStep h)] at h
    cases h
    rfl
  | reset => cases h; rfl

theorem hasTime_reset {es : List Event} {e u : State} (h : eventStep .reset e = .next u) (gap sending : Nat) :
    hasTime (.reset :: es) gap sending e = hasTime es 0 0 u := by
  rw [hasTime, h]
  rfl

theorem hasTime_latch {es : List Event} {e u : State} (h : eventStep .latch e = .next u) (gap sending : Nat) :
    hasTime (.latch :: es) gap sending e = hasTime es e.params.resetCyc 0 u := by
  rw [hasTime, h]
  rfl

theorem hasTime_flush {es : List Event} {e u : State} {w : CmdWord} (h : eventStep (.cmd w) e = .next u)
    (hw : decode w = .ok .flush) (gap sending : Nat) :
    hasTime (.cmd w :: es) gap sending e = hasTime es 0 (flushCycles e) u := by
  rw [hasTime, h]
  exact if_pos hw

theorem hasTime_tick_sending {es : List Event} {e u : State} (h : eventStep .tick e = .next u) (gap : Nat) {sending : Nat}
    (hk : sending ≠ 0) : hasTime (.tick :: es) gap sending e = hasTime es gap (sending - 1) u := by
  rw [hasTime, h]
  exact if_neg hk

/-- The time an idle edge takes: it must not end the gap unless `LATCH` comes next (R121). -/
def idleTime (es : List Event) (gap : Nat) (e u : State) : Bool :=
  (gap + 1 != e.params.resetCyc || es.head? == some .latch) && hasTime es (min (gap + 1) e.params.resetCyc) 0 u

theorem hasTime_tick_idle {es : List Event} {e u : State} (h : eventStep .tick e = .next u) (gap : Nat) :
    hasTime (.tick :: es) gap 0 e = idleTime es gap e u := by
  rw [hasTime, h]
  rfl

theorem hasTime_word {es : List Event} {e u : State} {w : CmdWord} (h : eventStep (.cmd w) e = .next u)
    (hw : decode w ≠ .ok .flush) (gap sending : Nat) :
    hasTime (.cmd w :: es) gap sending e = idleTime es gap e u := by
  rw [hasTime, h]
  exact if_neg hw

/-- The cycle level can follow a script from every legal state with the same view, where there is time for it. -/
def Realizable (es : List Event) : Prop := ∀ s e t : State, s.Inv → e.ser.phase = .idle → eventView e = eventView s →
  eventSteps es e = .next t → hasTime es s.ser.gapcnt (busyCycles s) e = true → ∃ ps, eventsOfEdges ps s = es

section
variable {s e t : State} {es : List Event}

/-- A run for the first steps of a script, and the rest of the script from where it ends. -/
theorem Realizable.extend (hes : Realizable es) {vs : List Event} (hs : s.Inv) (he : e.ser.phase = .idle)
    (hv : eventView e = eventView s) {u : State} (hvs : eventSteps vs e = .next u) (hrest : eventSteps es u = .next t)
    {ps : List Pins} {s' : State} (hps : clockEdges ps s = .next s') (hev : eventsOfEdges ps s = vs)
    (htime : hasTime es s'.ser.gapcnt (busyCycles s') u = true) : ∃ ps, eventsOfEdges ps s = vs ++ es := by
  obtain ⟨s'', hs'', hinv, hui, hview⟩ := run_matches hs he hv hev hvs
  rw [hps] at hs''
  cases hs''
  obtain ⟨qs, hqs⟩ := hes _ _ _ hinv hui hview hrest htime
  exact ⟨ps ++ qs, by rw [eventsOfEdges_append hs hps, hev, hqs]⟩

/-- The same for one step. -/
theorem Realizable.step (hes : Realizable es) {v : Event} (hs : s.Inv) (he : e.ser.phase = .idle)
    (hv : eventView e = eventView s) {u : State} (hu : eventStep v e = .next u) (hrest : eventSteps es u = .next t)
    {ps : List Pins} {s' : State} (hps : clockEdges ps s = .next s') (hev : eventsOfEdges ps s = [v])
    (htime : hasTime es s'.ser.gapcnt (busyCycles s') u = true) : ∃ ps, eventsOfEdges ps s = v :: es :=
  hes.extend hs he hv ((eventSteps_singleton v e).trans hu) hrest hps hev htime

/-- A step that takes an idle edge, from a block with no flush on the line. -/
theorem Realizable.idleEdge (hes : Realizable es) (hlatch : ∀ es', es = .latch :: es' → Realizable es') {v : Event}
    (hs : s.Inv) (hi : s.ser.phase = .idle) (he : e.ser.phase = .idle) (hv : eventView e = eventView s) {u : State}
    (hu : eventStep v e = .next u) (hrest : eventSteps es u = .next t) (hr : (eventPins v).rst = false)
    (hport : portEvents (eventPins v) s = [v]) (hf : startsFlush (eventPins v) s = false)
    (htime : idleTime es s.ser.gapcnt e u = true) : ∃ ps, eventsOfEdges ps s = v :: es := by
  have hp : e.params = s.params := (eventView_eq_iff.1 hv).1.params
  obtain ⟨s', hs', -⟩ := clockEdge_next hs (eventPins v)
  obtain ⟨hi', hg', -⟩ := quietEdge_line hs hr hi hf hs'
  have hps := (clockEdges_singleton (eventPins v) s).trans hs'
  have hev := eventsOfEdges_singleton (p := eventPins v) hs
  rw [idleTime, hp, ← hg', Bool.and_eq_true, Bool.or_eq_true] at htime
  obtain ⟨hhead, htime⟩ := htime
  by_cases hgap : s.ser.gapcnt + 1 = s.params.resetCyc
  · rw [eventsOfEdge_gap hr (reachesGap_iff.2 ⟨hi, hf, hgap⟩), hport] at hev
    obtain ⟨es', rfl⟩ : ∃ es', es = .latch :: es' := by
      cases es with
      | nil => simp [hgap] at hhead
      | cons v' es' => exact ⟨es', by simpa [hgap] using hhead⟩
    obtain ⟨u', hu', hrest'⟩ := eventSteps_cons_next hrest
    rw [hasTime_latch hu', eventStep_params hu, hp] at htime
    refine Realizable.extend (hlatch es' rfl) (vs := [v, .latch]) hs he hv ?_ hrest' hps hev ?_
    · rw [eventSteps, hu, andThen_next, eventSteps_singleton, hu']
    · rw [hg', hgap, Nat.min_self, busyCycles_idle hi']
      exact htime
  · rw [eventsOfEdge_noGap hr fun h => hgap (gap_of_reachesGap h), hport] at hev
    exact hes.step hs he hv hu hrest hps hev (by rw [busyCycles_idle hi']; exact htime)

/-- A flush on the line can be waited for (R71). -/
theorem exists_run_of_wait (hs : s.Inv) (he : e.ser.phase = .idle) (hv : eventView e = eventView s)
    (h : ∀ s1 : State, s1.Inv → s1.ser.phase = .idle → s1.ser.gapcnt = s.ser.gapcnt → eventView e = eventView s1 →
      ∃ ps, eventsOfEdges ps s1 = es) : ∃ ps, eventsOfEdges ps s = es := by
  obtain ⟨s1, hs1, hev, hi1, hg1⟩ := waitFlush hs
  obtain ⟨s2, hs2, hinv, -, hview⟩ := run_matches hs he hv hev rfl
  rw [hs1] at hs2
  cases hs2
  obtain ⟨ps, hps⟩ := h s1 hinv hi1 hg1 hview
  exact ⟨_, by rw [eventsOfEdges_append hs hs1, hev, hps]; rfl⟩

end

theorem Realizable.nil : Realizable [] := fun _ _ _ _ _ _ _ _ => ⟨[], rfl⟩

theorem Realizable.reset {es : List Event} (hes : Realizable es) : Realizable (.reset :: es) := by
  intro s e t hs he hv ht htime
  obtain ⟨u, hu, hrest⟩ := eventSteps_cons_next ht
  rw [hasTime_reset hu] at htime
  exact hes.step hs he hv hu hrest (clockEdges_singleton (eventPins .reset) s)
    (eventsOfEdges_one hs (by simp) (by simp) fun h => absurd rfl h) htime

theorem Realizable.latch {es : List Event} (hes : Realizable es) : Realizable (.latch :: es) := by
  intro s e t hs he hv ht htime
  obtain ⟨u, hu, hrest⟩ := eventSteps_cons_next ht
  rw [hasTime_latch hu] at htime
  refine exists_run_of_wait hs he hv fun s1 hs1 hi1 _ hv1 => ?_
  obtain ⟨hsame, -, hlatched, -⟩ := eventView_eq_iff.1 hv1
  have hl : s1.latched = false := hlatched.symm.trans (latchEnabled_iff.1 (latchEnabled_of_eventStep hu)).1
  obtain ⟨ps, s', hps, hev, hi', hg'⟩ := eventsOfEdges_latch hs1 hi1 hl
  refine hes.step hs1 he hv1 hu hrest hps hev ?_
  rw [hg', busyCycles_idle hi', ← hsame.params]
  exact htime

theorem Realizable.tick {es : List Event} (hes : Realizable es) (hlatch : ∀ es', es = .latch :: es' → Realizable es') :
    Realizable (.tick :: es) := by
  intro s e t hs he hv ht htime
  obtain ⟨u, hu, hrest⟩ := eventSteps_cons_next ht
  have hf := startsFlush_of_not_valid (p := eventPins .tick) rfl s
  by_cases hi : s.ser.phase = .idle
  · rw [busyCycles_idle hi, hasTime_tick_idle hu] at htime
    exact hes.idleEdge hlatch hs hi he hv hu hrest rfl (portEvents_tick s) hf htime
  · have hb := (busy_iff s).2 hi
    obtain ⟨s', hs', -⟩ := clockEdge_next hs (eventPins .tick)
    have hcyc : busyCycles s' = busyCycles s - 1 := (Nat.sub_eq_of_eq_add (busyCycles_edge hs hb rfl hs').symm).symm
    have hgap : s'.ser.gapcnt = s.ser.gapcnt := (gapcnt_busyEdge hs hb rfl hs').trans (gapcnt_of_busy hs hi).symm
    have hpos := busyCycles_pos hb
    rw [hasTime_tick_sending hu _ (by omega)] at htime
    refine hes.step hs he hv hu hrest ((clockEdges_singleton _ s).trans hs')
      (eventsOfEdges_one hs (by simp) (by simp) fun _ h => hi (idle_of_reachesGap h)) ?_
    rw [hcyc, hgap]
    exact htime

theorem Realizable.cmd {es : List Event} (hes : Realizable es) (hlatch : ∀ es', es = .latch :: es' → Realizable es')
    (w : CmdWord) : Realizable (.cmd w :: es) := by
  intro s e t hs he hv ht htime
  obtain ⟨u, hu, hrest⟩ := eventSteps_cons_next ht
  refine exists_run_of_wait hs he hv fun s1 hs1 hi1 hg1 hv1 => ?_
  have hsame := (eventView_eq_iff.1 hv1).1
  have hk : s1.cmdReady = true := (hsame.cmdReady hi1 he).symm.trans (cmdReady_of_eventStep hu)
  by_cases hw : decode w = .ok .flush
  · rw [hasTime_flush hu hw] at htime
    have hf : startsFlush (eventPins (.cmd w)) s1 = true := startsFlush_iff.2 ⟨accepts_cmd hk w, hw⟩
    obtain ⟨s', hs', -⟩ := clockEdge_next hs1 (eventPins (.cmd w))
    obtain ⟨⟨-, -, -, hgap, -⟩, hcyc, -⟩ := sending_start hs1 hf hs'
    refine hes.step hs1 he hv1 hu hrest ((clockEdges_singleton _ s1).trans hs')
      (eventsOfEdges_one hs1 (by simp) (fun _ _ => hk) fun _ h => by simp [reachesGap, hf] at h) ?_
    have hall : flushCycles e = flushCycles s1 := by
      rw [flushCycles, flushCycles, frameBits_congr hsame.params hsame.frame, hsame.params]
    rw [hgap, hcyc, ← hall]
    exact htime
  · rw [hasTime_word hu hw, ← hg1] at htime
    exact hes.idleEdge hlatch hs1 hi1 he hv1 hu hrest rfl (portEvents_cmd hk w) (startsFlush_cmd hw) htime

/-- Every script is realizable, by induction on its length: where an edge ends the gap, two steps go at once. -/
theorem realizable (es : List Event) : Realizable es := by
  induction hn : es.length using Nat.strong_induction_on generalizing es with
  | _ n ih =>
    subst hn
    cases es with
    | nil => exact .nil
    | cons v es =>
      have hes : Realizable es := ih _ (by simp) es rfl
      have hlatch : ∀ es', es = .latch :: es' → Realizable es' := by
        rintro es' rfl
        exact ih _ (by simp only [List.length_cons]; omega) es' rfl
      cases v with
      | cmd w => exact hes.cmd hlatch w
      | tick => exact hes.tick hlatch
      | latch => exact hes.latch
      | reset => exact hes.reset

/-- Settles O57: the script is realizable from the state itself, and `run_matches` gives the view. -/
theorem eventRunsHaveCycleRuns : Obligations.EventRunsHaveCycleRuns := by
  intro es s t hs hb ht htime
  have hi := idle_of_not_busy hb
  obtain ⟨ps, hps⟩ := realizable es s s t hs hi rfl ht (by rw [busyCycles_idle hi]; exact htime)
  obtain ⟨u, hu, -, -, hview⟩ := run_matches hs hi rfl hps ht
  exact ⟨ps, u, hu, hps, hview.symm⟩

end Sys2Proof.Machine

/-!
PROOF of O58: the cycle level follows every event-level run in all but the gap (R124, log 26). `MatchesUpToGap` relates the two
levels between steps; `Follows` says that cycles follow one step, and the run is an induction on the script.
-/

namespace Sys2Proof.Machine

/-! ### Agreement up to the gap -/

/-- The pulses of a trace, without its `RST` (R12). -/
def pulses (t : List Symbol) : List Symbol := t.filter (· != .RST)

theorem pulses_append (t u : List Symbol) : pulses (t ++ u) = pulses t ++ pulses u := List.filter_append ..

/-- An `RST` on a condition is no pulse. -/
theorem pulses_ite_RST (c : Prop) [Decidable c] : pulses (if c then [.RST] else []) = [] := by split <;> rfl

/-- The levels agree but for the gap: no flush on the line, the same registers, the same pulses. -/
structure MatchesUpToGap (s e : State) : Prop where
  idle : s.ser.phase = .idle
  idle' : e.ser.phase = .idle
  same : SameRegs s e
  pulses : pulses s.trace = pulses e.trace

/-- The step does not read `LATCHED` (R153). -/
def NoLatchedRead (v : Event) : Prop := ∀ w, v = .cmd w → decode w ≠ .ok (.rdstat .latched)

/-- Some cycles from `s` stand for the step `v` but for `LATCH`, and end in agreement with `u`, the event-level state after it;
so does the response, unless the step read `LATCHED`. -/
def Follows (s e : State) (v : Event) (u : State) : Prop :=
  ∃ ps s', clockEdges ps s = .next s' ∧
    (eventsOfEdges ps s).filter (· != .latch) = [v].filter (· != .latch) ∧ MatchesUpToGap s' u ∧
    (s.rsp = e.rsp → NoLatchedRead v → s'.rsp = u.rsp)

/-- An edge's steps but for `LATCH` are those of the port and the tick. -/
theorem filter_eventsOfEdge {p : Pins} {s : State} (hr : p.rst = false) :
    (eventsOfEdge p s).filter (· != .latch) = (portEvents p s).filter (· != .latch) := by
  rw [eventsOfEdge_eq hr, List.filter_append]
  split <;> simp

/-! ### The cycles of each step -/

section
variable {s e u : State}

theorem follows_reset (h : MatchesUpToGap s e) : Follows s e .reset (resetEdge e) := by
  refine ⟨[eventPins .reset], resetEdge s, clockEdges_singleton _ s, rfl, ⟨rfl, rfl, ?_, rfl⟩, fun _ _ => rfl⟩
  obtain ⟨-, -, hsame, -⟩ := h
  refine SameRegs.iff_fields.2 ⟨hsame.params, rfl, rfl, rfl, ?_, rfl, rfl⟩
  exact congrArg (fun p : Params => BitVec.ofNat 8 p.colorDefault) hsame.params

theorem follows_latch (h : MatchesUpToGap s e) : Follows s e .latch (latchStep e) := by
  obtain ⟨hi, hi', hsame, hpulses⟩ := h
  refine ⟨[], s, rfl, rfl, ⟨hi, hi', ?_, ?_⟩, fun hrsp _ => hrsp⟩
  · obtain ⟨x, y, v, r, z, rfl⟩ := hsame
    exact ⟨_, _, _, _, _, rfl⟩
  · show pulses s.trace = pulses (e.trace ++ [.RST])
    rw [pulses_append, hpulses]
    exact (List.append_nil _).symm

theorem follows_tick (hs : s.Inv) (h : MatchesUpToGap s e) : Follows s e .tick (tickAt e e) := by
  obtain ⟨hi, hi', hsame, hpulses⟩ := h
  have hedge := clockEdge_idleFor (p := eventPins .tick) hs hi rfl (accepts_of_not_valid rfl s)
  refine ⟨_, _, (clockEdges_singleton _ s).trans hedge, ?_, ⟨hi, hi', ?_, ?_⟩, fun hrsp _ => hrsp⟩
  · rw [eventsOfEdges_singleton hs, filter_eventsOfEdge rfl, portEvents_tick]
  · obtain ⟨x, y, v, r, z, rfl⟩ := hsame
    exact ⟨_, _, _, _, _, rfl⟩
  · show pulses (s.trace ++ _) = pulses e.trace
    rw [pulses_append, pulses_ite_RST, List.append_nil, hpulses]

theorem follows_word (hs : s.Inv) (h : MatchesUpToGap s e) (hk : s.cmdReady = true) {w : CmdWord}
    (hw : decode w ≠ .ok .flush) : Follows s e (.cmd w) (wholeEffect w (clearStrobe e)) := by
  obtain ⟨hi, hi', hsame, hpulses⟩ := h
  have hf := startsFlush_cmd (s := s) hw
  obtain ⟨s', hs', -⟩ := clockEdge_next hs (eventPins (.cmd w))
  obtain ⟨hsi, -, htrace⟩ := quietEdge_line hs rfl hi hf hs'
  have hrest := clockEdge_rest rfl hs'
  rw [portEffect_accepts (accepts_cmd hk w)] at hrest
  obtain ⟨hregs, hresp⟩ := hsame.clearStrobe.wordEffect w
  obtain ⟨-, htr⟩ := wordEffect_line hw (clearStrobe e)
  rw [wholeEffect_word hw]
  refine ⟨_, s', (clockEdges_singleton _ s).trans hs', ?_, ⟨hsi, ?_, ?_, ?_⟩, fun hrsp hno => ?_⟩
  · rw [eventsOfEdges_singleton hs, filter_eventsOfEdge rfl, portEvents_cmd hk]
  · rw [(wordEffect_line hw (clearStrobe e)).1]
    exact hi'
  · refine SameRegs.trans (SameRegs.iff_fields.2 ?_) hregs
    rw [hrest]
    exact ⟨rfl, rfl, wordEffect_pres w (clearStrobe s), rfl, rfl, rfl, rfl⟩
  · rw [htrace, htr, pulses_append, pulses_ite_RST, List.append_nil, hpulses]
    rfl
  · rw [hrest]
    exact (hresp hrsp.symm fun hd => absurd hd (hno w rfl)).symm

theorem follows_flush (hs : s.Inv) (h : MatchesUpToGap s e) (hk : s.cmdReady = true) {w : CmdWord}
    (hw : decode w = .ok .flush) : Follows s e (.cmd w) (flushWhole (clearStrobe e)) := by
  obtain ⟨hi, hi', hsame, hpulses⟩ := h
  obtain rfl := decode_eq_ok_iff.1 hw
  have hf : startsFlush (Pins.present (encode .flush)) s = true := startsFlush_iff.2 ⟨accepts_cmd hk _, hw⟩
  obtain ⟨t, ht, hinv, -⟩ := clockEdge_next hs (Pins.present (encode .flush))
  obtain ⟨-, hcyc, -⟩ := sending_start hs hf ht
  obtain ⟨-, -, hquiet, -⟩ := waitFlush hinv
  refine ⟨_, _, flushRunIsTheWholeFlush s hs hk, ?_, ⟨rfl, rfl, ?_, ?_⟩, fun hrsp _ => hrsp⟩
  · rw [← hcyc, eventsOfEdges_cons ht, hquiet, List.append_nil, filter_eventsOfEdge rfl]
    exact congrArg _ (portEvents_cmd hk (encode .flush))
  · obtain ⟨x, y, v, r, z, rfl⟩ := hsame
    exact ⟨_, _, _, _, _, rfl⟩
  · have hsyms : flushSymbols e = flushSymbols s := flushSymbols_congr hsame.params hsame.frame
    show pulses (s.trace ++ flushSymbols s) = pulses (e.trace ++ flushSymbols e)
    rw [hsyms, pulses_append, pulses_append, hpulses]

/-- Every step that answers is followed. -/
theorem follows_step (hs : s.Inv) (h : MatchesUpToGap s e) {v : Event} (hu : eventStep v e = .next u) : Follows s e v u := by
  cases v with
  | reset => cases hu; exact follows_reset h
  | tick => cases hu; exact follows_tick hs h
  | latch =>
    rw [eventStep_latch (latchEnabled_of_eventStep hu)] at hu
    cases hu
    exact follows_latch h
  | cmd w =>
    have hk' := cmdReady_of_eventStep hu
    have hk : s.cmdReady = true := (h.same.cmdReady h.idle h.idle').symm.trans hk'
    rw [eventStep_cmd hk'] at hu
    cases hu
    by_cases hw : decode w = .ok .flush
    · rw [wholeEffect_flush hw]
      exact follows_flush hs h hk hw
    · exact follows_word hs h hk hw

end

/-! ### The run -/

/-- Every script that answers is followed, step after step. -/
theorem follows_script (es : List Event) {s e t : State} (hs : s.Inv) (h : MatchesUpToGap s e)
    (ht : eventSteps es e = .next t) :
    ∃ ps u, clockEdges ps s = .next u ∧ (eventsOfEdges ps s).filter (· != .latch) = es.filter (· != .latch) ∧
      MatchesUpToGap u t ∧ (s.rsp = e.rsp → (∀ v ∈ es, NoLatchedRead v) → u.rsp = t.rsp) := by
  induction es generalizing s e with
  | nil =>
    cases ht
    exact ⟨[], s, rfl, rfl, h, fun hrsp _ => hrsp⟩
  | cons v es ih =>
    obtain ⟨e', he', hrest⟩ := eventSteps_cons_next ht
    obtain ⟨ps, s', hs', hev, hmatch, hrsp⟩ := follows_step hs h he'
    obtain ⟨qs, u, hu, hevs, hmatch', hrsp'⟩ := ih (inv_clockEdges hs hs') hmatch hrest
    refine ⟨ps ++ qs, u, by rw [clockEdges_append_next hs', hu], ?_, hmatch', fun h0 hno => ?_⟩
    · rw [eventsOfEdges_append hs hs', List.filter_append, hev, hevs, ← List.filter_append]
      rfl
    · obtain ⟨hv, hno⟩ := List.forall_mem_cons.1 hno
      exact hrsp' (hrsp h0 hv) hno

/-- Settles O58: both levels start in the same state. -/
theorem eventRunsMatchUpToTheGap : Obligations.EventRunsMatchUpToTheGap := by
  intro es s t hs hb ht
  have hi := idle_of_not_busy hb
  obtain ⟨ps, u, hu, hev, ⟨hui, -, hsame, hpulses⟩, hrsp⟩ :=
    follows_script es hs ⟨hi, hi, ⟨_, _, _, _, _, rfl⟩, rfl⟩ ht
  obtain ⟨-, hframe, hpres, hpflag, hcsel, hfault, hfinfo⟩ := SameRegs.iff_fields.1 hsame
  refine ⟨ps, u, hu, by simp [State.busy, hui], hev, hpulses, hframe.symm, hpres.symm, hpflag.symm, hcsel.symm,
    hfault.symm, hfinfo.symm, fun hno => hrsp rfl ?_⟩
  rintro v hv w rfl
  exact hno w hv

end Sys2Proof.Machine
